-- ==== Sys2Proof/Word.lean ====
section
/-! DEFINITION. The bit-vector types of BLFSM: the widths spec/10_state.md section 1 gives its
registers, and the byte. All quantities are unsigned (R6). -/

namespace Sys2Proof

/-- A byte of a frame, of the image or of a response (R6). -/
abbrev Byte := BitVec 8

/-- A 32-bit quantity: an image length (R15), a checksum (R17), an address (R76). -/
abbrev Word := BitVec 32

/-- A page index, register `idx` (R13). -/
abbrev PageIdx := BitVec 25

/-- A page count, register `npages` (R16). -/
abbrev PageCount := BitVec 26

/-- A number of milliseconds, the width of register `timer` (R18; `TIMER_W` of R5). -/
abbrev Ms := BitVec 13

end Sys2Proof
end

