-- ==== Sys2Proof/Config.lean ====
section
/-! DEFINITION. The protocol constants of spec/00_scope.md R4, "a configuration record whose
default is this table" (D25, U16). The numeric literals are the document's, normative here and
unaudited (log entry 21). No constant is a free value: what the channel answers stands in State. -/

namespace Sys2Proof.Config

/-- `LINK` of R4: the line settings the channel must have. They are "a requirement on the channel,
not state of BLFSM"; no operation reads them (R240, C8). -/
structure Link where
  baud : Nat := 115200
  dataBits : Nat := 8
  parity : Bool := false
  stopBits : Nat := 1
  flowControl : Bool := false
deriving DecidableEq, Repr

/-- The table of R4, each constant under this spec's name for it. -/
structure Params where
  /-- `PAGE_SIZE`, bytes -/
  pageSize : Nat := 128
  /-- `PAD_BYTE` (C1: `0xFF`, never `0x00`) -/
  padByte : Byte := 0xFF
  /-- `ADDR_BYTES` -/
  addrBytes : Nat := 4
  /-- `CSUM_BYTES` -/
  csumBytes : Nat := 4
  opEnter : Byte := 0xA5
  opErase : Byte := 0xE0
  opWrite : Byte := 0xD0
  opVerify : Byte := 0xC0
  opExit : Byte := 0xF0
  rspAck : Byte := 0x79
  rspNack : Byte := 0x1F
  tEnter : Ms := 2000
  tErase : Ms := 5000
  tWrite : Ms := 1000
  tVerify : Ms := 3000
  dEnter : Ms := 100
  dExit : Ms := 100
  /-- `WP_FRAME_LEN`, `1 + ADDR_BYTES + PAGE_SIZE` -/
  wpFrameLen : Nat := 133
  link : Link := {}
deriving DecidableEq, Repr

/-- The hardware's parameters: every constant at the value R4 states. -/
def cfg : Params := {}

end Sys2Proof.Config
end

