-- ==== Sys2Proof/Syntax.lean ====
section
/-! DEFINITION. The operations of BLFSM: one constructor per row of spec/opcode_table.json, with
the operands of the trace notation R90. A frame-carrying operation holds every field of its frame
(R71 to R75), so that its encoding is a function of the operation alone (log entry 25). -/

namespace Sys2Proof

/-- One protocol operation (R78). -/
inductive Instr where
  /-- `ENTER`: send `[0xA5]` (R120). -/
  | enter
  /-- `ERASE`: send `[0xE0]` (R122). -/
  | erase
  /-- `WRITE_PAGE i`: send `[0xD0] ++ be32(addr) ++ payload`, `addr = i * 128` (R140). -/
  | writePage (addr : Word) (payload : List Byte)
  /-- `VERIFY`: send `[0xC0]` (R162). -/
  | verify
  /-- `CHECKSUM c`: send `be32(c)`, no opcode (R163). -/
  | checksum (c : Word)
  /-- `EXIT`: send `[0xF0]` (R124). -/
  | exit
  /-- `ACK`: the response byte `0x79` is received (R102). -/
  | ack
  /-- `NACK`: the response byte `0x1F` is received (R103). -/
  | nack
  /-- `MALFORMED`: any other response byte is received (R104). -/
  | malformed (b : Byte)
  /-- `AWAIT_ACK T`: one timed read and its classification (R100). -/
  | awaitAck (t : Ms)
  /-- `SLEEP ms` (R51). -/
  | sleep (ms : Ms)
  /-- `UPLOAD`: an accepted start (R180). -/
  | upload
deriving DecidableEq, Repr

end Sys2Proof
end

