-- ==== Sys2Proof/Machine/State.lean ====
section
/-! DEFINITION. The state of BLFSM as plain data: the twelve registers of spec/10_state.md section 1,
the inputs of the surroundings (R30, R36, R52) and the observed trace (R90). -/

namespace Sys2Proof.Machine

/-- Register `st`, the SessionState (R10), in the order of its codes (R11). -/
inductive SessionState where
  | idle
  | enteringBootloader
  | erasing
  | writingPages
  | verifying
  | exitingBootloader
  | done
  | failed
deriving DecidableEq, Repr

/-- Register `ph`, the phase inside a state (R12). -/
inductive Phase where
  | send
  | send2
  | settle
  | wait
deriving DecidableEq, Repr

/-- Register `hs`, the last handshake's result (R20); codes 5 to 7 are not representable (U10). -/
inductive HsResult where
  | none
  | ok
  | nack
  | timeout
  | malformed
deriving DecidableEq, Repr

/-- Register `cause`, why `Failed` was entered (R21, R210); code 7 is not representable (U10). -/
inductive Cause where
  | none
  | emptyImage
  | channelClosed
  | shortWrite
  | timeout
  | nack
  | malformed
deriving DecidableEq, Repr

/-- The architectural registers (10_state.md section 1), each under the spec's name. -/
structure Regs where
  /-- the sequencer state (R10) -/
  st : SessionState
  /-- the phase inside the state (R12) -/
  ph : Phase
  /-- the index of the page being written (R13) -/
  idx : PageIdx
  /-- the image length, latched at start (R15) -/
  len : Word
  /-- the page count, latched at start (R16) -/
  npages : PageCount
  /-- the checksum (R17) -/
  csum : Word
  /-- milliseconds left of the running interval (R18, R235) -/
  timer : Ms
  /-- the last response byte received (R19) -/
  rxb : Byte
  /-- the last handshake's result (R20) -/
  hs : HsResult
  /-- why `Failed` was entered (R21) -/
  cause : Cause
  /-- the state in which the failure happened (R22) -/
  fstate : SessionState
  /-- the page index at the failure (R22) -/
  fidx : PageIdx
deriving DecidableEq, Repr

/-- The image space IMG (R40, R41): (address, byte) pairs, addresses strictly rising, no entry equal
to what an unlisted address reads as (log entry 6). -/
abbrev Memory := List Host.Cell

/-- What the surroundings hold toward BLFSM between two steps (R36: "parameters or environment of a
model"). No step changes the pins or the image; a channel primitive takes its answer from the front of
its list (log entries 2 to 6). Between steps `drive` sets them, but for the
image and length of a run under way. -/
structure Env where
  /-- input pin `rst` (R250) -/
  rst : Bool
  /-- input pin `start`, level-sampled (R24, R266) -/
  start : Bool
  /-- input `img_len` (R30), like the image "fixed for a run" (R36): `drive` refuses another one in a busy
  state -/
  imgLen : Word
  /-- input `ch_open`: what `ChIsOpen()` answers (R50) -/
  chOpen : Bool
  /-- the firmware image (R41), the same for a whole run, "fixed at start" (R44, R62): `drive` refuses
  another one in a busy state -/
  img : Memory
  /-- what the coming `ChWrite` calls answer (R48, R52); empty: the call has not returned (R262) -/
  wrAns : List Bool
  /-- what the coming `ChReadExact(1, T)` calls answer, `none` for `Fail` (R49, R52) -/
  rdAns : List (Option Byte)
deriving DecidableEq, Repr

/-- One line of a trace (R90): a primitive with the oracle's answer. -/
inductive Event where
  /-- `? open` or `? closed` -/
  | isOpen (answer : Bool)
  /-- `> b0 b1 ...` (`true`) or `>! b0 b1 ...` (`false`) -/
  | write (bytes : List Byte) (answer : Bool)
  /-- `~ ms` -/
  | sleep (ms : Ms)
  /-- `< bb @T` (`some b`) or `<! @T` (`none`) -/
  | read (t : Ms) (answer : Option Byte)
deriving DecidableEq, Repr

/-- The machine: registers, surroundings, and the trace of the current run (the model's observer,
log entry 8). -/
structure State extends Regs, Env where
  /-- the primitives of the run so far, oldest first (R90) -/
  trace : List Event
deriving DecidableEq, Repr

/-- Where the machine stops with a fault. -/
inductive Fault where
  /-- An IMG address the image does not have would be read ("Addresses `>= L` do not exist and are
  never requested", R41, R44). Raised by WRITE_PAGE and by the selection of an operation at
  `(WritingPages, Send)` when `idx * 128 >= len`, in states no run reaches (R141). Safe: the model
  stops where the hardware has no behaviour. -/
  | imgAddress
deriving DecidableEq, Repr

/-- What the model gives no meaning. -/
inductive Refusal where
  /-- Raised by `exec` alone, for an instruction that has no meaning yet. Safe. -/
  | notModelled (mnemonic : String)
  /-- Raised by `exec` for an operation, or an operand, that the sequencer does not perform at the
  state's position ("at no other position does it send anything", R79; "No other arc exists", R199;
  U14). `step` never raises it. Safe. -/
  | outOfSequence
  /-- Raised by `step` and `cycle` at a position R12 and R13 do not list ("unreachable and a model
  should make it unrepresentable or refuse it", R12; U10). Safe. -/
  | unreachablePosition
  /-- Raised by `drive` alone, where the surroundings would alter the image or `img_len` between an
  accepted start and the terminal state (U12 "An image or `img_len` that changes during a run", "refuse";
  R36, R44, R62, R261). Safe. -/
  | imageChanged
deriving DecidableEq, Repr

/-- Every register after reset (R35, R250). -/
def Regs.reset : Regs where
  st := .idle
  ph := .send
  idx := 0
  len := 0
  npages := 0
  csum := 0
  timer := 0
  rxb := 0
  hs := .none
  cause := .none
  fstate := .idle
  fidx := 0

/-- The machine right after reset: R35's registers; the surroundings assert nothing, present no image
and have answered nothing (log entry 7). -/
def State.reset : State where
  toRegs := Regs.reset
  rst := false
  start := false
  imgLen := 0
  chOpen := false
  img := []
  wrAns := []
  rdAns := []
  trace := []

end Sys2Proof.Machine
end

