-- ==== Sys2Proof/Machine/Ops.lean ====
section
/-! DEFINITION. The named operations over the image, the channel and the registers: the primitives of
R7, moving the sequencer, taking a failure (`raise Fail`, R220) and, beside it, the accepted start,
which is the only way out of `Failed` short of reset (R223). -/

namespace Sys2Proof.Machine

open Sys2Proof.Config

/-- What one step or one operation answers. -/
abbrev Result := Host.Outcome State Fault Refusal

/-! ### IMG: the firmware image -/

/-- What an address with no entry reads as: the model's coding of an image, in which a listed byte is
never 0x00 (DESIGN CHOICE, log entry 6). -/
def imgUnlisted : Byte := 0x00

/-- Image byte `a` (R41: byte `k` of the sequence is at IMG address `k`). -/
def imgByte : Memory → Nat → Byte
  | [], _ => imgUnlisted
  | (k, b) :: rest, a => if k = a then b else imgByte rest a

/-- Put byte `b` at address `a`: what the surroundings do when they load an image before a start
(R255). BLFSM itself writes no memory (R46). -/
def imgPut : Memory → Nat → Byte → Memory
  | [], a, b => if b = imgUnlisted then [] else [(a, b)]
  | (k, c) :: rest, a, b =>
    if a < k then (if b = imgUnlisted then (k, c) :: rest else (a, b) :: (k, c) :: rest)
    else if a = k then (if b = imgUnlisted then rest else (a, b) :: rest)
    else (k, c) :: imgPut rest a b

/-- Put the bytes at `a`, `a + 1`, and so on. -/
def imgPutAll (m : Memory) (a : Nat) : List Byte → Memory
  | [] => m
  | b :: bs => imgPutAll (imgPut m a b) (a + 1) bs

/-- The canonical form from address `lo` on: addresses strictly rising and 32 bits wide (R40), no
entry equal to what an unlisted address reads as. -/
def Memory.wfFrom (lo : Nat) : Memory → Bool
  | [] => true
  | (k, b) :: rest =>
    decide (lo ≤ k) && decide (k < 2 ^ 32) && decide (b ≠ imgUnlisted) && Memory.wfFrom (k + 1) rest

/-- The canonical form of the image. -/
def Memory.wf (m : Memory) : Bool := Memory.wfFrom 0 m

/-- The `k` bytes from `a` on, ascending. -/
def imgBytes (m : Memory) (a : Nat) : Nat → List Byte
  | 0 => []
  | k + 1 => imgByte m a :: imgBytes m (a + 1) k

/-- `MemRead(IMG, a, k)`, "issued only with `k >= 1` and `a + k <= len`" (R44). Here it always returns:
that `img_ack` may never come (R262, U8) is in `cycle` alone, DESIGN CHOICE, log entry 31. -/
def memRead (m : Memory) (len a k : Nat) : Option (List Byte) :=
  if 1 ≤ k ∧ a + k ≤ len then some (imgBytes m a k) else none

/-! ### The sequencer position -/

/-- `Idle`, `Done` and `Failed` (R10). -/
def quiescent : SessionState → Bool
  | .idle | .done | .failed => true
  | .enteringBootloader | .erasing | .writingPages | .verifying | .exitingBootloader => false

/-- The handshake timeout of a state (R107); `none` where the state has no `Wait` phase. -/
def waitTimeout : SessionState → Option Ms
  | .enteringBootloader => some cfg.tEnter
  | .erasing => some cfg.tErase
  | .writingPages => some cfg.tWrite
  | .verifying => some cfg.tVerify
  | .idle | .exitingBootloader | .done | .failed => none

/-- The settle delay of a state (R121, R125); `none` where the state has no `Settle` phase. -/
def settleDelay : SessionState → Option Ms
  | .enteringBootloader => some cfg.dEnter
  | .exitingBootloader => some cfg.dExit
  | .idle | .erasing | .writingPages | .verifying | .done | .failed => none

/-- The interval `timer` is loaded with when a position is entered (R235, R236); 0 where none runs. -/
def interval (st : SessionState) : Phase → Ms
  | .send | .send2 => 0
  | .settle => (settleDelay st).getD 0
  | .wait => (waitTimeout st).getD 0

/-- Go to a position: `st <- st; ph <- ph`, and `timer` loaded with the interval of the phase entered
(R18, R235; log entry 9). -/
def moveTo (st : SessionState) (ph : Phase) (r : Regs) : Regs :=
  { r with st := st, ph := ph, timer := interval st ph }

/-- `0 <= idx <= npages - 1`, what R13 and R188 require of a position in `WritingPages`. -/
def inPages (r : Regs) : Bool := decide (r.idx.toNat < r.npages.toNat)

/-- The legal positions, exactly those R12 lists, with R13's bound on `idx`. -/
def legalPosition (r : Regs) : Bool :=
  match r.st, r.ph with
  | .idle, .send | .done, .send | .failed, .send => true
  | .enteringBootloader, .send | .enteringBootloader, .settle | .enteringBootloader, .wait => true
  | .erasing, .send | .erasing, .wait => true
  | .writingPages, .send | .writingPages, .wait => inPages r
  | .verifying, .send | .verifying, .send2 | .verifying, .wait => true
  | .exitingBootloader, .send | .exitingBootloader, .settle => true
  | _, _ => false

/-- At a legal `Wait` position, the timeout of its handshake (R107). -/
def awaiting (r : Regs) : Option Ms :=
  if r.ph = .wait ∧ legalPosition r = true then waitTimeout r.st else none

/-! ### The channel primitives -/

/-- Note a primitive in the trace (R90). -/
def record (e : Event) (s : State) : State := { s with trace := s.trace ++ [e] }

/-- `ChIsOpen()`: the open flag; no side effect on the channel (R50). -/
def chIsOpen (s : State) : Bool × State := (s.chOpen, record (.isOpen s.chOpen) s)

/-- `ChWrite(bytes)`: one write call with its answer (R48, R52); `none` while the call has not
returned, for which there is no bound (R203, R262; log entry 3). -/
def chWrite (bytes : List Byte) (s : State) : Option (Bool × State) :=
  match s.wrAns with
  | [] => none
  | a :: rest => some (a, record (.write bytes a) { s with wrAns := rest })

/-- The answer the next `ChReadExact(1, T)` gives: a byte, or `none` for `Fail` (R49). A channel with
nothing more to deliver gives `Fail`, the timeout having elapsed (log entry 4). -/
def nextRead (s : State) : Option Byte := s.rdAns.headD none

/-- `ChReadExact(1, T)`: the answer is consumed (R49, R59). -/
def chReadExact (t : Ms) (s : State) : Option Byte × State :=
  (nextRead s, record (.read t (nextRead s)) { s with rdAns := s.rdAns.tail })

/-- `Sleep(ms)`: time passes, no channel operation (R51). -/
def sleepFor (ms : Ms) (s : State) : State := record (.sleep ms) s

/-- Change the registers. -/
def onRegs (f : Regs → Regs) (s : State) : State := { s with toRegs := f s.toRegs }

/-! ### Failing, and starting again -/

/-- `raise Fail(c)` (R220): the failure record is latched and the sequencer enters `Failed`; nothing
else changes. -/
def raiseFail (c : Cause) (r : Regs) : Regs :=
  { r with fstate := r.st, fidx := r.idx, cause := c, st := .failed, ph := .send, timer := 0 }

/-- `n = ceil(len / 128) = (len + 127) div 128`, in arithmetic that does not wrap (R143). -/
def pageCount (len : Word) : PageCount :=
  BitVec.ofNat 26 ((len.toNat + (cfg.pageSize - 1)) / cfg.pageSize)

/-- What an accepted start latches and clears (R181); "a new call starts from `Idle`". It is the only
way out of `Failed` and `Done` short of reset, and erases the failure record (R223). -/
def latchStart (imgLen : Word) (r : Regs) : Regs :=
  { r with
    st := .idle, ph := .send, len := imgLen, npages := pageCount imgLen, idx := 0, csum := 0,
    hs := .none, cause := .none, fstate := .idle, fidx := 0, rxb := 0, timer := 0 }

/-- One frame sent by a command at its position: on `true` the registers change by `onOk`, on `false`
the command raises `Fail(ShortWrite)` and does nothing further (R120, R122, R140, R162, R163, D7).
While the write call has not returned, nothing happens (R262). -/
def sendFrame (bytes : List Byte) (onOk : Regs → Regs) (s : State) : State :=
  match chWrite bytes s with
  | none => s
  | some (true, s1) => onRegs onOk s1
  | some (false, s1) => onRegs (raiseFail .shortWrite) s1

end Sys2Proof.Machine
end

