-- ==== Sys2Proof/Machine/Flags.lean ====
section
/-! DEFINITION. The flag-like state: the classification of a response byte, and what a handshake
writes to `hs` and `rxb` (R20, R23, R100, R101). BLFSM has no arithmetic flags. -/

namespace Sys2Proof.Machine

open Sys2Proof.Config

/-- `Classify(b)`, a total function of the byte alone (R101); it never gives `Timeout`. -/
def classify (b : Byte) : HsResult :=
  if b = cfg.rspAck then .ok else if b = cfg.rspNack then .nack else .malformed

/-- A handshake that obtained byte `b`: `rxb <- b`, `hs <- h` (R100). -/
def latchByte (b : Byte) (h : HsResult) (r : Regs) : Regs := { r with rxb := b, hs := h }

/-- A handshake that obtained no byte: `hs <- Timeout`, `rxb` kept (R100, R105). -/
def latchTimeout (r : Regs) : Regs := { r with hs := .timeout }

end Sys2Proof.Machine
end

