-- ==== Sys2Proof/WellFormed.lean ====
section
/-! DEFINITION. Which operations the spec gives: the operand values each constructor may hold. -/

namespace Sys2Proof

open Sys2Proof.Config

/-- `addr[6:0] = 0`: every page address is `i * 128` (R57, R76). -/
def pageAligned (addr : Word) : Bool := addr.toNat % cfg.pageSize == 0

/-- The payload's 128 bytes (R73); in the last page there can be, at address `0xFFFFFF80`, the byte
that would be image byte `2^32 - 1` is always padding, since `len <= 2^32 - 1` (R5, R77; DEDUCED,
log entry 16). -/
def payloadFits (addr : Word) (payload : List Byte) : Bool :=
  payload.length == cfg.pageSize &&
    (addr != 0xFFFFFF80 || payload.getD (cfg.pageSize - 1) 0 == cfg.padByte)

/-- The four handshake timeouts (R100, R107). -/
def isTimeout (t : Ms) : Bool :=
  t == cfg.tEnter || t == cfg.tErase || t == cfg.tWrite || t == cfg.tVerify

/-- The two settle delays (R51, R236). -/
def isDelay (ms : Ms) : Bool := ms == cfg.dEnter || ms == cfg.dExit

/-- The byte is neither ACK nor NACK (R104). -/
def isForeign (b : Byte) : Bool := b != cfg.rspAck && b != cfg.rspNack

/-- The operand checks of each operation. -/
def Instr.wellFormed : Instr → Bool
  | .enter => true
  | .erase => true
  | .writePage addr payload => pageAligned addr && payloadFits addr payload
  | .verify => true
  | .checksum _ => true
  | .exit => true
  | .ack => true
  | .nack => true
  | .malformed b => isForeign b
  | .awaitAck t => isTimeout t
  | .sleep ms => isDelay ms
  | .upload => true

end Sys2Proof
end

