-- ==== Sys2Proof/Decode.lean ====
section
/-! DEFINITION. The frame codec: the reader of frames, total on any bytes and rejecting by name, and
after it the encoder (spec/30_encoding.md). A frame's direction is not in its bytes, so the reader is
given it: TX frames are told apart by length and first byte (R80), an RX frame is one byte (R75). -/

namespace Sys2Proof

open Sys2Proof.Config

/-- Why bytes are no frame of BLFSM. -/
inductive DecodeError where
  /-- no byte at all: the operations without a frame have no encoding (R78) -/
  | emptyFrame
  /-- a first byte that is none of the five opcodes (R82, U14) -/
  | unknownOpcode (b : Byte)
  /-- a number of bytes that no format of R71 has -/
  | badLength (n : Nat)
  /-- a write-page frame whose address is no page address (R57) -/
  | unalignedPage (addr : Word)
  /-- a write-page frame that would carry image byte `2^32 - 1` (R5) -/
  | beyondImage
deriving DecidableEq, Repr

/-- The two directions of R78. -/
inductive Direction where
  | tx
  | rx
deriving DecidableEq, Repr

/-- `be32(v)`, most significant byte first (R6, R56). -/
def be32 (v : Word) : List Byte :=
  [v.extractLsb' 24 8, v.extractLsb' 16 8, v.extractLsb' 8 8, v.extractLsb' 0 8]

/-- The 32-bit value of four big-endian bytes (R56). -/
def ofBe32 (b3 b2 b1 b0 : Byte) : Word := b3 ++ b2 ++ b1 ++ b0

/-- A one-byte TX frame, format `OP1` (R72, R78). -/
def decodeOpcode (b : Byte) : Except DecodeError Instr :=
  if b = cfg.opEnter then .ok .enter
  else if b = cfg.opErase then .ok .erase
  else if b = cfg.opVerify then .ok .verify
  else if b = cfg.opExit then .ok .exit
  else if b = cfg.opWrite then .error (.badLength 1)
  else .error (.unknownOpcode b)

/-- The fields of a `WP133` frame after its opcode (R73). -/
def decodePage (addr : Word) (payload : List Byte) : Except DecodeError Instr :=
  if payload.length ≠ cfg.pageSize then .error (.badLength (1 + cfg.addrBytes + payload.length))
  else if pageAligned addr = false then .error (.unalignedPage addr)
  else if payloadFits addr payload = false then .error .beyondImage
  else .ok (.writePage addr payload)

/-- A TX frame. Four bytes are a `CS4` frame whatever they are: "every 4-byte value is a legal `CS4`
frame" (R74). -/
def decodeTx : List Byte → Except DecodeError Instr
  | [] => .error .emptyFrame
  | [b] => decodeOpcode b
  | [c3, c2, c1, c0] => .ok (.checksum (ofBe32 c3 c2 c1 c0))
  | b :: a3 :: a2 :: a1 :: a0 :: payload =>
    if b = cfg.opWrite then decodePage (ofBe32 a3 a2 a1 a0) payload
    else .error (.badLength (1 + cfg.addrBytes + payload.length))
  | bs => .error (.badLength bs.length)

/-- An RX byte: ACK and NACK first, then the catch-all row (R81, R101): total, it never rejects. -/
def decodeRx (b : Byte) : Instr :=
  if b = cfg.rspAck then .ack
  else if b = cfg.rspNack then .nack
  else .malformed b

/-- A frame in the given direction. -/
def decode (d : Direction) (bs : List Byte) : Except DecodeError Instr :=
  match d, bs with
  | .tx, _ => decodeTx bs
  | .rx, [b] => .ok (decodeRx b)
  | .rx, [] => .error .emptyFrame
  | .rx, _ => .error (.badLength bs.length)

/-! ### The encoder -/

/-- The direction of an operation's frame; the operations without a frame have none (R78). -/
def Instr.direction : Instr → Option Direction
  | .enter | .erase | .writePage _ _ | .verify | .checksum _ | .exit => some .tx
  | .ack | .nack | .malformed _ => some .rx
  | .awaitAck _ | .sleep _ | .upload => none

/-- The bytes of an operation's frame, first byte sent first (R71 to R75); the operations without a
frame have no bytes. -/
def encode : Instr → List Byte
  | .enter => [cfg.opEnter]
  | .erase => [cfg.opErase]
  | .writePage addr payload => cfg.opWrite :: (be32 addr ++ payload)
  | .verify => [cfg.opVerify]
  | .checksum c => be32 c
  | .exit => [cfg.opExit]
  | .ack => [cfg.rspAck]
  | .nack => [cfg.rspNack]
  | .malformed b => [b]
  | .awaitAck _ => []
  | .sleep _ => []
  | .upload => []

/-- The number of bytes on the wire, column "length" of R78 (0 where there is no frame). -/
def Instr.wireLength : Instr → Nat
  | .enter | .erase | .verify | .exit => 1
  | .writePage _ _ => cfg.wpFrameLen
  | .checksum _ => cfg.csumBytes
  | .ack | .nack | .malformed _ => 1
  | .awaitAck _ | .sleep _ | .upload => 0

/-! ### The table's numbering of bits -/

/-- The `n` bytes of `w`, the first byte in bits 7..0, the second in bits 15..8, and so on. -/
def bytesOf : Nat → Nat → List Byte
  | 0, _ => []
  | n + 1, w => BitVec.ofNat 8 w :: bytesOf n (w / 256)

/-- The bytes followed by zero bytes up to the longest frame. -/
def padFrame (bs : List Byte) : List Byte := bs ++ List.replicate (cfg.wpFrameLen - bs.length) 0

/-- `some i` where the reader answers an operation. -/
def accepted (r : Except DecodeError Instr) : Option Instr :=
  match r with
  | .ok i => some i
  | .error _ => none

/-- One byte in either direction: a command first, then a response (the order of the opcode table's
rows). A lone write-page opcode stands for the frame whose other bytes are zero. -/
def decodeByte (b : Byte) : Instr :=
  if b = cfg.opWrite then .writePage 0 (List.replicate cfg.pageSize 0)
  else
    match decodeOpcode b with
    | .ok i => i
    | .error _ => decodeRx b

/-- The operation the codec reads from the low `nbits` of `w`, bits numbered as
spec/opcode_table.json numbers them, the bits above `nbits` zero (log entry 15). Four bytes are a
checksum frame; one byte is read in both directions; any other number of bytes is filled up with
zero bytes to the length of a write-page frame. No bits: no operation (R78: AWAIT_ACK, SLEEP and
UPLOAD have no encoding). -/
def decodeTableWord (nbits w : Nat) : Option Instr :=
  match (nbits + 7) / 8 with
  | 0 => none
  | 1 => some (decodeByte (BitVec.ofNat 8 (w % 2 ^ nbits)))
  | 4 => accepted (decodeTx (bytesOf 4 (w % 2 ^ nbits)))
  | n => accepted (decodeTx (padFrame (bytesOf n (w % 2 ^ nbits))))

end Sys2Proof
end

