-- ==== Sys2Proof/Machine/Operands.lean ====
section
/-! DEFINITION. Operand assembly: the address, length and payload of a page (R76, R77, R141, R142),
the checksum (R161), and the frame of each sending position (R79). -/

namespace Sys2Proof.Machine

open Sys2Proof.Config

/-- `address = i * 128`, 32 bits, never wraps (R76, R141, R147). -/
def pageAddress (i : PageIdx) : Word := i.setWidth 32 * BitVec.ofNat 32 cfg.pageSize

/-- `length = min(128, len - address)` (R141); 0 where the address lies beyond the image. -/
def pageLength (len : Word) (i : PageIdx) : Nat :=
  min cfg.pageSize (len.toNat - (pageAddress i).toNat)

/-- Pad to the page size with `0xFF` (R77, R142). -/
def padPage (bs : List Byte) : List Byte :=
  bs ++ List.replicate (cfg.pageSize - bs.length) cfg.padByte

/-- `payload = MemRead(IMG, address, length) ++ rep(0xFF, 128 - length)` (R77, R140); `none` where the
image has no byte at the page's address. -/
def pagePayload (m : Memory) (len : Word) (i : PageIdx) : Option (List Byte) :=
  (memRead m len.toNat (pageAddress i).toNat (pageLength len i)).map padPage

/-- `csum <- (csum + zext_32(MemRead(IMG, k, 1))) mod 2^32` for `k = 0 .. n - 1`, from 0 (R161). -/
def checksumOf (m : Memory) : Nat → Word
  | 0 => 0
  | k + 1 => checksumOf m k + (imgByte m k).setWidth 32

/-- A write-page frame: `[0xD0] ++ be32(address) ++ payload` (R73). -/
def pageFrame (address : Word) (payload : List Byte) : List Byte :=
  cfg.opWrite :: (be32 address ++ payload)

end Sys2Proof.Machine
end

