-- ==== Sys2Proof/Machine/Sequencer.lean ====
section
/-! DEFINITION. The control transfer of spec/44_orchestrator.md: where an acknowledged handshake goes
(R184, R186, R189, R194), the arcs of R199 as a table, and the same arcs as functions of the registers
for the signal level. -/

namespace Sys2Proof.Machine

/-- `idx + 1 < npages`, compared in 26 bits (R189). -/
def morePages (r : Regs) : Bool := decide (r.idx.setWidth 26 + 1 < r.npages)

/-- What follows `AwaitAck = Ok`; `sum` is the image's checksum, written on the transition into
`Verifying` (R184, R186, R189, R190, R194). -/
def advance (sum : Word) (r : Regs) : Regs :=
  match r.st with
  | .enteringBootloader => moveTo .erasing .send r
  | .erasing => moveTo .writingPages .send { r with idx := 0 }
  | .writingPages =>
    if morePages r then moveTo .writingPages .send { r with idx := r.idx + 1 }
    else moveTo .verifying .send { r with csum := sum }
  | .verifying => moveTo .exitingBootloader .send r
  | .idle | .exitingBootloader | .done | .failed => r

/-- What follows a write call that answered `ok`, by position (R182, R185, R187, R191, R192, R195);
`(ExitingBootloader, Send)` discards the answer (R124). -/
def afterWrite (ok : Bool) (r : Regs) : Regs :=
  match r.st, r.ph, ok with
  | .exitingBootloader, .send, _ => moveTo .exitingBootloader .settle r
  | .enteringBootloader, .send, true => moveTo .enteringBootloader .settle r
  | .erasing, .send, true => moveTo .erasing .wait r
  | .writingPages, .send, true => moveTo .writingPages .wait r
  | .verifying, .send, true => moveTo .verifying .send2 r
  | .verifying, .send2, true => moveTo .verifying .wait r
  | _, _, true => r
  | _, _, false => raiseFail .shortWrite r

/-- What follows a settle delay (R183, R196). -/
def afterSleep (r : Regs) : Regs :=
  match r.st with
  | .enteringBootloader => moveTo .enteringBootloader .wait r
  | .exitingBootloader => moveTo .done .send r
  | .idle | .erasing | .writingPages | .verifying | .done | .failed => r

/-- `AwaitAck` and what the sequencer does with its result (R100, R108). -/
def afterRead (answer : Option Byte) (sum : Word) (r : Regs) : Regs :=
  match answer with
  | none => raiseFail .timeout (latchTimeout r)
  | some b =>
    match classify b with
    | .ok => advance sum (latchByte b .ok r)
    | .nack => raiseFail .nack (latchByte b .nack r)
    | .none | .timeout | .malformed => raiseFail .malformed (latchByte b .malformed r)

/-! ### The transition table -/

/-- A condition of R199, "evaluated on the result of the action of the source position". -/
inductive ArcCondition where
  | imageEmpty
  | channelClosed
  | channelOpen
  | written (answer : Bool)
  | slept
  | answered (h : HsResult)
  | answeredMorePages
  | answeredLastPage
deriving DecidableEq, Repr

/-- One row of R199, with the cause a row to `Failed` records. -/
structure Arc where
  fromSt : SessionState
  fromPh : Phase
  condition : ArcCondition
  toSt : SessionState
  toPh : Phase
  cause : Cause
deriving DecidableEq, Repr

/-- The three rows of UPLOAD from a quiescent state. -/
def startArcs (st : SessionState) : List Arc :=
  [⟨st, .send, .imageEmpty, .failed, .send, .emptyImage⟩,
   ⟨st, .send, .channelClosed, .failed, .send, .channelClosed⟩,
   ⟨st, .send, .channelOpen, .enteringBootloader, .send, .none⟩]

/-- The two rows of a write call that can fail. -/
def writeArcs (st : SessionState) (ph toPh : Phase) : List Arc :=
  [⟨st, ph, .written true, st, toPh, .none⟩,
   ⟨st, ph, .written false, .failed, .send, .shortWrite⟩]

/-- The three rows of a handshake that did not return `Ok`. -/
def refusedArcs (st : SessionState) : List Arc :=
  [⟨st, .wait, .answered .nack, .failed, .send, .nack⟩,
   ⟨st, .wait, .answered .timeout, .failed, .send, .timeout⟩,
   ⟨st, .wait, .answered .malformed, .failed, .send, .malformed⟩]

/-- Every arc of the state machine (R199). "No other arc exists." -/
def arcs : List Arc :=
  startArcs .idle ++ startArcs .done ++ startArcs .failed
    ++ writeArcs .enteringBootloader .send .settle
    ++ [⟨.enteringBootloader, .settle, .slept, .enteringBootloader, .wait, .none⟩,
        ⟨.enteringBootloader, .wait, .answered .ok, .erasing, .send, .none⟩]
    ++ refusedArcs .enteringBootloader
    ++ writeArcs .erasing .send .wait
    ++ [⟨.erasing, .wait, .answered .ok, .writingPages, .send, .none⟩]
    ++ refusedArcs .erasing
    ++ writeArcs .writingPages .send .wait
    ++ [⟨.writingPages, .wait, .answeredMorePages, .writingPages, .send, .none⟩,
        ⟨.writingPages, .wait, .answeredLastPage, .verifying, .send, .none⟩]
    ++ refusedArcs .writingPages
    ++ writeArcs .verifying .send .send2
    ++ writeArcs .verifying .send2 .wait
    ++ [⟨.verifying, .wait, .answered .ok, .exitingBootloader, .send, .none⟩]
    ++ refusedArcs .verifying
    ++ [⟨.exitingBootloader, .send, .written true, .exitingBootloader, .settle, .none⟩,
        ⟨.exitingBootloader, .send, .written false, .exitingBootloader, .settle, .none⟩,
        ⟨.exitingBootloader, .settle, .slept, .done, .send, .none⟩]

end Sys2Proof.Machine
end

