-- ==== Sys2Proof/Machine/Commands.lean ====
section
/-! DEFINITION. The single-opcode commands ENTER, ERASE and EXIT, and SLEEP (spec files 41 and 20). -/

namespace Sys2Proof.Machine

open Sys2Proof.Config

/-- `ENTER` (R120, R182): send `[0xA5]`; then the settle delay. -/
def execEnter (s : State) : Result :=
  if s.st = .enteringBootloader ∧ s.ph = .send then
    .next (sendFrame [cfg.opEnter] (moveTo .enteringBootloader .settle) s)
  else .refused .outOfSequence

/-- `ERASE` (R122, R185): send `[0xE0]`; then the handshake, with no delay. -/
def execErase (s : State) : Result :=
  if s.st = .erasing ∧ s.ph = .send then
    .next (sendFrame [cfg.opErase] (moveTo .erasing .wait) s)
  else .refused .outOfSequence

/-- Send a frame whose answer is discarded, then change the registers by `onReturn` (R124, D8). -/
def sendUnchecked (bytes : List Byte) (onReturn : Regs → Regs) (s : State) : State :=
  match chWrite bytes s with
  | none => s
  | some (_, s1) => onRegs onReturn s1

/-- `EXIT` (R124, R195): send `[0xF0]`; "the Boolean is discarded" (C4); then the settle delay. -/
def execExit (s : State) : Result :=
  if s.st = .exitingBootloader ∧ s.ph = .send then
    .next (sendUnchecked [cfg.opExit] (moveTo .exitingBootloader .settle) s)
  else .refused .outOfSequence

/-- `SLEEP ms` (R51), the whole interval in one step: after ENTER the handshake follows (R121, R183),
after EXIT the run is `Done` (R125, R196). It cannot fail. -/
def execSleep (ms : Ms) (s : State) : Result :=
  if s.ph = .settle ∧ settleDelay s.st = some ms then
    .next (onRegs afterSleep (sleepFor ms s))
  else .refused .outOfSequence

end Sys2Proof.Machine
end

