-- ==== Sys2Proof/Machine/Orchestrator.lean ====
section
/-! DEFINITION. The start of a run (UPLOAD) and the selection of the next operation by the sequencer
position, which is what this block has in place of instruction fetch (spec/44_orchestrator.md). -/

namespace Sys2Proof.Machine

open Sys2Proof.Config

/-- A start accepted in a quiescent state (R180): latch and clear (R181), then the empty-image test,
then, only for a non-empty image, `ChIsOpen()` (D6, R216). -/
def acceptStart (s : State) : State :=
  let s1 : State := { onRegs (latchStart s.imgLen) s with trace := [] }
  if s1.len = 0 then onRegs (raiseFail .emptyImage) s1
  else
    match chIsOpen s1 with
    | (false, s2) => onRegs (raiseFail .channelClosed) s2
    | (true, s2) => onRegs (moveTo .enteringBootloader .send) s2

/-- `UPLOAD` (R180). While a run is busy a start is ignored (R24, R218). -/
def execUpload (s : State) : Result :=
  if quiescent s.st = false then .next s
  else if s.ph = .send then .next (acceptStart s)
  else .refused .outOfSequence

/-- What the sequencer does next at a position. -/
inductive Selected where
  /-- the one operation of the position (R14, R182 to R196) -/
  | op (i : Instr)
  /-- quiescent and no start: "no action is performed and the position does not change" (R197) -/
  | quiet
  /-- the page to write lies beyond the image (R41) -/
  | beyondImage
  /-- a position R12 and R13 do not list (U10) -/
  | unreachable
deriving DecidableEq, Repr

/-- The selection at a quiescent position: `start` is level-sampled (R24, R266). -/
def selectStart (s : State) : Selected := if s.start then .op .upload else .quiet

/-- The selection at `(WritingPages, Send)`: `WRITE_PAGE idx` with the frame of R79. -/
def selectPage (s : State) : Selected :=
  match pagePayload s.img s.len s.idx with
  | some bytes => .op (.writePage (pageAddress s.idx) bytes)
  | none => .beyondImage

/-- "Exactly one action is performed at each position" (R14). -/
def select (s : State) : Selected :=
  match s.st, s.ph with
  | .idle, .send | .done, .send | .failed, .send => selectStart s
  | .enteringBootloader, .send => .op .enter
  | .enteringBootloader, .settle => .op (.sleep cfg.dEnter)
  | .enteringBootloader, .wait => .op (.awaitAck cfg.tEnter)
  | .erasing, .send => .op .erase
  | .erasing, .wait => .op (.awaitAck cfg.tErase)
  | .writingPages, .send => if inPages s.toRegs then selectPage s else .unreachable
  | .writingPages, .wait => if inPages s.toRegs then .op (.awaitAck cfg.tWrite) else .unreachable
  | .verifying, .send => .op .verify
  | .verifying, .send2 => .op (.checksum s.csum)
  | .verifying, .wait => .op (.awaitAck cfg.tVerify)
  | .exitingBootloader, .send => .op .exit
  | .exitingBootloader, .settle => .op (.sleep cfg.dExit)
  | _, _ => .unreachable

/-! ### The document's contract names (R91) -/

/-- `awaitAck(timeoutMs)`. -/
def opsAwaitAck (t : Ms) : List Instr := [.awaitAck t]

/-- `writePage(index, channel)`: WRITE_PAGE and its handshake; no operations where the image has no
such page. -/
def opsWritePage (m : Memory) (len : Word) (i : PageIdx) : List Instr :=
  match pagePayload m len i with
  | some bytes => .writePage (pageAddress i) bytes :: opsAwaitAck cfg.tWrite
  | none => []

/-- `verify(image, channel)`. -/
def opsVerify (m : Memory) (len : Word) : List Instr :=
  [.verify, .checksum (checksumOf m len.toNat)] ++ opsAwaitAck cfg.tVerify

/-- The pages `0 .. n - 1` (C3). -/
def opsPages (m : Memory) (len : Word) : Nat → List Instr
  | 0 => []
  | n + 1 => opsPages m len n ++ opsWritePage m len (BitVec.ofNat 25 n)

/-- `uploadFirmware`: the operations of a run in which nothing fails (R91). -/
def opsUploadFirmware (m : Memory) (len : Word) : List Instr :=
  [.upload, .enter, .sleep cfg.dEnter] ++ opsAwaitAck cfg.tEnter
    ++ [.erase] ++ opsAwaitAck cfg.tErase
    ++ opsPages m len (pageCount len).toNat
    ++ opsVerify m len
    ++ [.exit, .sleep cfg.dExit]

/-! ### Placing an operation -/

/-- Answer `true` to the coming write call where the channel has no answer ready, so that the call
returns. -/
def readyToWrite (s : State) : State := { s with wrAns := if s.wrAns = [] then [true] else s.wrAns }

/-- Put the sequencer at a position. -/
def putAt (st : SessionState) (ph : Phase) (s : State) : State := onRegs (moveTo st ph) s

/-- The `Wait` position with the timeout `t` (R107). For the page handshake there must be a page. -/
def putWaiting (t : Ms) (s : State) : State :=
  if t = cfg.tErase then putAt .erasing .wait s
  else if t = cfg.tVerify then putAt .verifying .wait s
  else if t = cfg.tWrite then putAt .writingPages .wait (onRegs (fun r => { r with idx := 0, npages := 1 }) s)
  else putAt .enteringBootloader .wait s

/-- The image length under which page `addr / 128` is the last one and full, or, at the top of the
address space, one byte short (R5). -/
def lengthFor (addr : Word) : Word := BitVec.ofNat 32 (min (addr.toNat + cfg.pageSize) (2 ^ 32 - 1))

/-- The last byte of the topmost page is padding, so it is not stored (R5). -/
def storedPart (addr : Word) (payload : List Byte) : List Byte :=
  payload.take ((lengthFor addr).toNat - addr.toNat)

/-- The state in which the sequencer performs `i` next: the position, and the operand's sources (the
image page and its index for WRITE_PAGE, `csum` for CHECKSUM, the channel's answer for a response,
`start` for UPLOAD). It stands for the run that would lead there (log entry 14). -/
def placeInstr (i : Instr) (s : State) : State :=
  let s : State := { s with rst := false }
  match i with
  | .enter => putAt .enteringBootloader .send (readyToWrite s)
  | .erase => putAt .erasing .send (readyToWrite s)
  | .writePage addr payload =>
    putAt .writingPages .send (readyToWrite
      { s with
        idx := addr.extractLsb' 7 25
        len := lengthFor addr
        npages := pageCount (lengthFor addr)
        img := imgPutAll s.img addr.toNat (storedPart addr payload) })
  | .verify => putAt .verifying .send (readyToWrite s)
  | .checksum c => putAt .verifying .send2 (readyToWrite { s with csum := c })
  | .exit => putAt .exitingBootloader .send (readyToWrite s)
  | .ack => putWaiting cfg.tEnter { s with rdAns := some cfg.rspAck :: s.rdAns }
  | .nack => putWaiting cfg.tEnter { s with rdAns := some cfg.rspNack :: s.rdAns }
  | .malformed b => putWaiting cfg.tEnter { s with rdAns := some b :: s.rdAns }
  | .awaitAck t => putWaiting t s
  | .sleep _ => putAt .enteringBootloader .settle s
  | .upload => putAt .idle .send { s with start := true }

/-- Place the operation that the codec reads from a table word; a word it refuses changes nothing. -/
def placeWord (s : State) (nbits w : Nat) : State :=
  match decodeTableWord nbits w with
  | some i => placeInstr i s
  | none => s

end Sys2Proof.Machine
end

