-- ==== Sys2Proof/Machine/PageWriter.lean ====
section
/-! DEFINITION. The page writer: WRITE_PAGE (spec/42_page_writer.md). -/

namespace Sys2Proof.Machine

open Sys2Proof.Config

/-- `WRITE_PAGE i` (R140, R187), for `i = idx`: the address, the image bytes and the padding are
assembled, and the 133-byte frame goes out in one write call; then the handshake, with no delay. The
operand is the frame's address and payload: the sequencer sends "exactly the frame" of its position
(R79), so another operand is not performed here. -/
def execWritePage (addr : Word) (payload : List Byte) (s : State) : Result :=
  if s.st = .writingPages ∧ s.ph = .send ∧ inPages s.toRegs = true then
    match pagePayload s.img s.len s.idx with
    | none => .fault .imgAddress
    | some bytes =>
      if addr = pageAddress s.idx ∧ payload = bytes then
        .next (sendFrame (pageFrame (pageAddress s.idx) bytes) (moveTo .writingPages .wait) s)
      else .refused .outOfSequence
  else .refused .outOfSequence

end Sys2Proof.Machine
end

