-- ==== Sys2Proof/Machine/Verifier.lean ====
section
/-! DEFINITION. The checksum verifier: VERIFY and CHECKSUM (spec/43_checksum_verifier.md). The sum
itself (R161) is `checksumOf`; it is written on the transition into `Verifying` (R190). -/

namespace Sys2Proof.Machine

open Sys2Proof.Config

/-- `VERIFY` (R162, R191): send `[0xC0]`; the checksum frame follows with no handshake (R193). -/
def execVerify (s : State) : Result :=
  if s.st = .verifying ∧ s.ph = .send then
    .next (sendFrame [cfg.opVerify] (moveTo .verifying .send2) s)
  else .refused .outOfSequence

/-- `CHECKSUM c` (R163, R192), for `c = csum`: send `be32(csum)` as its own write call; then the
handshake, with no delay. Another operand is not performed here (R79). -/
def execChecksum (c : Word) (s : State) : Result :=
  if s.st = .verifying ∧ s.ph = .send2 ∧ c = s.csum then
    .next (sendFrame (be32 s.csum) (moveTo .verifying .wait) s)
  else .refused .outOfSequence

end Sys2Proof.Machine
end

