-- ==== Sys2Proof/Machine/Waiter.lean ====
section
/-! DEFINITION. The handshake waiter: AWAIT_ACK, and the three responses it can be handed
(spec/40_handshake_waiter.md). -/

namespace Sys2Proof.Machine

open Sys2Proof.Config

/-- One response byte `b` is received at a `Wait` position: the read is consumed and noted, `rxb` and
`hs` are latched, then the registers change by `onResult` (R100, R108). A byte the channel does not
hand over now is not received. -/
def receive (b : Byte) (h : HsResult) (onResult : Regs → Regs) (s : State) : Result :=
  match awaiting s.toRegs with
  | none => .refused .outOfSequence
  | some t =>
    if nextRead s = some b then
      .next (onRegs (fun r => onResult (latchByte b h r)) (chReadExact t s).2)
    else .refused .outOfSequence

/-- `ACK` (R102): `hs <- Ok` and the sequencer advances; "the only response that lets the sequencer
advance". On the last page the checksum is written (R190). -/
def execAck (s : State) : Result :=
  receive cfg.rspAck .ok (advance (checksumOf s.img s.len.toNat)) s

/-- `NACK` (R103): `hs <- Nack`, and the sequencer fails with cause `Nack`. -/
def execNack (s : State) : Result :=
  receive cfg.rspNack .nack (raiseFail .nack) s

/-- `MALFORMED b` (R104): `hs <- Malformed`, and the sequencer fails with cause `Malformed`; for the
254 bytes that are neither ACK nor NACK. -/
def execMalformed (b : Byte) (s : State) : Result :=
  if classify b = .malformed then receive b .malformed (raiseFail .malformed) s
  else .refused .outOfSequence

/-- `AWAIT_ACK T` (R100): one timed read. `Fail` is `Timeout` (R105), the sequencer fails and `rxb`
is kept; a byte is classified, whatever it is (R106), and performs the response it is. -/
def execAwaitAck (t : Ms) (s : State) : Result :=
  if awaiting s.toRegs = some t then
    match nextRead s with
    | none => .next (onRegs (fun r => raiseFail .timeout (latchTimeout r)) (chReadExact t s).2)
    | some b =>
      match classify b with
      | .ok => execAck s
      | .nack => execNack s
      | .none | .timeout | .malformed => execMalformed b s
  else .refused .outOfSequence

end Sys2Proof.Machine
end

