-- ==== Sys2Proof/Machine/Dispatch.lean ====
section
/-! DEFINITION. The meaning of every operation: one arm per constructor of Instr (R78). -/

namespace Sys2Proof.Machine

def exec (i : Instr) (s : State) : Host.Outcome State Fault Refusal :=
  match i with
  | .enter => Sys2Proof.Machine.execEnter s
  | .erase => Sys2Proof.Machine.execErase s
  | .writePage addr payload => Sys2Proof.Machine.execWritePage addr payload s
  | .verify => Sys2Proof.Machine.execVerify s
  | .checksum c => Sys2Proof.Machine.execChecksum c s
  | .exit => Sys2Proof.Machine.execExit s
  | .ack => Sys2Proof.Machine.execAck s
  | .nack => Sys2Proof.Machine.execNack s
  | .malformed b => Sys2Proof.Machine.execMalformed b s
  | .awaitAck t => Sys2Proof.Machine.execAwaitAck t s
  | .sleep ms => Sys2Proof.Machine.execSleep ms s
  | .upload => Sys2Proof.Machine.execUpload s

end Sys2Proof.Machine
end

