-- ==== Sys2Proof/Machine/Step.lean ====
section
/-! DEFINITION. One step of the transaction level (R8, section 2 of spec/44_orchestrator.md): the
operation the position selects, or reset. -/

namespace Sys2Proof.Machine

/-- `rst`: every register takes its reset value and the run is abandoned, with no frame and no
`Failed` (R250, R252); what the surroundings hold stays. -/
def resetRegisters (s : State) : State := { s with toRegs := Regs.reset, trace := [] }

/-- "A step of the model ... performs at most one channel primitive or one sleep." `rst` has priority
over `start` and over every step (R250). -/
def step (s : State) : Host.Outcome State Fault Refusal :=
  if s.rst then .next (resetRegisters s)
  else
    match select s with
    | .op i => exec i s
    | .quiet => .next s
    | .beyondImage => .fault .imgAddress
    | .unreachable => .refused .unreachablePosition

/-- The operation of a table word placed where the very next step performs it (log entry 14). -/
def State.withFetchWord (s : State) (nbits w : Nat) : State := placeWord s nbits w

end Sys2Proof.Machine
end

