-- ==== Sys2Proof/Machine/Status.lean ====
section
/-! DEFINITION. The host's view: the numeric codes (R11, R12, R20, R21; D5), the status outputs (R25,
R26) and what the surroundings may do between two steps (R29, R36, R261). -/

namespace Sys2Proof.Machine

/-- The code of a sequencer state (R11). -/
def SessionState.code : SessionState → BitVec 3
  | .idle => 0
  | .enteringBootloader => 1
  | .erasing => 2
  | .writingPages => 3
  | .verifying => 4
  | .exitingBootloader => 5
  | .done => 6
  | .failed => 7

/-- The code of a phase (R12). -/
def Phase.code : Phase → BitVec 2
  | .send => 0
  | .send2 => 1
  | .settle => 2
  | .wait => 3

/-- The code of a handshake result (R20). -/
def HsResult.code : HsResult → BitVec 3
  | .none => 0
  | .ok => 1
  | .nack => 2
  | .timeout => 3
  | .malformed => 4

/-- The code of a failure cause (R21, R210). -/
def Cause.code : Cause → BitVec 3
  | .none => 0
  | .emptyImage => 1
  | .channelClosed => 2
  | .shortWrite => 3
  | .timeout => 4
  | .nack => 5
  | .malformed => 6

/-- The state a code names; "all eight codes of the 3-bit field are used" (R11). -/
def SessionState.ofCode (c : BitVec 3) : SessionState :=
  if c = 0 then .idle
  else if c = 1 then .enteringBootloader
  else if c = 2 then .erasing
  else if c = 3 then .writingPages
  else if c = 4 then .verifying
  else if c = 5 then .exitingBootloader
  else if c = 6 then .done
  else .failed

/-- The phase a code names (R12). -/
def Phase.ofCode (c : BitVec 2) : Phase :=
  if c = 0 then .send else if c = 1 then .send2 else if c = 2 then .settle else .wait

/-- The handshake result a code names; codes 5 to 7 name none: "a decoder of the status ports that
meets one reports an error, not a guess" (U10). -/
def HsResult.ofCode (c : BitVec 3) : Option HsResult :=
  if c = 0 then some .none
  else if c = 1 then some .ok
  else if c = 2 then some .nack
  else if c = 3 then some .timeout
  else if c = 4 then some .malformed
  else Option.none

/-- The cause a code names; code 7 names none (U10). -/
def Cause.ofCode (c : BitVec 3) : Option Cause :=
  if c = 0 then some .none
  else if c = 1 then some .emptyImage
  else if c = 2 then some .channelClosed
  else if c = 3 then some .shortWrite
  else if c = 4 then some .timeout
  else if c = 5 then some .nack
  else if c = 6 then some .malformed
  else Option.none

/-- The status outputs of R25 and R26. -/
structure Status where
  busy : Bool
  done : Bool
  ok : Bool
  st_o : BitVec 3
  ph_o : BitVec 2
  idx_o : BitVec 25
  hs_o : BitVec 3
  cause_o : BitVec 3
  fstate_o : BitVec 3
  fidx_o : BitVec 25
  rxb_o : BitVec 8
  csum_o : BitVec 32
deriving DecidableEq, Repr

/-- `busy` iff a busy state, `done` iff `Done` or `Failed`, `ok` iff `Done` (R25); the rest are "plain
copies of the registers, read-only, with no read side effect" (R26). -/
def status (r : Regs) : Status where
  busy := !quiescent r.st
  done := r.st == .done || r.st == .failed
  ok := r.st == .done
  st_o := r.st.code
  ph_o := r.ph.code
  idx_o := r.idx
  hs_o := r.hs.code
  cause_o := r.cause.code
  fstate_o := r.fstate.code
  fidx_o := r.fidx
  rxb_o := r.rxb
  csum_o := r.csum

/-- Between two steps the surroundings set what they hold, and nothing else: no register is writable
by the host (R29; log entry 5). The image and `img_len` are "fixed for a run" (R36, R44, R62, R261): another
one in a busy state is refused (D20, U12; log entry 28). -/
def drive (e : Env) (s : State) : Result :=
  if quiescent s.st = false ∧ ¬ (e.img = s.img ∧ e.imgLen = s.imgLen) then .refused .imageChanged
  else .next { s with toEnv := e }

/-- The last line of a trace, `= Done` or `= Failed(cause)` (R9, R90); `none` before any run and
while one is going on. -/
inductive Verdict where
  | done
  | failed (c : Cause)
deriving DecidableEq, Repr

/-- The verdict a state shows. -/
def verdict (r : Regs) : Option Verdict :=
  match r.st with
  | .done => some .done
  | .failed => some (.failed r.cause)
  | .idle | .enteringBootloader | .erasing | .writingPages | .verifying | .exitingBootloader => none

end Sys2Proof.Machine
end

