-- ==== Sys2Proof/Machine/Procedure.lean ====
section
/-! DEFINITION. The whole run as one procedure, R198 written out as it stands: a function of the image
and of the oracle's answers, with no registers. Statements tie it to `step`; no step calls it. -/

namespace Sys2Proof.Machine

open Sys2Proof.Config

/-- What a run gives: its trace, and its verdict; `none` where a write call never returns (R262). -/
structure Report where
  trace : List Event
  verdict : Option Verdict
deriving DecidableEq, Repr

/-- Put a primitive in front of what follows. -/
def Report.after (e : Event) (p : Report) : Report := { p with trace := e :: p.trace }

/-- `if not ChWrite(bytes): return Failed(ShortWrite)`, then the rest. -/
def doWrite (bytes : List Byte) (wr : List Bool) (rest : List Bool → Report) : Report :=
  match wr with
  | [] => { trace := [], verdict := none }
  | true :: wr' => (rest wr').after (.write bytes true)
  | false :: _ => { trace := [.write bytes false], verdict := some (.failed .shortWrite) }

/-- `r = AwaitAck(T); if r != Ok: return Failed(r)`, then the rest. -/
def doAwait (t : Ms) (rd : List (Option Byte)) (rest : List (Option Byte) → Report) : Report :=
  match rd.headD none with
  | none => { trace := [.read t none], verdict := some (.failed .timeout) }
  | some b =>
    if b = cfg.rspAck then (rest rd.tail).after (.read t (some b))
    else if b = cfg.rspNack then { trace := [.read t (some b)], verdict := some (.failed .nack) }
    else { trace := [.read t (some b)], verdict := some (.failed .malformed) }

/-- The frame of page `i`: `[0xD0] ++ be32(a) ++ image[a .. a+k-1] ++ rep(0xFF, 128 - k)`, with `a = i *
128` and `k = min(128, L - a)`. -/
def procFrame (m : Memory) (len : Word) (i : Nat) : List Byte :=
  let a := i * cfg.pageSize
  let k := min cfg.pageSize (len.toNat - a)
  cfg.opWrite :: (be32 (BitVec.ofNat 32 a) ++ imgBytes m a k ++ List.replicate (cfg.pageSize - k) cfg.padByte)

/-- `for i = ... `: `k` pages from page `i` on, then the rest. -/
def procPages (m : Memory) (len : Word) :
    Nat → Nat → List Bool → List (Option Byte) → (List Bool → List (Option Byte) → Report) → Report
  | 0, _, wr, rd, rest => rest wr rd
  | k + 1, i, wr, rd, rest =>
    doWrite (procFrame m len i) wr fun wr =>
      doAwait cfg.tWrite rd fun rd => procPages m len k (i + 1) wr rd rest

/-- `ChWrite([0xF0])`, "result ignored", `Sleep(100)`, `return Done`. -/
def procExit (wr : List Bool) : Report :=
  match wr with
  | [] => { trace := [], verdict := none }
  | a :: _ => { trace := [.write [cfg.opExit] a, .sleep cfg.dExit], verdict := some .done }

/-- From the VERIFY frame to the end. -/
def procVerify (m : Memory) (len : Word) (wr : List Bool) (rd : List (Option Byte)) : Report :=
  doWrite [cfg.opVerify] wr fun wr =>
    doWrite (be32 (checksumOf m len.toNat)) wr fun wr =>
      doAwait cfg.tVerify rd fun _ => procExit wr

/-- From ENTER to the end. -/
def procBody (m : Memory) (len : Word) (wr : List Bool) (rd : List (Option Byte)) : Report :=
  doWrite [cfg.opEnter] wr fun wr =>
    Report.after (.sleep cfg.dEnter) <|
      doAwait cfg.tEnter rd fun rd =>
        doWrite [cfg.opErase] wr fun wr =>
          doAwait cfg.tErase rd fun rd =>
            procPages m len ((len.toNat + (cfg.pageSize - 1)) / cfg.pageSize) 0 wr rd (procVerify m len)

/-- `uploadFirmware(image, channel)` (R198). -/
def uploadFirmware (m : Memory) (len : Word) (chOpen : Bool) (wr : List Bool) (rd : List (Option Byte)) :
    Report :=
  if len = 0 then { trace := [], verdict := some (.failed .emptyImage) }
  else if chOpen = false then { trace := [.isOpen false], verdict := some (.failed .channelClosed) }
  else (procBody m len wr rd).after (.isOpen true)

end Sys2Proof.Machine
end

