-- ==== Sys2Proof/Machine/Signal.lean ====
section
/-! DEFINITION. The signal level (D1, D3): ports, clock, millisecond tick. `cycle` is one rising edge of
`clk`, `outputs` the ports' values in a cycle. It refines `step`: no rule's outcome depends on it. -/

namespace Sys2Proof.Machine

open Sys2Proof.Config

/-- The input ports of R30, as sampled in one cycle. -/
structure SigIn where
  rst : Bool
  tick_1ms : Bool
  start : Bool
  img_len : Word
  img_ack : Bool
  img_data : Byte
  ch_open : Bool
  tx_ready : Bool
  wr_done : Bool
  wr_ok : Bool
  rx_valid : Bool
  rx_data : Byte
  rx_err : Bool
deriving DecidableEq, Repr

/-- The output ports of R30 other than the status outputs. `img_addr` and `tx_data` are `none` in cycles
of a run, or after it, for which the spec gives them no value (log entry 20). -/
structure SigOut where
  img_addr : Option Word
  img_req : Bool
  tx_valid : Bool
  tx_data : Option Byte
  tx_last : Bool
  rx_ready : Bool
deriving DecidableEq, Repr

/-- The registers of the signal level: the architectural ones, and what the image reads, one write call
and the early checksum need (log entries 18 and 30). -/
structure SigState extends Regs where
  /-- the payload bytes of the page read from IMG so far (R45, R146) -/
  buf : List Byte
  /-- an image byte was taken in the cycle before and more are to come: `img_req` is dropped (R45) -/
  reqDropped : Bool
  /-- "the byte counter that walks" the frame: bytes of the call taken so far (R146, R53) -/
  txPos : BitVec 8
  /-- the sum of the image bytes read so far in this run, "while streaming pages" (R161, D15) -/
  acc : Word
deriving DecidableEq, Repr

/-- All registers at their reset values (R35, R250). -/
def SigState.reset : SigState where
  toRegs := Regs.reset
  buf := []
  reqDropped := false
  txPos := 0
  acc := 0

/-- The payload bytes of the page have been read (R45: single-byte reads at ascending addresses). -/
def pageBuffered (σ : SigState) : Bool := decide (pageLength σ.len σ.idx ≤ σ.buf.length)

/-- The frame of the running write call (R79); `none` where nothing is to be sent, and while a page's
payload is still being read (R146: "assembled whole and handed to one write call"). -/
def sigFrame (σ : SigState) : Option (List Byte) :=
  match σ.st, σ.ph with
  | .enteringBootloader, .send => some [cfg.opEnter]
  | .erasing, .send => some [cfg.opErase]
  | .writingPages, .send =>
    if pageBuffered σ then some (pageFrame (pageAddress σ.idx) (padPage σ.buf)) else none
  | .verifying, .send => some [cfg.opVerify]
  | .verifying, .send2 => some (be32 σ.csum)
  | .exitingBootloader, .send => some [cfg.opExit]
  | _, _ => none

/-- A byte of the frame is offered: not yet all taken (R53). -/
def offering (σ : SigState) : Bool :=
  match sigFrame σ with
  | some f => decide (σ.txPos.toNat < f.length)
  | none => false

/-- The payload of the page is being read: `(WritingPages, Send)`, bytes still missing (R45). -/
def readingPage (σ : SigState) : Bool := σ.st == .writingPages && σ.ph == .send && !pageBuffered σ

/-- An image byte is requested. The request for a byte is held until it is taken, and dropped before
that for the next (R45). -/
def requesting (σ : SigState) : Bool := readingPage σ && !σ.reqDropped

/-- The outputs of a cycle (R45, R53, R54). After reset, which is in `Idle`, `tx_data` and `img_addr` are
0 (R35, R250). `tx_last` accompanies the last byte alone (log entry 20). -/
def outputs (σ : SigState) : SigOut where
  img_req := requesting σ
  img_addr :=
    if requesting σ then some (pageAddress σ.idx + BitVec.ofNat 32 σ.buf.length)
    else if σ.st = .idle then some 0
    else none
  tx_valid := offering σ
  tx_data :=
    if offering σ then ((sigFrame σ).getD [])[σ.txPos.toNat]?
    else if σ.st = .idle then some 0
    else none
  tx_last := offering σ && decide (σ.txPos.toNat + 1 = ((sigFrame σ).getD []).length)
  rx_ready := σ.ph == .wait && legalPosition σ.toRegs

/-- The status outputs (R25, R26). -/
def sigStatus (σ : SigState) : Status := status σ.toRegs

/-- A cycle in a quiescent state: an accepted start tests `img_len`, then `ch_open` (R24, R180, R181). -/
def startCycle (i : SigIn) (σ : SigState) : SigState :=
  if i.start then
    let r := latchStart i.img_len σ.toRegs
    let r' :=
      if r.len = 0 then raiseFail .emptyImage r
      else if i.ch_open then moveTo .enteringBootloader .send r
      else raiseFail .channelClosed r
    { toRegs := r', buf := [], reqDropped := false, txPos := 0, acc := 0 }
  else σ

/-- A byte of the page is taken, in the cycle of `img_ack`; if another is to come, `img_req` is dropped
before it is requested (R45). -/
def takeImageByte (b : Byte) (σ : SigState) : SigState :=
  { σ with
    buf := σ.buf ++ [b]
    reqDropped := decide (σ.buf.length + 1 < pageLength σ.len σ.idx)
    acc := σ.acc + b.setWidth 32 }

/-- A cycle in which a page is being read: the one in which `img_req` is dropped (log entry 30), or one
of a request, which stands until `img_ack` (R45). -/
def imageCycle (i : SigIn) (σ : SigState) : SigState :=
  if σ.reqDropped then { σ with reqDropped := false }
  else if i.img_ack then takeImageByte i.img_data σ
  else σ

/-- The bytes of the call taken by the end of the cycle: one more if one is offered and `tx_ready`
(R53). -/
def takenAfter (i : SigIn) (σ : SigState) : BitVec 8 :=
  if offering σ && i.tx_ready then σ.txPos + 1 else σ.txPos

/-- A cycle of a write call for the frame `f`: `wr_done` ends the call, `true` iff all bytes were taken
and `wr_ok` (R53; log entry 19). -/
def writeCycle (f : List Byte) (i : SigIn) (σ : SigState) : SigState :=
  if i.wr_done then
    { σ with
      toRegs := afterWrite (decide ((takenAfter i σ).toNat = f.length) && i.wr_ok) σ.toRegs
      buf := []
      txPos := 0 }
  else { σ with txPos := takenAfter i σ }

/-- A cycle of a `Send` or `Send2` phase. -/
def sendCycle (i : SigIn) (σ : SigState) : SigState :=
  match sigFrame σ with
  | none => imageCycle i σ
  | some f => writeCycle f i σ

/-- One millisecond tick of a running interval that does not end it (R235). -/
def countDown (σ : SigState) : SigState :=
  if 1 < σ.timer.toNat then { σ with timer := σ.timer - 1 } else σ

/-- A cycle of a `Settle` phase: the `N`-th tick ends it (R235). -/
def settleCycle (i : SigIn) (σ : SigState) : SigState :=
  if i.tick_1ms then
    if σ.timer = 1 then { σ with toRegs := afterSleep σ.toRegs } else countDown σ
  else σ

/-- The handshake ends with an answer. -/
def endWait (answer : Option Byte) (σ : SigState) : SigState :=
  { σ with toRegs := afterRead answer σ.acc σ.toRegs }

/-- A cycle of a `Wait` phase: byte, then transport error, then the last tick, then any tick (R54,
R217). -/
def waitCycle (i : SigIn) (σ : SigState) : SigState :=
  if i.rx_valid then endWait (some i.rx_data) σ
  else if i.rx_err then endWait none σ
  else if i.tick_1ms then
    if σ.timer = 1 then endWait none σ else countDown σ
  else σ

/-- One clock cycle. `rst` wins over everything (R250); a position R12 does not list is refused
(U10). -/
def cycle (i : SigIn) (σ : SigState) : Host.Outcome SigState Fault Refusal :=
  if i.rst then .next SigState.reset
  else if legalPosition σ.toRegs = false then .refused .unreachablePosition
  else if quiescent σ.st then .next (startCycle i σ)
  else
    match σ.ph with
    | .send | .send2 => .next (sendCycle i σ)
    | .settle => .next (settleCycle i σ)
    | .wait => .next (waitCycle i σ)

/-- A run of cycles under given inputs, up to the first refusal. -/
def cycles : List SigIn → SigState → Host.Outcome SigState Fault Refusal
  | [], σ => .next σ
  | i :: rest, σ =>
    match cycle i σ with
    | .next σ' => cycles rest σ'
    | .fault f => .fault f
    | .refused r => .refused r

end Sys2Proof.Machine
end

