-- ==== Sys2Proof/Safety.lean ====
section
/-! DEFINITION. What counts as a safe run, in the terms the claims use: the invariants of the registers,
of the checksum and of the trace, what is counted in a trace, and when the two levels agree. -/

namespace Sys2Proof.Machine

open Sys2Proof.Config

/-! ### The registers -/

/-- What every reachable state's registers satisfy. -/
structure RegInv (r : Regs) : Prop where
  /-- the position is one R12 lists, with R13's bound on `idx` -/
  position : legalPosition r = true
  /-- `timer` holds the interval of the position, and 0 whenever no interval is running (R235) -/
  clock : r.timer = interval r.st r.ph
  /-- `npages = ceil(len / 128)` (R16) -/
  pages : r.npages = pageCount r.len
  /-- a run goes on, or succeeded, only with a non-empty image (R180) -/
  nonempty : (quiescent r.st = false ∨ r.st = .done) → r.len ≠ 0
  /-- only a reset machine is `Idle` (R181, R197) -/
  idleIsReset : r.st = .idle → r = Regs.reset
  /-- `idx` is 0 until the first page (R181) -/
  beforePages : (r.st = .enteringBootloader ∨ r.st = .erasing) → r.idx = 0
  /-- "After `Done`, `idx = npages - 1`": it keeps its last value (R13) -/
  afterPages : (r.st = .verifying ∨ r.st = .exitingBootloader ∨ r.st = .done) →
    r.idx.toNat + 1 = r.npages.toNat
  /-- `csum` holds 0 between a start and the entry to `Verifying` (R17) -/
  noSumYet : (r.st = .enteringBootloader ∨ r.st = .erasing ∨ r.st = .writingPages) → r.csum = 0
  /-- no failure record but in `Failed` (R21, R22, R181) -/
  noRecord : r.st ≠ .failed → r.cause = .none ∧ r.fstate = .idle ∧ r.fidx = 0
  /-- in `Failed` a cause is recorded, with the page index (R210, R220) -/
  record : r.st = .failed → r.cause ≠ .none ∧ r.fidx = r.idx
  /-- `Failed` is entered from `Idle` and every busy state but `ExitingBootloader` (R200) -/
  recordState : r.st = .failed →
    r.fstate ≠ .exitingBootloader ∧ r.fstate ≠ .done ∧ r.fstate ≠ .failed
  /-- the start-time causes, and only they, record `Idle` (R22, R210) -/
  startCauses : r.st = .failed →
    (r.fstate = .idle ↔ (r.cause = .emptyImage ∨ r.cause = .channelClosed))
  /-- no handshake has finished before the first one's result (R20) -/
  noHandshakeYet : r.st = .enteringBootloader → r.hs = .none
  /-- past the first handshake, and not failed, the last handshake returned `Ok` (R221) -/
  handshakeOk : (r.st = .erasing ∨ r.st = .writingPages ∨ r.st = .verifying ∨
    r.st = .exitingBootloader ∨ r.st = .done) → r.hs = .ok
  /-- the handshake result and the cause agree (R210) -/
  handshakeCause : r.st = .failed →
    (r.hs = .timeout ↔ r.cause = .timeout) ∧ (r.hs = .nack ↔ r.cause = .nack) ∧
      (r.hs = .malformed ↔ r.cause = .malformed)
  /-- `rxb` is the byte that made the handshake's result (R19, R100) -/
  lastByte : (r.hs = .none → r.rxb = 0) ∧ (r.hs = .ok → r.rxb = cfg.rspAck) ∧
    (r.hs = .nack → r.rxb = cfg.rspNack) ∧ (r.hs = .malformed → isForeign r.rxb = true)

/-- At `(Verifying, Send)` and after, `csum` is the checksum of the image (R190); before that it is 0. -/
structure SumInv (s : State) : Prop where
  verified : (s.st = .verifying ∨ s.st = .exitingBootloader ∨ s.st = .done) →
    s.csum = checksumOf s.img s.len.toNat
  failed : s.st = .failed →
    s.csum = if s.fstate = .verifying then checksumOf s.img s.len.toNat else 0

/-! ### The trace -/

/-- A handshake that was acknowledged. -/
def acked (t : Ms) : Event := .read t (some cfg.rspAck)

/-- The first `n` pages, each written once and acknowledged (R145, R188). -/
def pagesTrace (m : Memory) (len : Word) : Nat → List Event
  | 0 => []
  | n + 1 => pagesTrace m len n ++ [.write (procFrame m len n) true, acked cfg.tWrite]

/-- The trace up to the erase handshake's `Ok`. -/
def erasedTrace : List Event :=
  [.isOpen true, .write [cfg.opEnter] true, .sleep cfg.dEnter, acked cfg.tEnter,
    .write [cfg.opErase] true, acked cfg.tErase]

/-- The trace up to the verify handshake's `Ok`, for `n` pages. -/
def verifiedTrace (m : Memory) (len : Word) (n : Nat) : List Event :=
  erasedTrace ++ pagesTrace m len n ++
    [.write [cfg.opVerify] true, .write (be32 (checksumOf m len.toNat)) true, acked cfg.tVerify]

/-- The trace of a successful run, whose EXIT write answered `a` (R198). -/
def doneTrace (m : Memory) (len : Word) (n : Nat) (a : Bool) : List Event :=
  verifiedTrace m len n ++ [.write [cfg.opExit] a, .sleep cfg.dExit]

/-- The trace with which a position is reached: every earlier write accepted, every earlier handshake
acknowledged (R221). `n` is the page count, `i` the page index. `(ExitingBootloader, Settle)`, reached with
either answer, is not among these. -/
def traceAt (m : Memory) (len : Word) (n i : Nat) (st : SessionState) (ph : Phase) : List Event :=
  match st, ph with
  | .enteringBootloader, .send => erasedTrace.take 1
  | .enteringBootloader, .settle => erasedTrace.take 2
  | .enteringBootloader, .wait => erasedTrace.take 3
  | .erasing, .send => erasedTrace.take 4
  | .erasing, .wait => erasedTrace.take 5
  | .writingPages, .send => erasedTrace ++ pagesTrace m len i
  | .writingPages, .wait => erasedTrace ++ pagesTrace m len i ++ [.write (procFrame m len i) true]
  | .verifying, .send => erasedTrace ++ pagesTrace m len n
  | .verifying, .send2 => erasedTrace ++ pagesTrace m len n ++ [.write [cfg.opVerify] true]
  | .verifying, .wait =>
    erasedTrace ++ pagesTrace m len n ++
      [.write [cfg.opVerify] true, .write (be32 (checksumOf m len.toNat)) true]
  | .exitingBootloader, .send => verifiedTrace m len n
  | _, _ => []

/-- The frame a position sends, and only these positions send (R79). -/
def frameAt (s : State) : Option (List Byte) :=
  match s.st, s.ph with
  | .enteringBootloader, .send => some [cfg.opEnter]
  | .erasing, .send => some [cfg.opErase]
  | .writingPages, .send => some (procFrame s.img s.len s.idx.toNat)
  | .verifying, .send => some [cfg.opVerify]
  | .verifying, .send2 => some (be32 s.csum)
  | .exitingBootloader, .send => some [cfg.opExit]
  | _, _ => none

/-- The primitive with which a run failed at phase `ph` of the recorded state (R210). -/
def failingEvent (s : State) (ph : Phase) : Event → Prop
  | .write bytes a =>
    s.cause = .shortWrite ∧ a = false ∧
      frameAt { s with st := s.fstate, ph := ph, idx := s.fidx } = some bytes
  | .read t answer =>
    ph = .wait ∧ waitTimeout s.fstate = some t ∧
      ((s.cause = .timeout ∧ answer = none) ∨ (s.cause = .nack ∧ answer = some cfg.rspNack) ∨
        (s.cause = .malformed ∧ isForeign s.rxb = true ∧ answer = some s.rxb))
  | .isOpen _ => False
  | .sleep _ => False

/-- Failures are precise (R221): the run was good up to the failing primitive, and that one is last. -/
def FailedTrace (s : State) : Prop :=
  (s.cause = .emptyImage ∧ s.trace = []) ∨
    (s.cause = .channelClosed ∧ s.trace = [.isOpen false]) ∨
    ∃ ph e, s.trace = traceAt s.img s.len s.npages.toNat s.fidx.toNat s.fstate ph ++ [e] ∧
      failingEvent s ph e

/-- The trace of the run tells the position exactly (R188, R198, R221). -/
def TraceInv (s : State) : Prop :=
  match s.st with
  | .idle => s.trace = []
  | .enteringBootloader | .erasing | .writingPages | .verifying =>
    s.trace = traceAt s.img s.len s.npages.toNat s.idx.toNat s.st s.ph
  | .exitingBootloader =>
    (s.ph = .send ∧ s.trace = verifiedTrace s.img s.len s.npages.toNat) ∨
      (s.ph = .settle ∧
        ∃ a, s.trace = verifiedTrace s.img s.len s.npages.toNat ++ [.write [cfg.opExit] a])
  | .done => ∃ a, s.trace = doneTrace s.img s.len s.npages.toNat a
  | .failed => FailedTrace s

/-- Bytes of write calls that answered `true` (R198). -/
def bytesWritten : List Event → Nat
  | [] => 0
  | .write bytes a :: rest => (if a then bytes.length else 0) + bytesWritten rest
  | .isOpen _ :: rest => bytesWritten rest
  | .sleep _ :: rest => bytesWritten rest
  | .read _ _ :: rest => bytesWritten rest

/-- The most milliseconds a trace's waits and sleeps can have taken: the whole interval of each (R270). -/
def waitingTime : List Event → Nat
  | [] => 0
  | .sleep ms :: rest => ms.toNat + waitingTime rest
  | .read t _ :: rest => t.toNat + waitingTime rest
  | .isOpen _ :: rest => waitingTime rest
  | .write _ _ :: rest => waitingTime rest

/-! ### Executions -/

/-- The states the machine can be in: from reset, by steps, the surroundings setting what they hold at
any time (R29), but for the image and length of a run under way (R36, R62). -/
inductive Reachable : State → Prop where
  | reset : Reachable State.reset
  | step {s t : State} : Reachable s → Machine.step s = .next t → Reachable t
  | drive {s t : State} (e : Env) : Reachable s → Machine.drive e s = .next t → Reachable t

/-- `k` steps, up to the first stop: `Host.Core.run` of this machine (`core_run_eq`). -/
def run : Nat → State → Result
  | 0, s => .next s
  | k + 1, s =>
    match Machine.step s with
    | .next t => run k t
    | .fault f => .fault f
    | .refused r => .refused r

/-- No reset and no new start is asserted. -/
def undisturbed (s : State) : Prop := s.rst = false ∧ s.start = false

/-! ### The transition table -/

/-- When a row's condition holds of a state about to take a step (R199). -/
def ArcCondition.holds (c : ArcCondition) (s : State) : Prop :=
  match c with
  | .imageEmpty => s.start = true ∧ s.imgLen = 0
  | .channelClosed => s.start = true ∧ s.imgLen ≠ 0 ∧ s.chOpen = false
  | .channelOpen => s.start = true ∧ s.imgLen ≠ 0 ∧ s.chOpen = true
  | .written a => s.wrAns.head? = some a
  | .slept => True
  | .answered .ok => (nextRead s).map classify = some .ok
  | .answered .nack => (nextRead s).map classify = some .nack
  | .answered .malformed => (nextRead s).map classify = some .malformed
  | .answered .timeout => nextRead s = none
  | .answered .none => False
  | .answeredMorePages => (nextRead s).map classify = some .ok ∧ s.idx.toNat + 1 < s.npages.toNat
  | .answeredLastPage => (nextRead s).map classify = some .ok ∧ s.idx.toNat + 1 = s.npages.toNat

/-- A step from `s` to `t` takes the row `a`. -/
def Arc.taken (a : Arc) (s t : State) : Prop :=
  a.fromSt = s.st ∧ a.fromPh = s.ph ∧ a.condition.holds s ∧ a.toSt = t.st ∧ a.toPh = t.ph ∧
    a.cause = t.cause

/-! ### The signal level -/

/-- How many image bytes the signal level has read by a position of a run (R161, R45). -/
def bytesRead (σ : SigState) : Nat :=
  match σ.st, σ.ph with
  | .writingPages, .send => (pageAddress σ.idx).toNat + σ.buf.length
  | .writingPages, _ => (pageAddress σ.idx).toNat + pageLength σ.len σ.idx
  | _, _ => 0

/-- A signal-level state `σ` inside or between the primitives of a transaction-level state `s`. -/
structure Agrees (σ : SigState) (s : State) : Prop where
  /-- the registers are the same but for the running timer -/
  regs : σ.toRegs = { s.toRegs with timer := σ.timer }
  /-- the timer has not run out, nor gained -/
  clock : σ.timer.toNat ≤ s.timer.toNat ∧ (s.timer ≠ 0 → σ.timer ≠ 0)
  /-- the payload bytes read are the image's, from the page's address on -/
  buffered : (σ.st = .writingPages ∧ σ.ph = .send ∧ σ.buf.length ≤ pageLength σ.len σ.idx ∧
      σ.buf = imgBytes s.img (pageAddress σ.idx).toNat σ.buf.length) ∨ σ.buf = []
  /-- `img_req` is dropped only between two bytes of a page -/
  dropped : σ.reqDropped = true → readingPage σ = true
  /-- the running sum is that of the image bytes read (before `Verifying`) -/
  summed : (σ.st = .enteringBootloader ∨ σ.st = .erasing ∨ σ.st = .writingPages) →
    σ.acc = checksumOf s.img (bytesRead σ)
  /-- the byte counter is inside the frame being sent, and 0 where none is -/
  counted : match sigFrame σ with
    | some f => σ.txPos.toNat ≤ f.length
    | none => σ.txPos = 0

/-- The image port hands over the bytes of the image of the run, where one is requested (R44, R45). -/
def imagePortRight (i : SigIn) (σ : SigState) (m : Memory) : Prop :=
  ∀ a, (outputs σ).img_req = true → (outputs σ).img_addr = some a → i.img_ack = true →
    i.img_data = imgByte m a.toNat

/-- The answer of the write call that `wr_done` ends in this cycle (R53). -/
def writeAnswer (i : SigIn) (σ : SigState) : Bool :=
  match sigFrame σ with
  | some f => decide ((takenAfter i σ).toNat = f.length) && i.wr_ok
  | none => false

/-- The answer of the read that ends in this cycle (R54). -/
def readAnswer (i : SigIn) : Option Byte := if i.rx_valid then some i.rx_data else none

/-- The transaction-level state with the inputs of this cycle, and the answers the ports give. -/
def withPorts (i : SigIn) (σ : SigState) (s : State) : State :=
  { s with
    rst := i.rst, start := i.start, imgLen := i.img_len, chOpen := i.ch_open,
    wrAns := [writeAnswer i σ], rdAns := [readAnswer i] }

/-- Cycles with `tx_ready` among some. -/
def readyCycles (is : List SigIn) : Nat := (is.filter (·.tx_ready)).length

/-- Ticks among the inputs of some cycles. -/
def ticks (is : List SigIn) : Nat := (is.filter (·.tick_1ms)).length

end Sys2Proof.Machine
end

