-- ==== Sys2Proof/Certificates/Slice0/Obligations.lean ====
section
/-! DEFINITION. The statements for the provers, made from the numbered rules of spec/. Constants stand
as the numbers R4 gives. A statement about `step` says what one step does from any state that meets its
hypotheses, reachable or not. -/

open Sys2Proof Sys2Proof.Machine

/-! ### The codec -/

/-- Reading an encoded operation gives it back, with every operand at every value its encoding admits
(R71 to R75, R78). -/
def Obligations.DecodeEncodeAgree : Prop :=
  ∀ (i : Instr) (d : Direction), i.wellFormed = true → i.direction = some d →
    decode d (encode i) = .ok i

/-- Bytes that the codec accepts are exactly the encoding of what it reads, which is well formed and of
that direction: no two frames mean one operation and no bit is dropped (R78, R80). -/
def Obligations.EncodeDecodeAgree : Prop :=
  ∀ (d : Direction) (bs : List Byte) (i : Instr), decode d bs = .ok i →
    encode i = bs ∧ i.direction = some d ∧ i.wellFormed = true

/-- Words of the opcode table written out from R78's binary column, R73 and R74 (a sanity check of the
reader). -/
def Obligations.TableWordsDecode : Prop :=
  decodeTableWord 8 0b10100101 = some .enter ∧
  decodeTableWord 8 0b11100000 = some .erase ∧
  decodeTableWord 8 0b11000000 = some .verify ∧
  decodeTableWord 8 0b11110000 = some .exit ∧
  decodeTableWord 8 0b01111001 = some .ack ∧
  decodeTableWord 8 0b00011111 = some .nack ∧
  decodeTableWord 8 0b01111000 = some (.malformed 0x78) ∧
  decodeTableWord 32 0xC1200000 = some (.checksum 0x000020C1)

/-- R101: `Classify` is `Ok` at `0x79`, `Nack` at `0x1F` and `Malformed` at each of the other bytes, the
RX reader agrees with it, and no byte within the timeout yields `Timeout`. -/
def Obligations.ResponseClassification : Prop :=
  (∀ b : Byte,
    (classify b = .ok ↔ b = 0x79) ∧ (classify b = .nack ↔ b = 0x1F) ∧
    (classify b = .malformed ↔ (b ≠ 0x79 ∧ b ≠ 0x1F)) ∧
    (decode .rx [b] = .ok .ack ↔ classify b = .ok) ∧
    (decode .rx [b] = .ok .nack ↔ classify b = .nack) ∧
    (decode .rx [b] = .ok (.malformed b) ↔ classify b = .malformed)) ∧
  (∀ (s : State) (t : Ms), awaiting s.toRegs = some t → nextRead s = none →
    ∃ u, exec (.awaitAck t) s = .next u ∧ u.hs = .timeout)

/-- The numeric codes of R11, R12, R20 and R21, every one of them, and their reading back: codes 5 to 7 of
`hs` and code 7 of `cause` name nothing (U10). -/
def Obligations.StatusCodesReadBack : Prop :=
  (∀ x : SessionState, SessionState.ofCode x.code = x) ∧
  (∀ x : Phase, Phase.ofCode x.code = x) ∧
  (∀ (c : BitVec 3) (x : HsResult), HsResult.ofCode c = some x ↔ x.code = c) ∧
  (∀ (c : BitVec 3) (x : Cause), Cause.ofCode c = some x ↔ x.code = c) ∧
  (SessionState.code .idle = 0 ∧ SessionState.code .enteringBootloader = 1 ∧
    SessionState.code .erasing = 2 ∧ SessionState.code .writingPages = 3 ∧
    SessionState.code .verifying = 4 ∧ SessionState.code .exitingBootloader = 5 ∧
    SessionState.code .done = 6 ∧ SessionState.code .failed = 7) ∧
  (Phase.code .send = 0 ∧ Phase.code .send2 = 1 ∧ Phase.code .settle = 2 ∧ Phase.code .wait = 3) ∧
  (HsResult.code .none = 0 ∧ HsResult.code .ok = 1 ∧ HsResult.code .nack = 2 ∧
    HsResult.code .timeout = 3 ∧ HsResult.code .malformed = 4) ∧
  (Cause.code .none = 0 ∧ Cause.code .emptyImage = 1 ∧ Cause.code .channelClosed = 2 ∧
    Cause.code .shortWrite = 3 ∧ Cause.code .timeout = 4 ∧ Cause.code .nack = 5 ∧
    Cause.code .malformed = 6)

/-! ### Operands -/

/-- R76: `addr = idx * 128` without wrap, `addr[31:7] = idx` and `addr[6:0] = 0`, sent as
`be32(addr)` in bytes 1 to 4 of the frame. -/
def Obligations.PageAddressField : Prop :=
  ∀ (i : PageIdx) (payload : List Byte),
    (pageAddress i).toNat = i.toNat * 128 ∧
    (pageAddress i).extractLsb' 7 25 = i ∧ (pageAddress i).extractLsb' 0 7 = 0 ∧
    (pageFrame (pageAddress i) payload).take 5 =
      [0xD0, (pageAddress i).extractLsb' 24 8, (pageAddress i).extractLsb' 16 8,
        (pageAddress i).extractLsb' 8 8, (pageAddress i).extractLsb' 0 8]

/-- R77: with `addr = idx * 128` and `length = min(128, len - addr)`, payload byte `j` is image byte
`addr + j` for `j < length` and `0xFF` for `length <= j < 128`; for every page that exists, and only for
those, there is a payload. -/
def Obligations.PayloadField : Prop :=
  ∀ (m : Memory) (len : Word) (i : PageIdx),
    (len.toNat ≤ i.toNat * 128 → pagePayload m len i = none) ∧
    (i.toNat * 128 < len.toNat →
      ∃ p, pagePayload m len i = some p ∧ p.length = 128 ∧
        ∀ j, j < 128 →
          p[j]? = some (if j < min 128 (len.toNat - i.toNat * 128)
            then imgByte m (i.toNat * 128 + j) else 0xFF))

/-- R143 and R16: `npages = ceil(len / 128)`, computed without wrap; it is at most `2^25`, and at least 1
for a non-empty image. -/
def Obligations.PageCountIsCeiling : Prop :=
  ∀ len : Word,
    (pageCount len).toNat = (len.toNat + 127) / 128 ∧ (pageCount len).toNat ≤ 2 ^ 25 ∧
    (len ≠ 0 → 1 ≤ (pageCount len).toNat) ∧
    (∀ i : PageIdx, i.toNat < (pageCount len).toNat ↔ i.toNat * 128 < len.toNat)

/-- R161, R165: the checksum is the sum of the image's bytes, each zero-extended, mod `2^32`. -/
def Obligations.ChecksumIsTheByteSum : Prop :=
  ∀ (m : Memory) (n : Nat),
    (checksumOf m n).toNat = ((List.range n).map (fun k => (imgByte m k).toNat)).sum % 2 ^ 32

/-! ### The operations: results -/

/-- R182: ENTER sends `[0xA5]`; if it did not raise, `ph <- Settle`. (`timer`, in this and
the next six statements `tm`, is the subject of StepKeepsRegInv.) -/
def Obligations.EnterCompletes : Prop :=
  ∀ (s : State) (rest : List Bool),
    s.st = .enteringBootloader → s.ph = .send → s.wrAns = true :: rest →
    ∃ tm, exec .enter s = .next { s with
      ph := .settle, timer := tm, wrAns := rest, trace := s.trace ++ [.write [0xA5] true] }

/-- R185: ERASE sends `[0xE0]`; if it did not raise, `ph <- Wait`. -/
def Obligations.EraseCompletes : Prop :=
  ∀ (s : State) (rest : List Bool),
    s.st = .erasing → s.ph = .send → s.wrAns = true :: rest →
    ∃ tm, exec .erase s = .next { s with
      ph := .wait, timer := tm, wrAns := rest, trace := s.trace ++ [.write [0xE0] true] }

/-- R187: `WRITE_PAGE idx` sends the frame `[0xD0] ++ be32(idx * 128) ++ image bytes ++ padding`, 133
bytes in one write call; if it did not raise, `ph <- Wait`. -/
def Obligations.WritePageCompletes : Prop :=
  ∀ (s : State) (rest : List Bool),
    s.st = .writingPages → s.ph = .send → s.idx.toNat < s.npages.toNat →
    s.idx.toNat * 128 < s.len.toNat → s.wrAns = true :: rest →
    ∃ payload tm, pagePayload s.img s.len s.idx = some payload ∧
      (0xD0 :: (be32 (pageAddress s.idx) ++ payload)).length = 133 ∧
      exec (.writePage (pageAddress s.idx) payload) s = .next { s with
        ph := .wait, timer := tm, wrAns := rest,
        trace := s.trace ++ [.write (0xD0 :: (be32 (pageAddress s.idx) ++ payload)) true] }

/-- R191: VERIFY sends `[0xC0]`; if it did not raise, `ph <- Send2`. -/
def Obligations.VerifyCompletes : Prop :=
  ∀ (s : State) (rest : List Bool),
    s.st = .verifying → s.ph = .send → s.wrAns = true :: rest →
    ∃ tm, exec .verify s = .next { s with
      ph := .send2, timer := tm, wrAns := rest, trace := s.trace ++ [.write [0xC0] true] }

/-- R192: `CHECKSUM csum` sends the four bytes of `csum`, most significant first; if it did not raise,
`ph <- Wait`. -/
def Obligations.ChecksumCompletes : Prop :=
  ∀ (s : State) (rest : List Bool),
    s.st = .verifying → s.ph = .send2 → s.wrAns = true :: rest →
    ∃ tm, exec (.checksum s.csum) s = .next { s with
      ph := .wait, timer := tm, wrAns := rest,
      trace := s.trace ++ [.write
        [s.csum.extractLsb' 24 8, s.csum.extractLsb' 16 8, s.csum.extractLsb' 8 8,
          s.csum.extractLsb' 0 8] true] }

/-- R195: EXIT sends `[0xF0]` and never raises; then `ph <- Settle`, whatever the write call
returned. -/
def Obligations.ExitCompletesWhateverTheAnswer : Prop :=
  ∀ (s : State) (a : Bool) (rest : List Bool),
    s.st = .exitingBootloader → s.ph = .send → s.wrAns = a :: rest →
    ∃ tm, exec .exit s = .next { s with
      ph := .settle, timer := tm, wrAns := rest, trace := s.trace ++ [.write [0xF0] a] }

/-- R183 and R196: after the settle delay of ENTER `ph <- Wait`, after that of EXIT
`st <- Done; ph <- Send`; the step cannot fail. -/
def Obligations.SleepCompletes : Prop :=
  ∀ s : State, s.ph = .settle →
    (s.st = .enteringBootloader →
      ∃ tm, exec (.sleep 100) s = .next { s with
        ph := .wait, timer := tm, trace := s.trace ++ [.sleep 100] }) ∧
    (s.st = .exitingBootloader →
      ∃ tm, exec (.sleep 100) s = .next { s with
        st := .done, ph := .send, timer := tm, trace := s.trace ++ [.sleep 100] })

/-- R184, R186, R189 (with R190) and R194: an acknowledged handshake writes `rxb` and `hs` and the
sequencer advances, to the next page or the next state; on the last page `csum` becomes the checksum of
the image. (That `timer` is 0 at the next position is the model's choice at this level, log entry 9.) -/
def Obligations.AckAdvances : Prop :=
  ∀ (s : State) (rest : List (Option Byte)), s.ph = .wait → s.rdAns = some 0x79 :: rest →
    (s.st = .enteringBootloader →
      exec .ack s = .next { s with
        st := .erasing, ph := .send, timer := 0, rxb := 0x79, hs := .ok, rdAns := rest,
        trace := s.trace ++ [.read 2000 (some 0x79)] }) ∧
    (s.st = .erasing →
      exec .ack s = .next { s with
        st := .writingPages, ph := .send, idx := 0, timer := 0, rxb := 0x79, hs := .ok,
        rdAns := rest, trace := s.trace ++ [.read 5000 (some 0x79)] }) ∧
    (s.st = .writingPages → s.npages.toNat ≤ 2 ^ 25 → s.idx.toNat + 1 < s.npages.toNat →
      exec .ack s = .next { s with
        ph := .send, idx := s.idx + 1, timer := 0, rxb := 0x79, hs := .ok, rdAns := rest,
        trace := s.trace ++ [.read 1000 (some 0x79)] } ∧
        (s.idx + 1).toNat = s.idx.toNat + 1) ∧
    (s.st = .writingPages → s.idx.toNat + 1 = s.npages.toNat →
      exec .ack s = .next { s with
        st := .verifying, ph := .send, csum := checksumOf s.img s.len.toNat, timer := 0,
        rxb := 0x79, hs := .ok, rdAns := rest,
        trace := s.trace ++ [.read 1000 (some 0x79)] }) ∧
    (s.st = .verifying →
      exec .ack s = .next { s with
        st := .exitingBootloader, ph := .send, timer := 0, rxb := 0x79, hs := .ok, rdAns := rest,
        trace := s.trace ++ [.read 3000 (some 0x79)] })

/-- R103, R104, R108, R220: at a `Wait` position a NACK byte, or a byte that is neither ACK nor NACK,
writes `rxb` and `hs` and fails the run with that cause; the failing state and page are recorded. -/
def Obligations.NackAndMalformedFail : Prop :=
  ∀ (s : State) (t : Ms) (b : Byte) (rest : List (Option Byte)),
    s.ph = .wait → waitTimeout s.st = some t →
    (s.st = .writingPages → s.idx.toNat < s.npages.toNat) → s.rdAns = some b :: rest →
    (b = 0x1F →
      exec .nack s = .next { s with
        st := .failed, ph := .send, timer := 0, rxb := 0x1F, hs := .nack, cause := .nack,
        fstate := s.st, fidx := s.idx, rdAns := rest, trace := s.trace ++ [.read t (some b)] }) ∧
    (b ≠ 0x79 → b ≠ 0x1F →
      exec (.malformed b) s = .next { s with
        st := .failed, ph := .send, timer := 0, rxb := b, hs := .malformed, cause := .malformed,
        fstate := s.st, fidx := s.idx, rdAns := rest, trace := s.trace ++ [.read t (some b)] })

/-- R100, R105, R108: with no byte obtained, AWAIT_ACK writes `hs <- Timeout`, keeps `rxb`, and the run
fails with cause `Timeout`. -/
def Obligations.AwaitAckTimesOut : Prop :=
  ∀ (s : State) (t : Ms) (rest : List (Option Byte)),
    s.ph = .wait → waitTimeout s.st = some t →
    (s.st = .writingPages → s.idx.toNat < s.npages.toNat) → s.rdAns = none :: rest →
    exec (.awaitAck t) s = .next { s with
      st := .failed, ph := .send, timer := 0, hs := .timeout, cause := .timeout,
      fstate := s.st, fidx := s.idx, rdAns := rest, trace := s.trace ++ [.read t none] }

/-- R100, R106: with a byte obtained, AWAIT_ACK performs the response that the decoder reads from it,
whatever byte it is, and answers a next state with `rxb` the byte and `hs` its class; what the response then
does is R102 to R104 and R108. (That the response is performed in the same step is log entry 17, DEDUCED; that
a response is an operation of its own, performed only if the coming read answers its byte, is log entry
13.) -/
def Obligations.AwaitAckPerformsTheResponse : Prop :=
  ∀ (s : State) (t : Ms) (b : Byte) (rest : List (Option Byte)),
    s.ph = .wait → waitTimeout s.st = some t →
    (s.st = .writingPages → s.idx.toNat < s.npages.toNat) → s.rdAns = some b :: rest →
    exec (.awaitAck t) s = exec (decodeRx b) s ∧
    ∃ u, exec (.awaitAck t) s = .next u ∧ u.rxb = b ∧ u.hs = classify b ∧ u.rdAns = rest ∧
      u.trace = s.trace ++ [.read t (some b)]

/-- R107: the timeout at each `Wait` position is fixed. -/
def Obligations.HandshakeTimeoutsFixed : Prop :=
  ∀ (s : State) (t : Ms), (∃ u, exec (.awaitAck t) s = .next u) ↔
    s.ph = .wait ∧
      ((s.st = .enteringBootloader ∧ t = 2000) ∨ (s.st = .erasing ∧ t = 5000) ∨
        (s.st = .writingPages ∧ t = 1000 ∧ s.idx.toNat < s.npages.toNat) ∨
        (s.st = .verifying ∧ t = 3000))

/-- R24, R180, R181: an accepted start latches and clears; an empty image fails at once, the channel not
asked; a closed channel fails; otherwise the run begins. It is so for UPLOAD, and for a clock cycle with
`start = 1` in a quiescent state, which samples `img_len` and `ch_open`. (The observed trace starting
afresh is the model's choice, log entry 8; so are the registers `buf`, `reqDropped`, `txPos` and `acc` of
the signal level, log entries 18 and 30.) -/
def Obligations.UploadStartsOrFails : Prop :=
  (∀ s : State, quiescent s.st = true → s.ph = .send →
    (s.imgLen = 0 →
      exec .upload s = .next { s with
        st := .failed, ph := .send, idx := 0, len := 0, npages := 0, csum := 0, timer := 0, rxb := 0,
        hs := .none, cause := .emptyImage, fstate := .idle, fidx := 0, trace := [] }) ∧
    (s.imgLen ≠ 0 → s.chOpen = false →
      exec .upload s = .next { s with
        st := .failed, ph := .send, idx := 0, len := s.imgLen, npages := pageCount s.imgLen,
        csum := 0, timer := 0, rxb := 0, hs := .none, cause := .channelClosed, fstate := .idle,
        fidx := 0, trace := [.isOpen false] }) ∧
    (s.imgLen ≠ 0 → s.chOpen = true →
      exec .upload s = .next { s with
        st := .enteringBootloader, ph := .send, idx := 0, len := s.imgLen,
        npages := pageCount s.imgLen, csum := 0, timer := 0, rxb := 0, hs := .none, cause := .none,
        fstate := .idle, fidx := 0, trace := [.isOpen true] })) ∧
  (∀ (i : SigIn) (σ : SigState), quiescent σ.st = true → σ.ph = .send → i.rst = false →
    i.start = true →
    (i.img_len = 0 →
      cycle i σ = .next {
        st := .failed, ph := .send, idx := 0, len := 0, npages := 0, csum := 0, timer := 0, rxb := 0,
        hs := .none, cause := .emptyImage, fstate := .idle, fidx := 0,
        buf := [], reqDropped := false, txPos := 0, acc := 0 }) ∧
    (i.img_len ≠ 0 → i.ch_open = false →
      cycle i σ = .next {
        st := .failed, ph := .send, idx := 0, len := i.img_len, npages := pageCount i.img_len,
        csum := 0, timer := 0, rxb := 0, hs := .none, cause := .channelClosed, fstate := .idle,
        fidx := 0, buf := [], reqDropped := false, txPos := 0, acc := 0 }) ∧
    (i.img_len ≠ 0 → i.ch_open = true →
      cycle i σ = .next {
        st := .enteringBootloader, ph := .send, idx := 0, len := i.img_len,
        npages := pageCount i.img_len, csum := 0, timer := 0, rxb := 0, hs := .none, cause := .none,
        fstate := .idle, fidx := 0, buf := [], reqDropped := false, txPos := 0, acc := 0 }))

/-- R24, R218: while `st` is busy, `start` is ignored: UPLOAD changes nothing, and a step does not
depend on `start`. -/
def Obligations.StartIgnoredWhileBusy : Prop :=
  ∀ s : State, quiescent s.st = false →
    exec .upload s = .next s ∧
    ∀ t, step { s with start := false } = .next t → ∀ b,
      step { s with start := b } = .next { t with start := b }

/-- R210, R212, R220: a write call of ENTER, ERASE, WRITE_PAGE, VERIFY or CHECKSUM that answers `false`
fails the run with cause `ShortWrite`; `hs` and `rxb` keep the previous handshake's values, and nothing
but the failing write is noted. -/
def Obligations.ShortWriteFails : Prop :=
  ∀ (s : State) (bytes : List Byte) (rest : List Bool), s.rst = false →
    frameAt s = some bytes → s.st ≠ .exitingBootloader → s.npages = pageCount s.len →
    (s.st = .writingPages → s.idx.toNat < s.npages.toNat) → s.wrAns = false :: rest →
    step s = .next { s with
      st := .failed, ph := .send, timer := 0, cause := .shortWrite, fstate := s.st, fidx := s.idx,
      wrAns := rest, trace := s.trace ++ [.write bytes false] }

/-- R203, R262: a write call that has not returned leaves the machine where it is; there is no timeout
on it. -/
def Obligations.PendingWriteWaits : Prop :=
  ∀ (s : State) (bytes : List Byte), s.rst = false → frameAt s = some bytes →
    s.npages = pageCount s.len → (s.st = .writingPages → s.idx.toNat < s.npages.toNat) →
    s.wrAns = [] → step s = .next s

/-- R79: at each sending position exactly the position's frame is sent, in one write call, and at no
other position is anything sent. Every write a step notes is the one event it notes, and its bytes are the
frame of the position before it; a step that does not carry the trace on (a reset, an accepted start)
leaves no write in it. -/
def Obligations.FrameSentIsThePositions : Prop :=
  (∀ s t : State, step s = .next t →
    (∀ bytes a, Event.write bytes a ∉ t.trace) ∨
    ∃ new, t.trace = s.trace ++ new ∧ ∀ bytes a, Event.write bytes a ∈ new →
      frameAt s = some bytes ∧ new = [.write bytes a]) ∧
  (∀ (s : State) (bytes : List Byte) (a : Bool) (rest : List Bool), s.rst = false →
    frameAt s = some bytes → s.npages = pageCount s.len →
    (s.st = .writingPages → s.idx.toNat < s.npages.toNat) → s.wrAns = a :: rest →
    ∃ t, step s = .next t ∧ t.trace = s.trace ++ [.write bytes a] ∧ t.wrAns = rest)

/-- R79, R199: an operation that sends a frame is performed only where that frame is the position's;
anywhere else it is refused by name, except that WRITE_PAGE faults where the page to be written begins at or
beyond the end of the image (R41). -/
def Obligations.SendingOutOfSequenceStops : Prop :=
  ∀ (i : Instr) (s : State), i.direction = some .tx → frameAt s ≠ some (encode i) →
    exec i s = .refused .outOfSequence ∨
    (exec i s = .fault .imgAddress ∧ (∃ addr payload, i = .writePage addr payload) ∧
      s.st = .writingPages ∧ s.ph = .send ∧ s.len.toNat ≤ s.idx.toNat * 128)

/-! ### Frames: what an operation leaves unchanged -/

/-- Frame of ENTER, ERASE, WRITE_PAGE, VERIFY, CHECKSUM and EXIT: only `st`, `ph`, `timer`, the failure
record, the write answers and the trace may change, and every image byte reads as before (R23, R46). -/
def Obligations.SendingFrame : Prop :=
  ∀ (i : Instr) (s t : State), i.direction = some .tx → exec i s = .next t →
    t.idx = s.idx ∧ t.len = s.len ∧ t.npages = s.npages ∧ t.csum = s.csum ∧ t.rxb = s.rxb ∧
    t.hs = s.hs ∧ (t.st ≠ .failed → t.cause = s.cause ∧ t.fstate = s.fstate ∧ t.fidx = s.fidx) ∧
    t.rst = s.rst ∧ t.start = s.start ∧ t.imgLen = s.imgLen ∧ t.chOpen = s.chOpen ∧
    t.rdAns = s.rdAns ∧ (t.wrAns = s.wrAns ∨ t.wrAns = s.wrAns.tail) ∧
    ∀ a, imgByte t.img a = imgByte s.img a

/-- Frame of ACK, NACK, MALFORMED and AWAIT_ACK: `len`, `npages`, the pins and the write answers are
unchanged; `idx` changes only by an ACK while erasing or writing pages, `csum` only by the ACK that
enters `Verifying`, the failure record only on failing; every image byte reads as before (R23). -/
def Obligations.ReceivingFrame : Prop :=
  ∀ (i : Instr) (s t : State), (i.direction = some .rx ∨ ∃ ms, i = .awaitAck ms) →
    exec i s = .next t →
    t.len = s.len ∧ t.npages = s.npages ∧
    (t.idx ≠ s.idx → t.st = .writingPages) ∧
    (t.csum ≠ s.csum → s.st = .writingPages ∧ t.st = .verifying) ∧
    (t.st ≠ .failed → t.cause = s.cause ∧ t.fstate = s.fstate ∧ t.fidx = s.fidx) ∧
    (t.hs = .timeout → t.rxb = s.rxb) ∧
    t.rst = s.rst ∧ t.start = s.start ∧ t.imgLen = s.imgLen ∧ t.chOpen = s.chOpen ∧
    t.wrAns = s.wrAns ∧ t.rdAns = s.rdAns.tail ∧
    ∀ a, imgByte t.img a = imgByte s.img a

/-- Frame of SLEEP: only the position, `timer` and the trace change: "no channel operation, no register
write except `timer`" (R51), but for the sequencer's move. -/
def Obligations.SleepFrame : Prop :=
  ∀ (ms : Ms) (s t : State), exec (.sleep ms) s = .next t →
    t.idx = s.idx ∧ t.len = s.len ∧ t.npages = s.npages ∧ t.csum = s.csum ∧ t.rxb = s.rxb ∧
    t.hs = s.hs ∧ t.cause = s.cause ∧ t.fstate = s.fstate ∧ t.fidx = s.fidx ∧ t.toEnv = s.toEnv ∧
    t.trace = s.trace ++ [.sleep ms] ∧ ∀ a, imgByte t.img a = imgByte s.img a

/-- Frame of UPLOAD: whatever it does to the registers, nothing is written to or read from the channel,
the surroundings' inputs stay, and every image byte reads as before (R180). -/
def Obligations.UploadFrame : Prop :=
  ∀ (s t : State), exec .upload s = .next t →
    t.toEnv = s.toEnv ∧ (∀ a, imgByte t.img a = imgByte s.img a) ∧
    (quiescent s.st = true → ∀ e ∈ t.trace, e = .isOpen s.chOpen)

/-- R44, R46: no step, `rst` among them, changes the image, its length input or a pin; BLFSM writes no
memory. In a busy state the surroundings may set what they hold, and the registers and the trace stay, but
not another image nor another `img_len`: that is refused by name (R36, R62, R261, U12; log entry 28). -/
def Obligations.StepsKeepTheImage : Prop :=
  (∀ s t : State, step s = .next t →
    (∀ a, imgByte t.img a = imgByte s.img a) ∧ (Memory.wf s.img = true → Memory.wf t.img = true) ∧
    t.imgLen = s.imgLen ∧ t.rst = s.rst ∧ t.start = s.start ∧ t.chOpen = s.chOpen) ∧
  (∀ (e : Env) (s : State), quiescent s.st = false →
    (e.img = s.img → e.imgLen = s.imgLen → drive e s = .next { s with toEnv := e }) ∧
    (e.img ≠ s.img ∨ e.imgLen ≠ s.imgLen → drive e s = .refused .imageChanged))

/-! ### The step -/

/-- A step performs the operation its position selects: `step` is `exec` of it (R14). -/
def Obligations.StepRunsTheSelectedOperation : Prop :=
  ∀ (s : State) (i : Instr), s.rst = false → select s = .op i → step s = exec i s

/-- The operation selected is well formed, and the codec reads it back from its frame: what `step` runs
is what the frame on the wire says (R14, R79). -/
def Obligations.SelectedOperationIsWellFormed : Prop :=
  ∀ (s : State) (i : Instr), select s = .op i →
    i.wellFormed = true ∧ ∀ d, i.direction = some d → decode d (encode i) = .ok i

/-- An operation placed as the next one is what the very next step performs, and it answers a next
state, for every well-formed operation and every canonical image (the model's own placing, log entry
14). -/
def Obligations.PlacedOperationIsPerformed : Prop :=
  (∀ (i : Instr) (s : State), i.wellFormed = true → Memory.wf s.img = true →
    step (placeInstr i s) = exec i (placeInstr i s) ∧
    ∃ t, step (placeInstr i s) = .next t) ∧
  (∀ (s : State) (nbits w : Nat) (i : Instr), Memory.wf s.img = true →
    decodeTableWord nbits w = some i →
    step (s.withFetchWord nbits w) = exec i (s.withFetchWord nbits w))

/-- R197, R28: with no start and no reset, `Idle`, `Done` and `Failed` do nothing and every result
keeps its value, at both levels; `tx_valid` and `rx_ready` are 0 and no timer runs. -/
def Obligations.QuiescentStatesHold : Prop :=
  (∀ s : State, quiescent s.st = true → s.ph = .send → undisturbed s → step s = .next s) ∧
  (∀ (i : SigIn) (σ : SigState), quiescent σ.st = true → σ.ph = .send → i.rst = false →
    i.start = false → cycle i σ = .next σ) ∧
  (∀ σ : SigState, quiescent σ.st = true → σ.ph = .send →
    (outputs σ).tx_valid = false ∧ (outputs σ).rx_ready = false ∧ interval σ.st σ.ph = 0)

/-- R250, R252, R35: `rst` wins over `start` and over every step; every register takes the value of R35, no
frame is sent, at both levels, and every output is 0 afterwards, `tx_data` and `img_addr` among them. -/
def Obligations.ResetWins : Prop :=
  (∀ s : State, s.rst = true → ∃ tr,
    step s = .next { s with
      st := .idle, ph := .send, idx := 0, len := 0, npages := 0, csum := 0, timer := 0, rxb := 0,
      hs := .none, cause := .none, fstate := .idle, fidx := 0, trace := tr }) ∧
  (∀ (i : SigIn) (σ : SigState), i.rst = true → cycle i σ = .next SigState.reset) ∧
  SigState.reset.toRegs = State.reset.toRegs ∧
  outputs SigState.reset = {
    tx_valid := false, tx_last := false, tx_data := some 0, rx_ready := false,
    img_req := false, img_addr := some 0 } ∧
  (status State.reset.toRegs).busy = false ∧ (status State.reset.toRegs).done = false ∧
  (status State.reset.toRegs).ok = false

/-- R25: `busy` iff `st` is one of the five busy states, `done` iff `Done` or `Failed`, `ok` iff `Done`;
`(done, ok) = (0, 1)` never occurs. R26: the other status outputs are copies of the registers, `st`, `ph`,
`hs`, `cause` and `fstate` by their codes (StatusCodesReadBack states the codes). -/
def Obligations.StatusOutputs : Prop :=
  ∀ r : Regs,
    ((status r).busy = true ↔ (r.st = .enteringBootloader ∨ r.st = .erasing ∨ r.st = .writingPages ∨
      r.st = .verifying ∨ r.st = .exitingBootloader)) ∧
    ((status r).done = true ↔ (r.st = .done ∨ r.st = .failed)) ∧
    ((status r).ok = true ↔ r.st = .done) ∧
    ¬ ((status r).done = false ∧ (status r).ok = true) ∧
    (status r).st_o = r.st.code ∧ (status r).ph_o = r.ph.code ∧ (status r).idx_o = r.idx ∧
    (status r).hs_o = r.hs.code ∧ (status r).cause_o = r.cause.code ∧
    (status r).fstate_o = r.fstate.code ∧ (status r).fidx_o = r.fidx ∧ (status r).rxb_o = r.rxb ∧
    (status r).csum_o = r.csum

/-- From registers that meet the invariant every step answers a next state, whatever the surroundings
hold. Where the channel answers, that is R52. Where it has no answer at hand, the next state is the
model's: with no answer of a write call (which U8 calls stuck, with no enabled step) it is the same state,
by log entry 3 (DEDUCED from R203 and R262); with none of a read it is a failed read, by log entry 4. That
the image store answers every read, too, is the model's, log entry 31. -/
def Obligations.StepAlwaysGoesOn : Prop :=
  ∀ (s : State) (e : Env), RegInv s.toRegs → ∃ t, step { s with toEnv := e } = .next t

/-! ### Invariants -/

/-- The invariants hold at reset. -/
def Obligations.InvariantsHoldAtReset : Prop :=
  RegInv State.reset.toRegs ∧ SumInv State.reset ∧ TraceInv State.reset ∧
    Memory.wf State.reset.img = true

/-- Every step keeps the register invariant: the position stays one R12 lists, `timer` is the position's
interval, `npages` the page count, the failure record is consistent. The intervals are the six of R236, and
0 in a phase in which none runs. (That `timer` keeps the whole interval at this level is log entry 9.) -/
def Obligations.StepKeepsRegInv : Prop :=
  (∀ s t : State, RegInv s.toRegs → step s = .next t → RegInv t.toRegs) ∧
  (interval .enteringBootloader .settle = 100 ∧ interval .enteringBootloader .wait = 2000 ∧
    interval .erasing .wait = 5000 ∧ interval .writingPages .wait = 1000 ∧
    interval .verifying .wait = 3000 ∧ interval .exitingBootloader .settle = 100 ∧
    ∀ st, interval st .send = 0 ∧ interval st .send2 = 0)

/-- In every execution, whatever the surroundings do between steps (the image and length of a run under way
stay, R36, R62), the registers meet their invariant, no step stops, and while a run is under way `img_len` is
the length latched at its start and the checksum and trace invariants hold of its image. That no step stops
at a write call that has not returned is the model's, log entry 3 (U8 calls it stuck), that none stops at a
read without an answer is log entry 4, and that the image store answers is log entry 31; `timer` is log
entry 9. -/
def Obligations.ReachableStatesAreSound : Prop :=
  ∀ s : State, Reachable s →
    RegInv s.toRegs ∧ (∃ t, step s = .next t) ∧
    (quiescent s.st = false → s.imgLen = s.len ∧ SumInv s ∧ TraceInv s)

/-- Every step keeps the checksum invariant: from `Verifying` on, `csum` is the checksum of the image
(R190). -/
def Obligations.StepKeepsSumInv : Prop :=
  ∀ s t : State, RegInv s.toRegs → SumInv s → step s = .next t → SumInv t

/-- Every step keeps the trace invariant: a busy position is reached with exactly the primitives of R198
before it, each accepted and acknowledged; a failure adds exactly the failing primitive (R188, R221). -/
def Obligations.StepKeepsTraceInv : Prop :=
  ∀ s t : State, RegInv s.toRegs → SumInv s → TraceInv s → step s = .next t → TraceInv t

/-! ### Laws of the sequence -/

/-- R199: a step that changes the state takes exactly a row of the transition table, the causes as R210
gives them, with `idx = 0`, `idx + 1` and `csum` set where the table says so. "No other arc exists." -/
def Obligations.StepFollowsTheTransitionTable : Prop :=
  ∀ s t : State, RegInv s.toRegs → s.rst = false → step s = .next t → t ≠ s →
    (∃ a ∈ arcs, a.taken s t ∧ ∀ b ∈ arcs, b.fromSt = s.st → b.fromPh = s.ph →
      b.condition.holds s → b = a) ∧
    (s.st = .erasing → t.st = .writingPages → t.idx = 0) ∧
    (s.st = .writingPages → s.ph = .wait → t.st = .writingPages → t.idx = s.idx + 1) ∧
    (s.st = .writingPages → t.st = .verifying → t.csum = checksumOf s.img s.len.toNat)

/-- R200: no branching back. A step never lowers the state's place in the order of R10 but for an
accepted start or a reset; `idx` grows by at most one and only in `WritingPages`; `Failed` is never
entered from `ExitingBootloader`. -/
def Obligations.StrictlyLinear : Prop :=
  ∀ s t : State, RegInv s.toRegs → s.rst = false → quiescent s.st = false → step s = .next t →
    (t.st = s.st ∨ t.st = .failed ∨ t.st.code.toNat = s.st.code.toNat + 1) ∧
    (s.st = .exitingBootloader → t.st ≠ .failed) ∧
    (t.idx = s.idx ∨ (s.st = .writingPages ∧ t.st = .writingPages ∧ t.idx.toNat = s.idx.toNat + 1))

/-- R202: never past a failing step. In a run that failed at or before the erase handshake no
write-page frame was sent; in a run that failed no EXIT frame was sent. -/
def Obligations.NothingSentPastAFailure : Prop :=
  ∀ s : State, RegInv s.toRegs → TraceInv s → s.st = .failed →
    (∀ a, Event.write [0xF0] a ∉ s.trace) ∧
    ((s.fstate = .idle ∨ s.fstate = .enteringBootloader ∨ s.fstate = .erasing) →
      ∀ bytes a, Event.write bytes a ∈ s.trace → bytes.head? ≠ some 0xD0)

/-- R126: `Done` implies that the verify handshake returned `Ok` and that `ChWrite([0xF0])` was issued
once; it does not imply that the write was accepted: from every state of the invariants at EXIT's position,
either answer leads to `Done` in two steps, and there is such a state for each. -/
def Obligations.DoneMeansVerified : Prop :=
  (∀ s : State, TraceInv s → s.st = .done →
    Event.read 3000 (some 0x79) ∈ s.trace ∧
    ∃ before a, s.trace = before ++ [.write [0xF0] a, .sleep 100] ∧
      ∀ b, Event.write [0xF0] b ∉ before) ∧
  (∀ (s : State) (a : Bool) (rest : List Bool), RegInv s.toRegs → SumInv s → TraceInv s →
    s.rst = false → s.st = .exitingBootloader → s.ph = .send → s.wrAns = a :: rest →
    ∃ t, run 2 s = .next t ∧ t.st = .done ∧ TraceInv t ∧
      t.trace = s.trace ++ [.write [0xF0] a, .sleep 100]) ∧
  (∀ a : Bool, ∃ s : State, RegInv s.toRegs ∧ SumInv s ∧ TraceInv s ∧ s.rst = false ∧
    s.st = .exitingBootloader ∧ s.ph = .send ∧ s.wrAns = [a])

/-- R198: a successful run of `n` pages issues `2n + 11` primitives, the last two the EXIT write and the
sleep, and the longest it can wait is `10200 + 1000 n` ms (R270). The bytes of its accepted writes are
`133n + 8` if the EXIT write answered `true` and `133n + 7` if it answered `false`. -/
def Obligations.SuccessfulRunIsCounted : Prop :=
  ∀ s : State, TraceInv s → s.st = .done →
    s.trace.length = 2 * s.npages.toNat + 11 ∧
    (∃ before a, s.trace = before ++ [.write [0xF0] a, .sleep 100] ∧
      bytesWritten s.trace = 133 * s.npages.toNat + (if a then 8 else 7)) ∧
    waitingTime s.trace = 10200 + 1000 * s.npages.toNat

/-- R198: the run of the machine from an accepted start is the procedure `uploadFirmware`: after enough
steps its trace and its verdict are the procedure's, for every image, every answer of the channel, and
whether or not every write call returns. (That every image read returns is the model's, log entry 31.) -/
def Obligations.RunIsTheProcedure : Prop :=
  ∀ (s u : State) (k : Nat), quiescent s.st = true → s.ph = .send → s.rst = false →
    exec .upload s = .next u → 2 * (pageCount s.imgLen).toNat + 10 ≤ k →
    ∃ t, run k { u with start := false } = .next t ∧
      t.trace = (uploadFirmware s.img s.imgLen s.chOpen s.wrAns s.rdAns).trace ∧
      verdict t.toRegs = (uploadFirmware s.img s.imgLen s.chOpen s.wrAns s.rdAns).verdict

/-- R203: every run ends after at most `2n + 11` primitives, provided every write call returns: from any
busy state of the invariant, with that many answers to write calls at hand, the terminal state is
reached. It rests on the image store answering every read as well, the other unbounded wait of R262: at
this level that is the model's choice, log entry 31. -/
def Obligations.EveryRunEnds : Prop :=
  ∀ s : State, RegInv s.toRegs → undisturbed s → quiescent s.st = false →
    s.npages.toNat + 5 ≤ s.wrAns.length →
    ∃ k t, k ≤ 2 * s.npages.toNat + 10 ∧ run k s = .next t ∧
      (t.st = .done ∨ t.st = .failed)

/-- R198, R212: with an open channel, every write accepted and every response ACK, a run of a non-empty
image ends in `Done` after exactly its `2n + 10` steps past the start. (That every image read returns is the
model's choice at this level, log entry 31.) -/
def Obligations.GoodChannelSucceeds : Prop :=
  ∀ (s u : State), quiescent s.st = true → s.ph = .send → s.rst = false → s.imgLen ≠ 0 →
    s.chOpen = true → exec .upload s = .next u →
    s.wrAns = List.replicate ((pageCount s.imgLen).toNat + 5) true →
    s.rdAns = List.replicate ((pageCount s.imgLen).toNat + 3) (some 0x79) →
    ∃ t, run (2 * (pageCount s.imgLen).toNat + 10) { u with start := false } = .next t ∧
      t.st = .done ∧ t.wrAns = [] ∧ t.rdAns = [] ∧
      t.trace = doneTrace s.img s.imgLen (pageCount s.imgLen).toNat true

/-! ### The signal level -/

/-- R54, R217: in a cycle of a `Wait` phase the first that holds decides: a byte, a transport error, the
last tick, any tick; otherwise the wait continues. R235, R236: the cycle that enters a `Wait` phase loads
`timer` with the timeout of that position. -/
def Obligations.WaitPriority : Prop :=
  (∀ (i : SigIn) (σ : SigState), i.rst = false → σ.ph = .wait → legalPosition σ.toRegs = true →
    (outputs σ).rx_ready = true ∧
    (i.rx_valid = true →
      cycle i σ = .next { σ with toRegs := afterRead (some i.rx_data) σ.acc σ.toRegs }) ∧
    (i.rx_valid = false → i.rx_err = true →
      cycle i σ = .next { σ with toRegs := afterRead none σ.acc σ.toRegs }) ∧
    (i.rx_valid = false → i.rx_err = false → i.tick_1ms = true → σ.timer = 1 →
      cycle i σ = .next { σ with toRegs := afterRead none σ.acc σ.toRegs }) ∧
    (i.rx_valid = false → i.rx_err = false → i.tick_1ms = true → 1 < σ.timer.toNat →
      cycle i σ = .next { σ with timer := σ.timer - 1 }) ∧
    (i.rx_valid = false → i.rx_err = false → i.tick_1ms = false → cycle i σ = .next σ)) ∧
  (∀ (i : SigIn) (σ σ' : SigState), cycle i σ = .next σ' → σ.ph ≠ .wait → σ'.ph = .wait →
    (σ'.st = .enteringBootloader ∧ σ'.timer = 2000) ∨ (σ'.st = .erasing ∧ σ'.timer = 5000) ∨
    (σ'.st = .writingPages ∧ σ'.timer = 1000) ∨ (σ'.st = .verifying ∧ σ'.timer = 3000))

/-- R235: a settle delay lasts exactly until the `N`-th tick: before it the timer has counted the ticks
down and nothing else has changed, at it the phase ends. R236: the cycle that enters a `Settle` phase loads
`timer` with 100. -/
def Obligations.SettleLastsItsTicks : Prop :=
  (∀ (is : List SigIn) (σ : SigState), σ.ph = .settle → legalPosition σ.toRegs = true →
    (∀ i ∈ is, i.rst = false) → ticks is < σ.timer.toNat →
    cycles is σ = .next { σ with timer := σ.timer - BitVec.ofNat 13 (ticks is) } ∧
    ∀ i : SigIn, i.rst = false → i.tick_1ms = true → ticks is + 1 = σ.timer.toNat →
      cycles (is ++ [i]) σ = .next { σ with
        toRegs := afterSleep { σ.toRegs with timer := 1 } }) ∧
  (∀ (i : SigIn) (σ σ' : SigState), cycle i σ = .next σ' → σ.ph ≠ .settle → σ'.ph = .settle →
    (σ'.st = .enteringBootloader ∨ σ'.st = .exitingBootloader) ∧ σ'.timer = 100)

/-- R53: from the beginning of a write call, until `wr_done`, a byte is taken in each cycle with `tx_ready`
and in no other, `k` bytes in all, in order; the byte after them stays offered, `tx_last` with the last one
alone, and after the last nothing is offered and nothing changes (R262). `wr_done` after the last byte was
taken ends the call with the answer `wr_ok`, and so it does in the very cycle that takes the last byte (that
a byte taken in that cycle counts is log entry 19). What `tx_data` and `tx_last` are when nothing is offered
is log entry 20. -/
def Obligations.WriteCallStreamsTheFrame : Prop :=
  ∀ (σ : SigState) (f : List Byte) (is : List SigIn) (k : Nat), legalPosition σ.toRegs = true →
    sigFrame σ = some f → σ.txPos = 0 → f.length ≤ 133 →
    (∀ i ∈ is, i.rst = false ∧ i.wr_done = false) → k = min (readyCycles is) f.length →
    cycles is σ = .next { σ with txPos := BitVec.ofNat 8 k } ∧
    (outputs { σ with txPos := BitVec.ofNat 8 k }).tx_valid = decide (k < f.length) ∧
    (outputs { σ with txPos := BitVec.ofNat 8 k }).tx_data = f[k]? ∧
    ((outputs { σ with txPos := BitVec.ofNat 8 k }).tx_last = true ↔ k + 1 = f.length) ∧
    (∀ i : SigIn, i.rst = false → i.wr_done = true →
      (k = f.length ∨ (k + 1 = f.length ∧ i.tx_ready = true)) →
      cycles (is ++ [i]) σ = .next { σ with
        toRegs := afterWrite i.wr_ok σ.toRegs, buf := [], txPos := 0 })

/-- R53, R124: `wr_done` before all bytes were taken ends the call with the answer `false`, whatever
`wr_ok` is: the run fails, but for EXIT. -/
def Obligations.EarlyWriteDoneIsShort : Prop :=
  ∀ (i : SigIn) (σ : SigState) (f : List Byte), legalPosition σ.toRegs = true →
    sigFrame σ = some f → i.rst = false → i.wr_done = true →
    (σ.txPos.toNat + (if i.tx_ready then 1 else 0)) < f.length → f.length ≤ 133 →
    ∃ σ', cycle i σ = .next σ' ∧
      (σ.st ≠ .exitingBootloader → σ'.toRegs = raiseFail .shortWrite σ.toRegs) ∧
      (σ.st = .exitingBootloader → σ'.st = .exitingBootloader ∧ σ'.ph = .settle)

/-- R60, R53, R54: `tx_valid` and `rx_ready` are never both 1; `tx_valid` is 0 in every phase other than
`Send` and `Send2`, `rx_ready` in every phase other than `Wait`. (That no frame byte is offered while an
image byte is requested is the model's choice, log entry 18: it reads a page into a buffer before it offers
the frame, and R146 leaves buffering or streaming open.) -/
def Obligations.OneDirectionAtATime : Prop :=
  ∀ σ : SigState,
    ¬ ((outputs σ).tx_valid = true ∧ (outputs σ).rx_ready = true) ∧
    ¬ ((outputs σ).tx_valid = true ∧ (outputs σ).img_req = true) ∧
    ((outputs σ).tx_valid = true → σ.ph = .send ∨ σ.ph = .send2) ∧
    ((outputs σ).rx_ready = true → σ.ph = .wait)

/-- D1: the signal level refines the transaction level. A cycle from a state that agrees with `s` either
stays inside the primitive `s` is about to perform, or completes it: the step of `s`, with the inputs of
the cycle and the answers the ports give, leads to a state that agrees again. The frame whose bytes the
signal level offers on TX is the frame that `s` sends (R79, R48, R53), and where `s` sends one the signal
level offers it, unless it is still reading the page (log entry 18). -/
def Obligations.SignalLevelRefinesStep : Prop :=
  (∀ (i : SigIn) (σ σ' : SigState) (s : State), RegInv s.toRegs → Agrees σ s →
    imagePortRight i σ s.img → cycle i σ = .next σ' →
    Agrees σ' s ∨ ∃ t, step (withPorts i σ s) = .next t ∧ Agrees σ' t) ∧
  (∀ (σ : SigState) (s : State) (f : List Byte), RegInv s.toRegs → Agrees σ s →
    (sigFrame σ = some f → frameAt s = some f) ∧
    (frameAt s = some f → sigFrame σ = some f ∨ readingPage σ = true) ∧
    (sigFrame σ = some f → (outputs σ).tx_valid = true →
      (outputs σ).tx_data = f[σ.txPos.toNat]?))

/-- The two levels agree after reset. -/
def Obligations.LevelsAgreeAtReset : Prop := Agrees SigState.reset State.reset

/-- R45: while a page's payload is read, `img_req` and `img_addr`, the page's address and then the ones
after it, stand until a cycle with `img_ack`, which takes `img_data` and after which `img_req` is 0; the
cycle after that the next byte is requested, until the page is complete, and then the frame is what is
sent. (That the payload is read before the frame is offered, and summed, is log entry 18; that `img_req` is
dropped for exactly one cycle between two bytes is log entry 30.) -/
def Obligations.ImagePortReadsThePage : Prop :=
  (∀ (i : SigIn) (σ : SigState), i.rst = false → legalPosition σ.toRegs = true →
    σ.st = .writingPages → σ.ph = .send → σ.buf.length < pageLength σ.len σ.idx →
    (σ.reqDropped = false →
      (outputs σ).img_req = true ∧
      (outputs σ).img_addr = some (pageAddress σ.idx + BitVec.ofNat 32 σ.buf.length) ∧
      (i.img_ack = false → cycle i σ = .next σ) ∧
      (i.img_ack = true → ∃ σ', cycle i σ = .next σ' ∧ (outputs σ').img_req = false ∧
        σ'.toRegs = σ.toRegs ∧ σ'.buf = σ.buf ++ [i.img_data] ∧
        σ'.acc = σ.acc + i.img_data.setWidth 32)) ∧
    (σ.reqDropped = true →
      (outputs σ).img_req = false ∧ cycle i σ = .next { σ with reqDropped := false } ∧
      (outputs { σ with reqDropped := false }).img_req = true)) ∧
  (∀ (σ : SigState) (bs : List Byte) (ack pause : SigIn), legalPosition σ.toRegs = true →
    σ.st = .writingPages → σ.ph = .send → σ.buf = [] → σ.reqDropped = false →
    bs.length = pageLength σ.len σ.idx → ack.rst = false → ack.img_ack = true →
    pause.rst = false → pause.tx_ready = false → pause.wr_done = false →
    ∃ σ', cycles (bs.flatMap fun b => [{ ack with img_data := b }, pause]) σ = .next σ' ∧
      σ'.toRegs = σ.toRegs ∧ (outputs σ').img_req = false ∧
      sigFrame σ' = some (pageFrame (pageAddress σ.idx) (padPage bs)))
end

