-- ==== Sys2Proof/Laws/Config.lean ====
section
/-! SUPPORT. The values of the constants of R4, as simp lemmas. -/

namespace Sys2Proof.Config

@[simp] theorem cfg_pageSize : cfg.pageSize = 128 := rfl
@[simp] theorem cfg_padByte : cfg.padByte = 0xFF := rfl
@[simp] theorem cfg_addrBytes : cfg.addrBytes = 4 := rfl
@[simp] theorem cfg_csumBytes : cfg.csumBytes = 4 := rfl
@[simp] theorem cfg_opEnter : cfg.opEnter = 0xA5 := rfl
@[simp] theorem cfg_opErase : cfg.opErase = 0xE0 := rfl
@[simp] theorem cfg_opWrite : cfg.opWrite = 0xD0 := rfl
@[simp] theorem cfg_opVerify : cfg.opVerify = 0xC0 := rfl
@[simp] theorem cfg_opExit : cfg.opExit = 0xF0 := rfl
@[simp] theorem cfg_rspAck : cfg.rspAck = 0x79 := rfl
@[simp] theorem cfg_rspNack : cfg.rspNack = 0x1F := rfl
@[simp] theorem cfg_tEnter : cfg.tEnter = 2000 := rfl
@[simp] theorem cfg_tErase : cfg.tErase = 5000 := rfl
@[simp] theorem cfg_tWrite : cfg.tWrite = 1000 := rfl
@[simp] theorem cfg_tVerify : cfg.tVerify = 3000 := rfl
@[simp] theorem cfg_dEnter : cfg.dEnter = 100 := rfl
@[simp] theorem cfg_dExit : cfg.dExit = 100 := rfl
@[simp] theorem cfg_wpFrameLen : cfg.wpFrameLen = 133 := rfl

end Sys2Proof.Config
end

