-- ==== Sys2Proof/Laws/State.lean ====
section
/-! SUPPORT. The fields of State after each update: one lemma per field per update, true by rfl, so
that no later proof unfolds a record update. -/

namespace Sys2Proof.Machine

/-! ### moveTo -/

@[simp] theorem moveTo_st (st : SessionState) (ph : Phase) (r : Regs) : (moveTo st ph r).st = st := rfl
@[simp] theorem moveTo_ph (st : SessionState) (ph : Phase) (r : Regs) : (moveTo st ph r).ph = ph := rfl
@[simp] theorem moveTo_idx (st : SessionState) (ph : Phase) (r : Regs) : (moveTo st ph r).idx = r.idx := rfl
@[simp] theorem moveTo_len (st : SessionState) (ph : Phase) (r : Regs) : (moveTo st ph r).len = r.len := rfl
@[simp] theorem moveTo_npages (st : SessionState) (ph : Phase) (r : Regs) : (moveTo st ph r).npages = r.npages := rfl
@[simp] theorem moveTo_csum (st : SessionState) (ph : Phase) (r : Regs) : (moveTo st ph r).csum = r.csum := rfl
@[simp] theorem moveTo_timer (st : SessionState) (ph : Phase) (r : Regs) : (moveTo st ph r).timer = interval st ph := rfl
@[simp] theorem moveTo_rxb (st : SessionState) (ph : Phase) (r : Regs) : (moveTo st ph r).rxb = r.rxb := rfl
@[simp] theorem moveTo_hs (st : SessionState) (ph : Phase) (r : Regs) : (moveTo st ph r).hs = r.hs := rfl
@[simp] theorem moveTo_cause (st : SessionState) (ph : Phase) (r : Regs) : (moveTo st ph r).cause = r.cause := rfl
@[simp] theorem moveTo_fstate (st : SessionState) (ph : Phase) (r : Regs) : (moveTo st ph r).fstate = r.fstate := rfl
@[simp] theorem moveTo_fidx (st : SessionState) (ph : Phase) (r : Regs) : (moveTo st ph r).fidx = r.fidx := rfl

/-! ### raiseFail -/

@[simp] theorem raiseFail_st (c : Cause) (r : Regs) : (raiseFail c r).st = .failed := rfl
@[simp] theorem raiseFail_ph (c : Cause) (r : Regs) : (raiseFail c r).ph = .send := rfl
@[simp] theorem raiseFail_idx (c : Cause) (r : Regs) : (raiseFail c r).idx = r.idx := rfl
@[simp] theorem raiseFail_len (c : Cause) (r : Regs) : (raiseFail c r).len = r.len := rfl
@[simp] theorem raiseFail_npages (c : Cause) (r : Regs) : (raiseFail c r).npages = r.npages := rfl
@[simp] theorem raiseFail_csum (c : Cause) (r : Regs) : (raiseFail c r).csum = r.csum := rfl
@[simp] theorem raiseFail_timer (c : Cause) (r : Regs) : (raiseFail c r).timer = 0 := rfl
@[simp] theorem raiseFail_rxb (c : Cause) (r : Regs) : (raiseFail c r).rxb = r.rxb := rfl
@[simp] theorem raiseFail_hs (c : Cause) (r : Regs) : (raiseFail c r).hs = r.hs := rfl
@[simp] theorem raiseFail_cause (c : Cause) (r : Regs) : (raiseFail c r).cause = c := rfl
@[simp] theorem raiseFail_fstate (c : Cause) (r : Regs) : (raiseFail c r).fstate = r.st := rfl
@[simp] theorem raiseFail_fidx (c : Cause) (r : Regs) : (raiseFail c r).fidx = r.idx := rfl

/-! ### latchStart -/

@[simp] theorem latchStart_st (l : Word) (r : Regs) : (latchStart l r).st = .idle := rfl
@[simp] theorem latchStart_ph (l : Word) (r : Regs) : (latchStart l r).ph = .send := rfl
@[simp] theorem latchStart_idx (l : Word) (r : Regs) : (latchStart l r).idx = 0 := rfl
@[simp] theorem latchStart_len (l : Word) (r : Regs) : (latchStart l r).len = l := rfl
@[simp] theorem latchStart_npages (l : Word) (r : Regs) : (latchStart l r).npages = pageCount l := rfl
@[simp] theorem latchStart_csum (l : Word) (r : Regs) : (latchStart l r).csum = 0 := rfl
@[simp] theorem latchStart_timer (l : Word) (r : Regs) : (latchStart l r).timer = 0 := rfl
@[simp] theorem latchStart_rxb (l : Word) (r : Regs) : (latchStart l r).rxb = 0 := rfl
@[simp] theorem latchStart_hs (l : Word) (r : Regs) : (latchStart l r).hs = .none := rfl
@[simp] theorem latchStart_cause (l : Word) (r : Regs) : (latchStart l r).cause = .none := rfl
@[simp] theorem latchStart_fstate (l : Word) (r : Regs) : (latchStart l r).fstate = .idle := rfl
@[simp] theorem latchStart_fidx (l : Word) (r : Regs) : (latchStart l r).fidx = 0 := rfl

/-! ### latchByte and latchTimeout -/

@[simp] theorem latchByte_st (b : Byte) (h : HsResult) (r : Regs) : (latchByte b h r).st = r.st := rfl
@[simp] theorem latchByte_ph (b : Byte) (h : HsResult) (r : Regs) : (latchByte b h r).ph = r.ph := rfl
@[simp] theorem latchByte_idx (b : Byte) (h : HsResult) (r : Regs) : (latchByte b h r).idx = r.idx := rfl
@[simp] theorem latchByte_len (b : Byte) (h : HsResult) (r : Regs) : (latchByte b h r).len = r.len := rfl
@[simp] theorem latchByte_npages (b : Byte) (h : HsResult) (r : Regs) : (latchByte b h r).npages = r.npages := rfl
@[simp] theorem latchByte_csum (b : Byte) (h : HsResult) (r : Regs) : (latchByte b h r).csum = r.csum := rfl
@[simp] theorem latchByte_timer (b : Byte) (h : HsResult) (r : Regs) : (latchByte b h r).timer = r.timer := rfl
@[simp] theorem latchByte_rxb (b : Byte) (h : HsResult) (r : Regs) : (latchByte b h r).rxb = b := rfl
@[simp] theorem latchByte_hs (b : Byte) (h : HsResult) (r : Regs) : (latchByte b h r).hs = h := rfl
@[simp] theorem latchByte_cause (b : Byte) (h : HsResult) (r : Regs) : (latchByte b h r).cause = r.cause := rfl
@[simp] theorem latchByte_fstate (b : Byte) (h : HsResult) (r : Regs) : (latchByte b h r).fstate = r.fstate := rfl
@[simp] theorem latchByte_fidx (b : Byte) (h : HsResult) (r : Regs) : (latchByte b h r).fidx = r.fidx := rfl

@[simp] theorem latchTimeout_st (r : Regs) : (latchTimeout r).st = r.st := rfl
@[simp] theorem latchTimeout_ph (r : Regs) : (latchTimeout r).ph = r.ph := rfl
@[simp] theorem latchTimeout_idx (r : Regs) : (latchTimeout r).idx = r.idx := rfl
@[simp] theorem latchTimeout_len (r : Regs) : (latchTimeout r).len = r.len := rfl
@[simp] theorem latchTimeout_npages (r : Regs) : (latchTimeout r).npages = r.npages := rfl
@[simp] theorem latchTimeout_csum (r : Regs) : (latchTimeout r).csum = r.csum := rfl
@[simp] theorem latchTimeout_timer (r : Regs) : (latchTimeout r).timer = r.timer := rfl
@[simp] theorem latchTimeout_rxb (r : Regs) : (latchTimeout r).rxb = r.rxb := rfl
@[simp] theorem latchTimeout_hs (r : Regs) : (latchTimeout r).hs = .timeout := rfl
@[simp] theorem latchTimeout_cause (r : Regs) : (latchTimeout r).cause = r.cause := rfl
@[simp] theorem latchTimeout_fstate (r : Regs) : (latchTimeout r).fstate = r.fstate := rfl
@[simp] theorem latchTimeout_fidx (r : Regs) : (latchTimeout r).fidx = r.fidx := rfl

/-! ### onRegs -/

@[simp] theorem onRegs_toRegs (f : Regs → Regs) (s : State) : (onRegs f s).toRegs = f s.toRegs := rfl
@[simp] theorem onRegs_rst (f : Regs → Regs) (s : State) : (onRegs f s).rst = s.rst := rfl
@[simp] theorem onRegs_start (f : Regs → Regs) (s : State) : (onRegs f s).start = s.start := rfl
@[simp] theorem onRegs_imgLen (f : Regs → Regs) (s : State) : (onRegs f s).imgLen = s.imgLen := rfl
@[simp] theorem onRegs_chOpen (f : Regs → Regs) (s : State) : (onRegs f s).chOpen = s.chOpen := rfl
@[simp] theorem onRegs_img (f : Regs → Regs) (s : State) : (onRegs f s).img = s.img := rfl
@[simp] theorem onRegs_wrAns (f : Regs → Regs) (s : State) : (onRegs f s).wrAns = s.wrAns := rfl
@[simp] theorem onRegs_rdAns (f : Regs → Regs) (s : State) : (onRegs f s).rdAns = s.rdAns := rfl
@[simp] theorem onRegs_trace (f : Regs → Regs) (s : State) : (onRegs f s).trace = s.trace := rfl

/-! ### record -/

@[simp] theorem record_toRegs (e : Event) (s : State) : (record e s).toRegs = s.toRegs := rfl
@[simp] theorem record_rst (e : Event) (s : State) : (record e s).rst = s.rst := rfl
@[simp] theorem record_start (e : Event) (s : State) : (record e s).start = s.start := rfl
@[simp] theorem record_imgLen (e : Event) (s : State) : (record e s).imgLen = s.imgLen := rfl
@[simp] theorem record_chOpen (e : Event) (s : State) : (record e s).chOpen = s.chOpen := rfl
@[simp] theorem record_img (e : Event) (s : State) : (record e s).img = s.img := rfl
@[simp] theorem record_wrAns (e : Event) (s : State) : (record e s).wrAns = s.wrAns := rfl
@[simp] theorem record_rdAns (e : Event) (s : State) : (record e s).rdAns = s.rdAns := rfl
@[simp] theorem record_trace (e : Event) (s : State) : (record e s).trace = s.trace ++ [e] := rfl

/-! ### chReadExact -/

@[simp] theorem chReadExact_toRegs (t : Ms) (s : State) : (chReadExact t s).2.toRegs = s.toRegs := rfl
@[simp] theorem chReadExact_rst (t : Ms) (s : State) : ((chReadExact t s).2).rst = s.rst := rfl
@[simp] theorem chReadExact_start (t : Ms) (s : State) : ((chReadExact t s).2).start = s.start := rfl
@[simp] theorem chReadExact_imgLen (t : Ms) (s : State) : ((chReadExact t s).2).imgLen = s.imgLen := rfl
@[simp] theorem chReadExact_chOpen (t : Ms) (s : State) : ((chReadExact t s).2).chOpen = s.chOpen := rfl
@[simp] theorem chReadExact_img (t : Ms) (s : State) : ((chReadExact t s).2).img = s.img := rfl
@[simp] theorem chReadExact_wrAns (t : Ms) (s : State) : ((chReadExact t s).2).wrAns = s.wrAns := rfl
@[simp] theorem chReadExact_rdAns (t : Ms) (s : State) : ((chReadExact t s).2).rdAns = s.rdAns.tail := rfl
@[simp] theorem chReadExact_trace (t : Ms) (s : State) : ((chReadExact t s).2).trace = s.trace ++ [.read t (nextRead s)] := rfl

/-! ### sleepFor -/

@[simp] theorem sleepFor_toRegs (ms : Ms) (s : State) : (sleepFor ms s).toRegs = s.toRegs := rfl
@[simp] theorem sleepFor_rst (ms : Ms) (s : State) : (sleepFor ms s).rst = s.rst := rfl
@[simp] theorem sleepFor_start (ms : Ms) (s : State) : (sleepFor ms s).start = s.start := rfl
@[simp] theorem sleepFor_imgLen (ms : Ms) (s : State) : (sleepFor ms s).imgLen = s.imgLen := rfl
@[simp] theorem sleepFor_chOpen (ms : Ms) (s : State) : (sleepFor ms s).chOpen = s.chOpen := rfl
@[simp] theorem sleepFor_img (ms : Ms) (s : State) : (sleepFor ms s).img = s.img := rfl
@[simp] theorem sleepFor_wrAns (ms : Ms) (s : State) : (sleepFor ms s).wrAns = s.wrAns := rfl
@[simp] theorem sleepFor_rdAns (ms : Ms) (s : State) : (sleepFor ms s).rdAns = s.rdAns := rfl
@[simp] theorem sleepFor_trace (ms : Ms) (s : State) : (sleepFor ms s).trace = s.trace ++ [.sleep ms] := rfl

/-! ### resetRegisters -/

@[simp] theorem resetRegisters_toRegs (s : State) : (resetRegisters s).toRegs = Regs.reset := rfl
@[simp] theorem resetRegisters_rst (s : State) : (resetRegisters s).rst = s.rst := rfl
@[simp] theorem resetRegisters_start (s : State) : (resetRegisters s).start = s.start := rfl
@[simp] theorem resetRegisters_imgLen (s : State) : (resetRegisters s).imgLen = s.imgLen := rfl
@[simp] theorem resetRegisters_chOpen (s : State) : (resetRegisters s).chOpen = s.chOpen := rfl
@[simp] theorem resetRegisters_img (s : State) : (resetRegisters s).img = s.img := rfl
@[simp] theorem resetRegisters_wrAns (s : State) : (resetRegisters s).wrAns = s.wrAns := rfl
@[simp] theorem resetRegisters_rdAns (s : State) : (resetRegisters s).rdAns = s.rdAns := rfl
@[simp] theorem resetRegisters_trace (s : State) : (resetRegisters s).trace = [] := rfl

/-! ### drive -/

/-- Everything the surroundings can do between two steps: the registers and the trace stay, and so do
the image and length of a run under way (R29, R36, R62). -/
theorem drive_next {e : Env} {s t : State} (h : drive e s = .next t) :
    t = { s with toEnv := e } ∧ (quiescent s.st = false → t.img = s.img ∧ t.imgLen = s.imgLen) := by
  unfold drive at h
  split at h
  · cases h
  · rename_i hc
    cases h
    exact ⟨rfl, fun hq => Decidable.by_contra fun hi => hc ⟨hq, hi⟩⟩

/-- The surroundings may set whatever they hold, but for the image and length of a run under way. -/
theorem drive_eq {e : Env} {s : State}
    (h : quiescent s.st = false → e.img = s.img ∧ e.imgLen = s.imgLen) :
    drive e s = .next { s with toEnv := e } := by
  unfold drive
  split
  · rename_i hc
    exact absurd (h hc.1) hc.2
  · rfl

/-- Another image, or another length, is refused while a run is under way (U12). -/
theorem drive_imageChanged {e : Env} {s : State} (hq : quiescent s.st = false)
    (hi : ¬ (e.img = s.img ∧ e.imgLen = s.imgLen)) : drive e s = .refused .imageChanged :=
  if_pos ⟨hq, hi⟩

end Sys2Proof.Machine
end

