-- ==== Sys2Proof/Laws/Ops.lean ====
section
/-! SUPPORT. What each shared operation can do, once: the image, the channel primitives, the positions,
and one inversion lemma per meaning of an operation. -/

namespace Sys2Proof.Machine

open Sys2Proof.Config

/-! ### The image -/

theorem wfFrom_mono {m : Memory} {lo lo' : Nat} (h : lo' ≤ lo) (hm : Memory.wfFrom lo m = true) :
    Memory.wfFrom lo' m = true := by
  cases m with
  | nil => rfl
  | cons c rest =>
    obtain ⟨k, b⟩ := c
    simp only [Memory.wfFrom, Bool.and_eq_true, decide_eq_true_eq] at hm ⊢
    exact ⟨⟨⟨by omega, hm.1.1.2⟩, hm.1.2⟩, hm.2⟩

/-- Below the first address of a canonical image nothing is listed. -/
theorem imgByte_of_lt {m : Memory} {lo a : Nat} (hm : Memory.wfFrom lo m = true) (h : a < lo) :
    imgByte m a = imgUnlisted := by
  induction m generalizing lo with
  | nil => rfl
  | cons c rest ih =>
    obtain ⟨k, b⟩ := c
    simp only [Memory.wfFrom, Bool.and_eq_true, decide_eq_true_eq] at hm
    rw [imgByte, if_neg (by omega)]
    exact ih hm.2 (by omega)

theorem imgPut_wfFrom {m : Memory} {lo a : Nat} {b : Byte} (hm : Memory.wfFrom lo m = true)
    (hlo : lo ≤ a) (ha : a < 2 ^ 32) : Memory.wfFrom lo (imgPut m a b) = true := by
  induction m generalizing lo with
  | nil =>
    unfold imgPut
    split
    · rfl
    · simp_all [Memory.wfFrom]
  | cons c rest ih =>
    obtain ⟨k, v⟩ := c
    simp only [Memory.wfFrom, Bool.and_eq_true, decide_eq_true_eq] at hm
    obtain ⟨⟨⟨hk, hk2⟩, hv⟩, hr⟩ := hm
    unfold imgPut
    split
    · split
      · simp only [Memory.wfFrom, Bool.and_eq_true, decide_eq_true_eq]
        exact ⟨⟨⟨hk, hk2⟩, hv⟩, hr⟩
      · rename_i h1 h2
        simp only [Memory.wfFrom, Bool.and_eq_true, decide_eq_true_eq]
        exact ⟨⟨⟨hlo, ha⟩, h2⟩, ⟨⟨by omega, hk2⟩, hv⟩, hr⟩
    · split
      · subst_vars
        split
        · exact wfFrom_mono (by omega) hr
        · rename_i h2
          simp only [Memory.wfFrom, Bool.and_eq_true, decide_eq_true_eq]
          exact ⟨⟨⟨hk, hk2⟩, h2⟩, hr⟩
      · simp only [Memory.wfFrom, Bool.and_eq_true, decide_eq_true_eq]
        exact ⟨⟨⟨hk, hk2⟩, hv⟩, ih hr (by omega)⟩

/-- Putting a byte keeps the canonical form. -/
theorem imgPut_wf {m : Memory} {a : Nat} {b : Byte} (hm : m.wf = true) (ha : a < 2 ^ 32) :
    Memory.wf (imgPut m a b) = true := imgPut_wfFrom hm (by omega) ha

/-- Putting bytes keeps the canonical form. -/
theorem imgPutAll_wf {bs : List Byte} {m : Memory} {a : Nat} (hm : m.wf = true)
    (ha : a + bs.length ≤ 2 ^ 32) : Memory.wf (imgPutAll m a bs) = true := by
  induction bs generalizing m a with
  | nil => exact hm
  | cons b bs ih =>
    simp only [List.length_cons] at ha
    exact ih (imgPut_wf hm (by omega)) (by omega)

theorem reset_img_wf : State.reset.img.wf = true := rfl

theorem imgByte_imgPut_from {m : Memory} {lo a : Nat} {b : Byte} (hm : Memory.wfFrom lo m = true)
    (a' : Nat) : imgByte (imgPut m a b) a' = if a' = a then b else imgByte m a' := by
  induction m generalizing lo with
  | nil =>
    unfold imgPut
    split
    · rename_i h
      simp [imgByte, h]
    · by_cases h : a' = a
      · simp [imgByte, h]
      · simp [imgByte, h, Ne.symm h]
  | cons c rest ih =>
    obtain ⟨k, v⟩ := c
    simp only [Memory.wfFrom, Bool.and_eq_true, decide_eq_true_eq] at hm
    have hr := hm.2
    unfold imgPut
    split
    · split
      · split
        · subst_vars
          rw [imgByte, if_neg (by omega), imgByte_of_lt hr (by omega)]
        · rfl
      · by_cases h : a' = a
        · simp [imgByte, h]
        · rw [imgByte, if_neg (by omega), if_neg h]
    · split
      · subst_vars
        split
        · split
          · subst_vars
            exact imgByte_of_lt hr (by omega)
          · rw [imgByte, if_neg (by omega)]
        · by_cases h : a' = k
          · simp [imgByte, h]
          · rw [imgByte, if_neg (by omega), if_neg h, imgByte, if_neg (by omega)]
      · by_cases h : k = a'
        · subst h
          simp [imgByte]
          omega
        · rw [imgByte, if_neg h, ih hr, imgByte, if_neg h]

/-- Reading after putting: the byte put, at its address; every other byte as before. -/
theorem imgByte_imgPut {m : Memory} (hm : m.wf = true) (a : Nat) (b : Byte) (a' : Nat) :
    imgByte (imgPut m a b) a' = if a' = a then b else imgByte m a' := imgByte_imgPut_from hm a'

theorem imgByte_imgPutAll_of_lt {bs : List Byte} {m : Memory} {a x : Nat} (hm : m.wf = true)
    (ha : a + bs.length ≤ 2 ^ 32) (hx : x < a) : imgByte (imgPutAll m a bs) x = imgByte m x := by
  induction bs generalizing m a with
  | nil => rfl
  | cons b bs ih =>
    simp only [List.length_cons] at ha
    rw [imgPutAll, ih (imgPut_wf hm (by omega)) (by omega) (by omega), imgByte_imgPut hm,
      if_neg (by omega)]

@[simp] theorem imgBytes_length (m : Memory) (a k : Nat) : (imgBytes m a k).length = k := by
  induction k generalizing a with
  | zero => rfl
  | succ k ih => simp [imgBytes, ih]

theorem imgBytes_getElem? (m : Memory) (a k j : Nat) :
    (imgBytes m a k)[j]? = if j < k then some (imgByte m (a + j)) else none := by
  induction k generalizing a j with
  | zero => simp [imgBytes]
  | succ k ih =>
    cases j with
    | zero => simp [imgBytes]
    | succ j => simp [imgBytes, ih, Nat.add_comm, Nat.add_left_comm]

/-- One byte more. -/
theorem imgBytes_succ (m : Memory) (a k : Nat) :
    imgBytes m a (k + 1) = imgBytes m a k ++ [imgByte m (a + k)] := by
  induction k generalizing a with
  | zero => rfl
  | succ k ih =>
    rw [imgBytes, ih (a + 1)]
    simp [imgBytes, Nat.add_comm, Nat.add_left_comm]

/-- Reading back the bytes that were put. -/
theorem imgBytes_imgPutAll {bs : List Byte} {m : Memory} {a : Nat} (hm : m.wf = true)
    (ha : a + bs.length ≤ 2 ^ 32) : imgBytes (imgPutAll m a bs) a bs.length = bs := by
  induction bs generalizing m a with
  | nil => rfl
  | cons b bs ih =>
    simp only [List.length_cons] at ha ⊢
    have h := imgPut_wf (b := b) hm (show a < 2 ^ 32 by omega)
    rw [imgBytes, imgPutAll, ih h (by omega), imgByte_imgPutAll_of_lt h (by omega) (by omega),
      imgByte_imgPut hm, if_pos rfl]

/-! ### Pages -/

theorem pageAddress_toNat (i : PageIdx) : (pageAddress i).toNat = i.toNat * 128 := by
  have h := i.isLt
  simp only [pageAddress, cfg_pageSize, BitVec.toNat_mul, BitVec.toNat_setWidth, BitVec.toNat_ofNat]
  omega

theorem pageCount_toNat (len : Word) : (pageCount len).toNat = (len.toNat + 127) / 128 := by
  have h := len.isLt
  simp only [pageCount, cfg_pageSize, BitVec.toNat_ofNat]
  omega

/-- A page exists exactly where its address lies inside the image. -/
theorem lt_pageCount_iff (len : Word) (i : Nat) :
    i < (pageCount len).toNat ↔ i * 128 < len.toNat := by
  rw [pageCount_toNat]
  omega

theorem padPage_length {bs : List Byte} (h : bs.length ≤ 128) : (padPage bs).length = 128 := by
  simp [padPage]
  omega

/-- The payload of a page inside the image. -/
theorem pagePayload_eq {m : Memory} {len : Word} {i : PageIdx} (h : i.toNat * 128 < len.toNat) :
    pagePayload m len i =
      some (padPage (imgBytes m (i.toNat * 128) (min 128 (len.toNat - i.toNat * 128)))) := by
  simp only [pagePayload, pageLength, pageAddress_toNat, cfg_pageSize, memRead]
  rw [if_pos (by omega)]
  rfl

theorem pagePayload_none {m : Memory} {len : Word} {i : PageIdx} (h : len.toNat ≤ i.toNat * 128) :
    pagePayload m len i = none := by
  simp only [pagePayload, pageLength, pageAddress_toNat, cfg_pageSize, memRead]
  rw [if_neg (by omega), Option.map_none]

/-- A payload is there only for a page inside the image. -/
theorem pagePayload_some {m : Memory} {len : Word} {i : PageIdx} {p : List Byte}
    (h : pagePayload m len i = some p) :
    i.toNat * 128 < len.toNat ∧
      p = padPage (imgBytes m (i.toNat * 128) (min 128 (len.toNat - i.toNat * 128))) := by
  by_cases hi : i.toNat * 128 < len.toNat
  · rw [pagePayload_eq hi] at h
    exact ⟨hi, (Option.some.inj h).symm⟩
  · rw [pagePayload_none (by omega)] at h
    cases h

theorem pageAddress_ofNat (i : PageIdx) : BitVec.ofNat 32 (i.toNat * 128) = pageAddress i := by
  apply BitVec.eq_of_toNat_eq
  rw [pageAddress_toNat, BitVec.toNat_ofNat]
  have := i.isLt
  omega

/-- The frame of the procedure R198 is the frame WRITE_PAGE assembles. -/
theorem procFrame_eq {m : Memory} {len : Word} {i : PageIdx} {p : List Byte}
    (h : pagePayload m len i = some p) :
    procFrame m len i.toNat = pageFrame (pageAddress i) p := by
  obtain ⟨-, rfl⟩ := pagePayload_some h
  simp [procFrame, pageFrame, padPage, pageAddress_ofNat]

@[simp] theorem be32_length (v : Word) : (be32 v).length = 4 := rfl

theorem procFrame_length (m : Memory) (len : Word) (i : Nat) : (procFrame m len i).length = 133 := by
  simp [procFrame]

/-! ### The channel -/

/-- Everything a sent frame can do: wait for the call to return, change the registers, or fail. -/
theorem sendFrame_cases (bytes : List Byte) (f : Regs → Regs) (s : State) :
    (s.wrAns = [] ∧ sendFrame bytes f s = s) ∨
    (∃ rest, s.wrAns = true :: rest ∧ sendFrame bytes f s =
      { s with toRegs := f s.toRegs, wrAns := rest, trace := s.trace ++ [.write bytes true] }) ∨
    (∃ rest, s.wrAns = false :: rest ∧ sendFrame bytes f s =
      { s with
        toRegs := raiseFail .shortWrite s.toRegs, wrAns := rest,
        trace := s.trace ++ [.write bytes false] }) := by
  rcases h : s.wrAns with _ | ⟨a, rest⟩
  · exact .inl ⟨rfl, by simp [sendFrame, chWrite, h]⟩
  · cases a
    · exact .inr (.inr ⟨rest, rfl, by simp [sendFrame, chWrite, h, onRegs, record]⟩)
    · exact .inr (.inl ⟨rest, rfl, by simp [sendFrame, chWrite, h, onRegs, record]⟩)

theorem sendUnchecked_cases (bytes : List Byte) (f : Regs → Regs) (s : State) :
    (s.wrAns = [] ∧ sendUnchecked bytes f s = s) ∨
    (∃ a rest, s.wrAns = a :: rest ∧ sendUnchecked bytes f s =
      { s with toRegs := f s.toRegs, wrAns := rest, trace := s.trace ++ [.write bytes a] }) := by
  rcases h : s.wrAns with _ | ⟨a, rest⟩
  · exact .inl ⟨rfl, by simp [sendUnchecked, chWrite, h]⟩
  · exact .inr ⟨a, rest, rfl, by simp [sendUnchecked, chWrite, h, onRegs, record]⟩

/-- The positions at which a handshake is performed. -/
theorem awaiting_eq_some {r : Regs} {t : Ms} :
    awaiting r = some t ↔
      r.ph = .wait ∧ waitTimeout r.st = some t ∧ (r.st = .writingPages → inPages r = true) := by
  unfold awaiting legalPosition
  cases hst : r.st <;> cases hph : r.ph <;> simp [waitTimeout, and_comm]

/-- Everything a received byte can do. -/
theorem receive_next {b : Byte} {h : HsResult} {f : Regs → Regs} {s t : State}
    (e : receive b h f s = .next t) :
    ∃ T, awaiting s.toRegs = some T ∧ nextRead s = some b ∧
      t = { s with
        toRegs := f (latchByte b h s.toRegs), rdAns := s.rdAns.tail,
        trace := s.trace ++ [.read T (some b)] } := by
  unfold receive at e
  split at e
  · cases e
  · rename_i T hT
    split at e
    · rename_i hb
      cases e
      exact ⟨T, hT, hb, by simp [onRegs, chReadExact, record, hb]⟩
    · cases e

/-- A byte is received where one is awaited and the channel hands it over. -/
theorem receive_eq {b : Byte} {h : HsResult} {f : Regs → Regs} {s : State} {T : Ms}
    (hT : awaiting s.toRegs = some T) (hb : nextRead s = some b) :
    receive b h f s = .next { s with
      toRegs := f (latchByte b h s.toRegs), rdAns := s.rdAns.tail,
      trace := s.trace ++ [.read T (some b)] } := by
  simp [receive, hT, hb, onRegs, chReadExact, record]

/-! ### The sequencer -/

/-- R189's comparison, on numbers: it cannot wrap. -/
theorem morePages_iff (r : Regs) : morePages r = true ↔ r.idx.toNat + 1 < r.npages.toNat := by
  have hi := r.idx.isLt
  have h1 : (1 : PageCount).toNat = 1 := rfl
  simp only [morePages, decide_eq_true_eq, BitVec.lt_def, BitVec.toNat_add, BitVec.toNat_setWidth, h1]
  omega

/-- Where an acknowledged handshake leads, at the positions that have one. -/
theorem advance_cases {r : Regs} {t : Ms} (h : waitTimeout r.st = some t) (sum : Word) :
    (r.st = .enteringBootloader ∧ advance sum r = moveTo .erasing .send r) ∨
    (r.st = .erasing ∧ advance sum r = moveTo .writingPages .send { r with idx := 0 }) ∨
    (r.st = .writingPages ∧ r.idx.toNat + 1 < r.npages.toNat ∧
      advance sum r = moveTo .writingPages .send { r with idx := r.idx + 1 }) ∨
    (r.st = .writingPages ∧ ¬ r.idx.toNat + 1 < r.npages.toNat ∧
      advance sum r = moveTo .verifying .send { r with csum := sum }) ∨
    (r.st = .verifying ∧ advance sum r = moveTo .exitingBootloader .send r) := by
  have hm := morePages_iff r
  cases hs : r.st <;> simp [hs, waitTimeout] at h <;> simp only [advance, hs, reduceCtorEq, false_and,
    true_and, false_or, or_false]
  by_cases hp : r.idx.toNat + 1 < r.npages.toNat
  · exact .inl ⟨hp, if_pos (hm.2 hp)⟩
  · exact .inr ⟨hp, if_neg (fun h => hp (hm.1 h))⟩

@[simp] theorem advance_len (sum : Word) (r : Regs) : (advance sum r).len = r.len := by
  unfold advance
  split <;> (try split) <;> rfl

@[simp] theorem advance_npages (sum : Word) (r : Regs) : (advance sum r).npages = r.npages := by
  unfold advance
  split <;> (try split) <;> rfl

@[simp] theorem advance_rxb (sum : Word) (r : Regs) : (advance sum r).rxb = r.rxb := by
  unfold advance
  split <;> (try split) <;> rfl

@[simp] theorem advance_hs (sum : Word) (r : Regs) : (advance sum r).hs = r.hs := by
  unfold advance
  split <;> (try split) <;> rfl

@[simp] theorem advance_cause (sum : Word) (r : Regs) : (advance sum r).cause = r.cause := by
  unfold advance
  split <;> (try split) <;> rfl

@[simp] theorem advance_fstate (sum : Word) (r : Regs) : (advance sum r).fstate = r.fstate := by
  unfold advance
  split <;> (try split) <;> rfl

@[simp] theorem advance_fidx (sum : Word) (r : Regs) : (advance sum r).fidx = r.fidx := by
  unfold advance
  split <;> (try split) <;> rfl

@[simp] theorem afterSleep_idx (r : Regs) : (afterSleep r).idx = r.idx := by
  unfold afterSleep
  split <;> rfl

@[simp] theorem afterSleep_csum (r : Regs) : (afterSleep r).csum = r.csum := by
  unfold afterSleep
  split <;> rfl

@[simp] theorem afterSleep_len (r : Regs) : (afterSleep r).len = r.len := by
  unfold afterSleep
  split <;> rfl

@[simp] theorem afterSleep_npages (r : Regs) : (afterSleep r).npages = r.npages := by
  unfold afterSleep
  split <;> rfl

@[simp] theorem afterSleep_rxb (r : Regs) : (afterSleep r).rxb = r.rxb := by
  unfold afterSleep
  split <;> rfl

@[simp] theorem afterSleep_hs (r : Regs) : (afterSleep r).hs = r.hs := by
  unfold afterSleep
  split <;> rfl

@[simp] theorem afterSleep_cause (r : Regs) : (afterSleep r).cause = r.cause := by
  unfold afterSleep
  split <;> rfl

@[simp] theorem afterSleep_fstate (r : Regs) : (afterSleep r).fstate = r.fstate := by
  unfold afterSleep
  split <;> rfl

@[simp] theorem afterSleep_fidx (r : Regs) : (afterSleep r).fidx = r.fidx := by
  unfold afterSleep
  split <;> rfl

/-! ### Classification -/

theorem classify_ok {b : Byte} : classify b = .ok ↔ b = cfg.rspAck := by
  unfold classify
  repeat (first | split | simp_all)

theorem classify_nack {b : Byte} : classify b = .nack ↔ b = cfg.rspNack := by
  unfold classify
  split
  · subst_vars
    decide
  · split <;> simp_all

theorem classify_malformed {b : Byte} : classify b = .malformed ↔ isForeign b = true := by
  unfold classify isForeign
  split
  · simp_all
  · split <;> simp_all

theorem classify_cases (b : Byte) :
    classify b = .ok ∨ classify b = .nack ∨ classify b = .malformed := by
  unfold classify
  split
  · simp
  · split <;> simp

/-! ### One inversion lemma per meaning -/

theorem execEnter_next {s t : State} (e : execEnter s = .next t) :
    s.st = .enteringBootloader ∧ s.ph = .send ∧
      t = sendFrame [cfg.opEnter] (moveTo .enteringBootloader .settle) s := by
  unfold execEnter at e
  split at e
  · cases e
    exact ⟨‹_ ∧ _›.1, ‹_ ∧ _›.2, rfl⟩
  · cases e

theorem execErase_next {s t : State} (e : execErase s = .next t) :
    s.st = .erasing ∧ s.ph = .send ∧ t = sendFrame [cfg.opErase] (moveTo .erasing .wait) s := by
  unfold execErase at e
  split at e
  · cases e
    exact ⟨‹_ ∧ _›.1, ‹_ ∧ _›.2, rfl⟩
  · cases e

theorem execVerify_next {s t : State} (e : execVerify s = .next t) :
    s.st = .verifying ∧ s.ph = .send ∧ t = sendFrame [cfg.opVerify] (moveTo .verifying .send2) s := by
  unfold execVerify at e
  split at e
  · cases e
    exact ⟨‹_ ∧ _›.1, ‹_ ∧ _›.2, rfl⟩
  · cases e

theorem execChecksum_next {c : Word} {s t : State} (e : execChecksum c s = .next t) :
    s.st = .verifying ∧ s.ph = .send2 ∧ c = s.csum ∧
      t = sendFrame (be32 s.csum) (moveTo .verifying .wait) s := by
  unfold execChecksum at e
  split at e
  · rename_i h
    cases e
    exact ⟨h.1, h.2.1, h.2.2, rfl⟩
  · cases e

theorem execExit_next {s t : State} (e : execExit s = .next t) :
    s.st = .exitingBootloader ∧ s.ph = .send ∧
      t = sendUnchecked [cfg.opExit] (moveTo .exitingBootloader .settle) s := by
  unfold execExit at e
  split at e
  · cases e
    exact ⟨‹_ ∧ _›.1, ‹_ ∧ _›.2, rfl⟩
  · cases e

theorem execWritePage_next {addr : Word} {payload : List Byte} {s t : State}
    (e : execWritePage addr payload s = .next t) :
    s.st = .writingPages ∧ s.ph = .send ∧ inPages s.toRegs = true ∧ addr = pageAddress s.idx ∧
      pagePayload s.img s.len s.idx = some payload ∧
      t = sendFrame (pageFrame addr payload) (moveTo .writingPages .wait) s := by
  unfold execWritePage at e
  split at e
  · rename_i h
    split at e
    · cases e
    · rename_i bytes hp
      split at e
      · rename_i hb
        obtain ⟨rfl, rfl⟩ := hb
        cases e
        exact ⟨h.1, h.2.1, h.2.2, rfl, hp, rfl⟩
      · cases e
  · cases e

theorem execSleep_next {ms : Ms} {s t : State} (e : execSleep ms s = .next t) :
    s.ph = .settle ∧ settleDelay s.st = some ms ∧
      t = { s with toRegs := afterSleep s.toRegs, trace := s.trace ++ [.sleep ms] } := by
  unfold execSleep at e
  split at e
  · rename_i h
    cases e
    exact ⟨h.1, h.2, rfl⟩
  · cases e

/-- Everything AWAIT_ACK can do: the timeout, or the response it is handed. -/
theorem execAwaitAck_next {T : Ms} {s t : State} (e : execAwaitAck T s = .next t) :
    awaiting s.toRegs = some T ∧
    ((nextRead s = none ∧ t = { s with
        toRegs := raiseFail .timeout (latchTimeout s.toRegs), rdAns := s.rdAns.tail,
        trace := s.trace ++ [.read T none] }) ∨
      ∃ b, nextRead s = some b ∧
        ((classify b = .ok ∧ execAck s = .next t) ∨ (classify b = .nack ∧ execNack s = .next t) ∨
          (classify b = .malformed ∧ execMalformed b s = .next t))) := by
  unfold execAwaitAck at e
  split at e
  · rename_i hT
    refine ⟨hT, ?_⟩
    split at e
    · rename_i hn
      cases e
      exact .inl ⟨hn, by simp [onRegs, chReadExact, record, hn]⟩
    · rename_i b hb
      refine .inr ⟨b, hb, ?_⟩
      rcases classify_cases b with h | h | h <;> simp only [h] at e <;> simp [h, e]
  · cases e

/-- What an accepted start does, in its three cases (R180). -/
theorem acceptStart_cases (s : State) :
    (s.imgLen = 0 ∧ acceptStart s = { s with
      toRegs := raiseFail .emptyImage (latchStart s.imgLen s.toRegs), trace := [] }) ∨
    (s.imgLen ≠ 0 ∧ s.chOpen = false ∧ acceptStart s = { s with
      toRegs := raiseFail .channelClosed (latchStart s.imgLen s.toRegs), trace := [.isOpen false] }) ∨
    (s.imgLen ≠ 0 ∧ s.chOpen = true ∧ acceptStart s = { s with
      toRegs := moveTo .enteringBootloader .send (latchStart s.imgLen s.toRegs),
      trace := [.isOpen true] }) := by
  by_cases h0 : s.imgLen = 0
  · refine .inl ⟨h0, ?_⟩
    simp only [acceptStart, onRegs, latchStart_len]
    exact if_pos h0
  · cases hc : s.chOpen
    · refine .inr (.inl ⟨h0, rfl, ?_⟩)
      simpa [acceptStart, onRegs, chIsOpen, record, hc] using h0
    · refine .inr (.inr ⟨h0, rfl, ?_⟩)
      simpa [acceptStart, onRegs, chIsOpen, record, hc] using h0

theorem execUpload_next {s t : State} (e : execUpload s = .next t) :
    (quiescent s.st = false ∧ t = s) ∨
      (quiescent s.st = true ∧ s.ph = .send ∧ t = acceptStart s) := by
  unfold execUpload at e
  split at e
  · cases e
    exact .inl ⟨‹_›, rfl⟩
  · rename_i h
    split at e
    · cases e
      exact .inr ⟨by simpa using h, ‹_›, rfl⟩
    · cases e

end Sys2Proof.Machine
end

