-- ==== Sys2Proof/Laws/Codec.lean ====
section
/-! SUPPORT. The byte order of the codec in both directions, and that the frame of a page that exists is
well formed. -/

namespace Sys2Proof.Machine

open Sys2Proof.Config

/-- Four bytes put together again are the value they were taken from. -/
theorem ofBe32_be32 (v : Word) :
    ofBe32 (v.extractLsb' 24 8) (v.extractLsb' 16 8) (v.extractLsb' 8 8) (v.extractLsb' 0 8) = v := by
  apply BitVec.eq_of_toNat_eq
  simp only [ofBe32, BitVec.toNat_append, BitVec.extractLsb'_toNat, Nat.shiftRight_eq_div_pow]
  have := v.isLt
  rw [← Nat.shiftLeft_add_eq_or_of_lt (by omega), ← Nat.shiftLeft_add_eq_or_of_lt (by omega),
    ← Nat.shiftLeft_add_eq_or_of_lt (by omega)]
  simp only [Nat.shiftLeft_eq]
  omega

/-- The value of four big-endian bytes. -/
theorem ofBe32_toNat (a b c d : Byte) :
    (ofBe32 a b c d).toNat = a.toNat * 2 ^ 24 + b.toNat * 2 ^ 16 + c.toNat * 2 ^ 8 + d.toNat := by
  have := b.isLt
  have := c.isLt
  have := d.isLt
  simp only [ofBe32, BitVec.toNat_append]
  rw [← Nat.shiftLeft_add_eq_or_of_lt (by omega), ← Nat.shiftLeft_add_eq_or_of_lt (by omega),
    ← Nat.shiftLeft_add_eq_or_of_lt (by omega)]
  simp only [Nat.shiftLeft_eq]
  omega

/-- The bytes of the value of four bytes are those bytes. -/
theorem be32_ofBe32 (a b c d : Byte) : be32 (ofBe32 a b c d) = [a, b, c, d] := by
  have := a.isLt
  have := b.isLt
  have := c.isLt
  have := d.isLt
  simp only [be32, List.cons.injEq, and_true]
  refine ⟨?_, ?_, ?_, ?_⟩ <;> apply BitVec.eq_of_toNat_eq <;>
    rw [BitVec.extractLsb'_toNat, ofBe32_toNat, Nat.shiftRight_eq_div_pow] <;> omega

/-- A page address is the address of the page its upper bits number. -/
theorem pageAddress_of_aligned {addr : Word} (h : pageAligned addr = true) :
    pageAddress (addr.extractLsb' 7 25) = addr := by
  apply BitVec.eq_of_toNat_eq
  rw [pageAddress_toNat]
  simp only [pageAligned, cfg_pageSize, beq_iff_eq] at h
  simp only [BitVec.extractLsb'_toNat, Nat.shiftRight_eq_div_pow]
  have := addr.isLt
  omega

/-- The address and payload of a page that exists meet the operand checks. -/
theorem pagePayload_wellFormed {m : Memory} {len : Word} {i : PageIdx} {p : List Byte}
    (h : pagePayload m len i = some p) : (Instr.writePage (pageAddress i) p).wellFormed = true := by
  obtain ⟨h1, rfl⟩ := pagePayload_some h
  simp only [Instr.wellFormed, Bool.and_eq_true]
  constructor
  · simp [pageAligned, pageAddress_toNat]
  · simp only [payloadFits, Bool.and_eq_true, Bool.or_eq_true, beq_iff_eq, bne_iff_ne, ne_eq]
    refine ⟨padPage_length (by simp), ?_⟩
    by_cases h2 : pageAddress i = 0xFFFFFF80
    · right
      have h3 : i.toNat * 128 = 4294967168 := by rw [← pageAddress_toNat, h2]; rfl
      have := len.isLt
      rw [padPage, List.getD_eq_getElem?_getD, List.getElem?_append_right (by simp; omega),
        List.getElem?_replicate, if_pos (by simp; omega)]
      rfl
    · exact .inl h2

end Sys2Proof.Machine
end

