-- ==== Sys2Proof/Laws/PerInstr.lean ====
section
/-! SUPPORT. What holds of every operation as syntax, one lemma per constructor: the length of its
encoding is the number of bytes R78 gives it on the wire. -/

namespace Sys2Proof.Laws.EncodeLength

/-- The encoding of a well-formed operation has the wire length of R78's table. -/
def Statement (i : Instr) : Prop := i.wellFormed = true → (encode i).length = i.wireLength

theorem enter : Statement .enter := fun _ => rfl

theorem erase : Statement .erase := fun _ => rfl

theorem writePage (addr : Word) (payload : List Byte) : Statement (.writePage addr payload) := by
  intro h
  simp only [Instr.wellFormed, payloadFits, Bool.and_eq_true, beq_iff_eq] at h
  simp [encode, be32, Instr.wireLength, h.2.1]

theorem verify : Statement .verify := fun _ => rfl

theorem checksum (c : Word) : Statement (.checksum c) := fun _ => rfl

theorem exit : Statement .exit := fun _ => rfl

theorem ack : Statement .ack := fun _ => rfl

theorem nack : Statement .nack := fun _ => rfl

theorem malformed (b : Byte) : Statement (.malformed b) := fun _ => rfl

theorem awaitAck (t : Ms) : Statement (.awaitAck t) := fun _ => rfl

theorem sleep (ms : Ms) : Statement (.sleep ms) := fun _ => rfl

theorem upload : Statement .upload := fun _ => rfl

end Sys2Proof.Laws.EncodeLength
end

