-- ==== Sys2Proof/Laws/Step.lean ====
section
/-! SUPPORT. Everything one step can do, said once, in the terms of the transition functions of
Machine/Sequencer.lean: `step_inv` takes a step apart, the `step_…` lemmas put one together. -/

namespace Sys2Proof.Machine

open Sys2Proof.Config

/-- The state after a write call that answered `a`. -/
def wroteState (bytes : List Byte) (a : Bool) (rest : List Bool) (s : State) : State :=
  { s with
    toRegs := afterWrite a s.toRegs, wrAns := rest, trace := s.trace ++ [.write bytes a] }

/-- The state after a settle delay. -/
def sleptState (ms : Ms) (s : State) : State :=
  { s with toRegs := afterSleep s.toRegs, trace := s.trace ++ [.sleep ms] }

/-- The state after a handshake. -/
def readState (t : Ms) (s : State) : State :=
  { s with
    toRegs := afterRead (nextRead s) (checksumOf s.img s.len.toNat) s.toRegs
    rdAns := s.rdAns.tail
    trace := s.trace ++ [.read t (nextRead s)] }

/-- The seven things a step can do. -/
inductive StepCase (s : State) : State → Prop where
  | reset (h : s.rst = true) : StepCase s (resetRegisters s)
  | quiet (hr : s.rst = false) (hq : quiescent s.st = true) (hp : s.ph = .send)
      (hs : s.start = false) : StepCase s s
  | start (hr : s.rst = false) (hq : quiescent s.st = true) (hp : s.ph = .send)
      (hs : s.start = true) : StepCase s (acceptStart s)
  | pending (hr : s.rst = false) (bytes : List Byte) (hf : frameAt s = some bytes)
      (hw : s.wrAns = []) : StepCase s s
  | wrote (hr : s.rst = false) (bytes : List Byte) (a : Bool) (rest : List Bool)
      (hf : frameAt s = some bytes) (hw : s.wrAns = a :: rest) :
      StepCase s (wroteState bytes a rest s)
  | slept (hr : s.rst = false) (ms : Ms) (hp : s.ph = .settle) (hd : settleDelay s.st = some ms) :
      StepCase s (sleptState ms s)
  | read (hr : s.rst = false) (t : Ms) (ha : awaiting s.toRegs = some t) :
      StepCase s (readState t s)

theorem frameAt_st {s : State} {bytes : List Byte} (h : frameAt s = some bytes) :
    (s.st = .enteringBootloader ∧ s.ph = .send) ∨ (s.st = .erasing ∧ s.ph = .send) ∨
    (s.st = .writingPages ∧ s.ph = .send) ∨ (s.st = .verifying ∧ s.ph = .send) ∨
    (s.st = .verifying ∧ s.ph = .send2) ∨ (s.st = .exitingBootloader ∧ s.ph = .send) := by
  cases hs : s.st <;> cases hp : s.ph <;> simp [frameAt, hs, hp] at h ⊢

/-- The commands' own arcs are the table's. -/
theorem sendFrame_case {s : State} {bytes : List Byte} {st : SessionState} {ph : Phase}
    (hr : s.rst = false) (hf : frameAt s = some bytes)
    (ht : afterWrite true s.toRegs = moveTo st ph s.toRegs)
    (hx : afterWrite false s.toRegs = raiseFail .shortWrite s.toRegs) :
    StepCase s (sendFrame bytes (moveTo st ph) s) := by
  rcases sendFrame_cases bytes (moveTo st ph) s with ⟨hw, e⟩ | ⟨rest, hw, e⟩ | ⟨rest, hw, e⟩
  · rw [e]
    exact .pending hr bytes hf hw
  · have := StepCase.wrote hr bytes true rest hf hw
    rw [wroteState, ht] at this
    rw [e]
    exact this
  · have := StepCase.wrote hr bytes false rest hf hw
    rw [wroteState, hx] at this
    rw [e]
    exact this

theorem sendUnchecked_case {s : State} {bytes : List Byte} {st : SessionState} {ph : Phase}
    (hr : s.rst = false) (hf : frameAt s = some bytes)
    (ht : ∀ a, afterWrite a s.toRegs = moveTo st ph s.toRegs) :
    StepCase s (sendUnchecked bytes (moveTo st ph) s) := by
  rcases sendUnchecked_cases bytes (moveTo st ph) s with ⟨hw, e⟩ | ⟨a, rest, hw, e⟩
  · rw [e]
    exact .pending hr bytes hf hw
  · have := StepCase.wrote hr bytes a rest hf hw
    rw [wroteState, ht] at this
    rw [e]
    exact this

/-- The waiter's own arcs are the table's. -/
theorem execAwaitAck_eq {s : State} {t : Ms} (h : awaiting s.toRegs = some t) :
    execAwaitAck t s = .next (readState t s) := by
  unfold execAwaitAck
  rw [if_pos h]
  rcases hn : nextRead s with _ | b
  · simp [onRegs, chReadExact, record, readState, afterRead, hn]
  · rcases classify_cases b with hc | hc | hc
    · have hb := classify_ok.1 hc
      subst hb
      simp only [hc]
      refine (receive_eq h hn).trans ?_
      simp only [readState, hn, afterRead, hc]
    · have hb := classify_nack.1 hc
      subst hb
      simp only [hc]
      refine (receive_eq h hn).trans ?_
      simp only [readState, hn, afterRead, hc]
    · simp only [hc, execMalformed, if_pos]
      refine (receive_eq h hn).trans ?_
      simp only [readState, hn, afterRead, hc]

theorem settleDelay_some {st : SessionState} {ms : Ms} (h : settleDelay st = some ms) :
    (st = .enteringBootloader ∨ st = .exitingBootloader) ∧ ms = 100 := by
  cases st <;> simp [settleDelay] at h <;> simp [h]

/-- The operation a position selects. -/
theorem select_op {s : State} {i : Instr} (h : select s = .op i) :
    (quiescent s.st = true ∧ s.ph = .send ∧ s.start = true ∧ i = .upload) ∨
    (s.ph = .settle ∧ settleDelay s.st = some 100 ∧ i = .sleep 100) ∨
    (∃ t, awaiting s.toRegs = some t ∧ i = .awaitAck t) ∨
    (frameAt s = some (encode i) ∧
      ((s.st = .enteringBootloader ∧ s.ph = .send ∧ i = .enter) ∨
        (s.st = .erasing ∧ s.ph = .send ∧ i = .erase) ∨
        (s.st = .writingPages ∧ s.ph = .send ∧ inPages s.toRegs = true ∧
          ∃ p, pagePayload s.img s.len s.idx = some p ∧ i = .writePage (pageAddress s.idx) p) ∨
        (s.st = .verifying ∧ s.ph = .send ∧ i = .verify) ∨
        (s.st = .verifying ∧ s.ph = .send2 ∧ i = .checksum s.csum) ∨
        (s.st = .exitingBootloader ∧ s.ph = .send ∧ i = .exit))) := by
  have aw : ∀ {t}, s.ph = .wait → waitTimeout s.st = some t →
      (s.st = .writingPages → inPages s.toRegs = true) → awaiting s.toRegs = some t :=
    fun h1 h2 h3 => awaiting_eq_some.2 ⟨h1, h2, h3⟩
  cases hs : s.st <;> cases hp : s.ph <;> simp only [select, hs, hp, reduceCtorEq] at h
  case writingPages.send =>
    split at h
    · rename_i hi
      unfold selectPage at h
      split at h
      · rename_i p hpp
        cases h
        exact .inr (.inr (.inr ⟨by simp [frameAt, hs, hp, procFrame_eq hpp, encode, pageFrame],
          .inr (.inr (.inl ⟨rfl, rfl, hi, p, hpp, rfl⟩))⟩))
      · cases h
    · cases h
  case writingPages.wait =>
    split at h
    · rename_i hi
      cases h
      exact .inr (.inr (.inl ⟨_, aw hp (by rw [hs]; rfl) (fun _ => hi), rfl⟩))
    · cases h
  case idle.send | done.send | failed.send =>
    unfold selectStart at h
    split at h
    · cases h
      exact .inl ⟨rfl, rfl, ‹_›, rfl⟩
    · cases h
  case enteringBootloader.wait | erasing.wait | verifying.wait =>
    cases h
    exact .inr (.inr (.inl ⟨_, aw hp (by rw [hs]; rfl) (by simp [hs]), rfl⟩))
  case enteringBootloader.settle | exitingBootloader.settle =>
    cases h
    exact .inr (.inl ⟨rfl, rfl, rfl⟩)
  all_goals
    cases h
    exact .inr (.inr (.inr ⟨by simp [frameAt, hs, hp, encode], by simp⟩))

/-- Everything one step can do. -/
theorem step_inv {s t : State} (h : step s = .next t) : StepCase s t := by
  unfold step at h
  split at h
  · cases h
    exact .reset ‹_›
  rename_i hr
  have hr : s.rst = false := by simpa using hr
  split at h
  · rename_i i hi
    rcases select_op hi with ⟨hq, hp, hst, rfl⟩ | ⟨hp, hd, rfl⟩ | ⟨T, ha, rfl⟩ | ⟨hf, hc⟩
    · rcases execUpload_next h with ⟨h1, rfl⟩ | ⟨-, -, rfl⟩
      · rw [hq] at h1
        cases h1
      · exact .start hr hq hp hst
    · obtain ⟨-, -, rfl⟩ := execSleep_next h
      exact .slept hr _ hp hd
    · have := execAwaitAck_eq ha
      rw [exec, this] at h
      cases h
      exact .read hr T ha
    · rcases hc with ⟨h1, h2, rfl⟩ | ⟨h1, h2, rfl⟩ | ⟨h1, h2, -, p, hpp, rfl⟩ | ⟨h1, h2, rfl⟩ |
        ⟨h1, h2, rfl⟩ | ⟨h1, h2, rfl⟩
      · obtain ⟨-, -, rfl⟩ := execEnter_next h
        exact sendFrame_case hr hf (by simp [afterWrite, h1, h2]) (by simp [afterWrite, h1, h2])
      · obtain ⟨-, -, rfl⟩ := execErase_next h
        exact sendFrame_case hr hf (by simp [afterWrite, h1, h2]) (by simp [afterWrite, h1, h2])
      · obtain ⟨-, -, -, -, -, rfl⟩ := execWritePage_next h
        exact sendFrame_case hr hf (by simp [afterWrite, h1, h2]) (by simp [afterWrite, h1, h2])
      · obtain ⟨-, -, rfl⟩ := execVerify_next h
        exact sendFrame_case hr hf (by simp [afterWrite, h1, h2]) (by simp [afterWrite, h1, h2])
      · obtain ⟨-, -, -, rfl⟩ := execChecksum_next h
        exact sendFrame_case hr hf (by simp [afterWrite, h1, h2]) (by simp [afterWrite, h1, h2])
      · obtain ⟨-, -, rfl⟩ := execExit_next h
        exact sendUnchecked_case hr hf (fun a => by cases a <;> simp [afterWrite, h1, h2])
  · rename_i hi
    cases h
    cases hs : s.st <;> cases hp : s.ph <;> simp only [select, hs, hp, reduceCtorEq] at hi
    case writingPages.send =>
      split at hi
      · unfold selectPage at hi
        split at hi <;> cases hi
      · cases hi
    case writingPages.wait => split at hi <;> cases hi
    all_goals
      unfold selectStart at hi
      split at hi
      · cases hi
      · exact .quiet hr (by rw [hs]; rfl) hp (by simp_all)
  · cases h
  · cases h

/-! ### Putting a step together -/

theorem step_start {s : State} (hr : s.rst = false) (hq : quiescent s.st = true) (hp : s.ph = .send)
    (hs : s.start = true) : step s = .next (acceptStart s) := by
  cases h : s.st <;> simp [h, quiescent] at hq <;>
    simp [step, hr, select, h, hp, selectStart, hs, exec, execUpload, quiescent]

theorem step_quiet {s : State} (hr : s.rst = false) (hq : quiescent s.st = true) (hp : s.ph = .send)
    (hs : s.start = false) : step s = .next s := by
  cases h : s.st <;> simp [h, quiescent] at hq <;> simp [step, hr, select, h, hp, selectStart, hs]

theorem step_sleep {s : State} {ms : Ms} (hr : s.rst = false) (hp : s.ph = .settle)
    (hd : settleDelay s.st = some ms) : step s = .next (sleptState ms s) := by
  obtain ⟨h, rfl⟩ := settleDelay_some hd
  rcases h with h | h <;>
    simp [step, hr, select, h, hp, exec, execSleep, settleDelay, onRegs, sleepFor, record, sleptState]

theorem step_read {s : State} {t : Ms} (hr : s.rst = false) (ha : awaiting s.toRegs = some t) :
    step s = .next (readState t s) := by
  obtain ⟨hp, hw, hi⟩ := awaiting_eq_some.1 ha
  have e := execAwaitAck_eq ha
  cases h : s.st <;> simp [h, waitTimeout] at hw <;> subst hw <;> simp [h] at hi <;>
    simp only [step, hr, select, h, hp, exec] <;> first | exact e | (rw [if_pos hi]; exact e)

/-- A step at a sending position, before the call's answer is looked at. -/
theorem step_frame {s : State} {bytes : List Byte} (hr : s.rst = false)
    (hf : frameAt s = some bytes) (hn : s.npages = pageCount s.len)
    (hi : s.st = .writingPages → s.idx.toNat < s.npages.toNat) :
    ∃ t, step s = .next t ∧
      ((s.st = .exitingBootloader ∧
          t = sendUnchecked bytes (moveTo .exitingBootloader .settle) s) ∨
        ∃ st ph, t = sendFrame bytes (moveTo st ph) s) := by
  rcases frameAt_st hf with ⟨h1, h2⟩ | ⟨h1, h2⟩ | ⟨h1, h2⟩ | ⟨h1, h2⟩ | ⟨h1, h2⟩ | ⟨h1, h2⟩
  case inr.inr.inl =>
    have hi := hi h1
    have hp := pagePayload_eq (m := s.img) ((lt_pageCount_iff s.len _).1 (hn ▸ hi))
    simp only [frameAt, h1, h2, Option.some.injEq] at hf
    subst hf
    rw [procFrame_eq hp]
    refine ⟨_, ?_, .inr ⟨.writingPages, .wait, rfl⟩⟩
    simp [step, hr, select, h1, h2, inPages, hi, selectPage, hp, exec, execWritePage]
  all_goals
    simp only [frameAt, h1, h2, Option.some.injEq] at hf
    subst hf
    simp only [step, hr, select, h1, h2, exec, execEnter, execErase, execVerify, execChecksum,
      execExit, and_self, if_true]
    first
      | exact ⟨_, rfl, .inr ⟨_, _, rfl⟩⟩
      | exact ⟨_, rfl, .inl ⟨trivial, rfl⟩⟩

theorem step_pending {s : State} {bytes : List Byte} (hr : s.rst = false)
    (hf : frameAt s = some bytes) (hn : s.npages = pageCount s.len)
    (hi : s.st = .writingPages → s.idx.toNat < s.npages.toNat) (hw : s.wrAns = []) :
    step s = .next s := by
  obtain ⟨t, e, ⟨-, rfl⟩ | ⟨st, ph, rfl⟩⟩ := step_frame hr hf hn hi
  · rw [e]
    simp [sendUnchecked, chWrite, hw]
  · rw [e]
    simp [sendFrame, chWrite, hw]

theorem step_write {s : State} {bytes : List Byte} {a : Bool} {rest : List Bool} (hr : s.rst = false)
    (hf : frameAt s = some bytes) (hn : s.npages = pageCount s.len)
    (hi : s.st = .writingPages → s.idx.toNat < s.npages.toNat) (hw : s.wrAns = a :: rest) :
    step s = .next (wroteState bytes a rest s) := by
  obtain ⟨t, e, -⟩ := step_frame hr hf hn hi
  rw [e]
  cases step_inv e with
  | reset h => simp [hr] at h
  | quiet _ hq _ _ => rcases frameAt_st hf with h | h | h | h | h | h <;> simp [h.1, quiescent] at hq
  | start _ hq _ _ => rcases frameAt_st hf with h | h | h | h | h | h <;> simp [h.1, quiescent] at hq
  | pending _ _ _ hw' => simp [hw] at hw'
  | wrote _ bytes' a' rest' hf' hw' =>
    rw [hf] at hf'
    rw [hw] at hw'
    cases hf'
    cases hw'
    rfl
  | slept _ _ hp _ => rcases frameAt_st hf with h | h | h | h | h | h <;> simp [h.2] at hp
  | read _ _ ha =>
    have hp := (awaiting_eq_some.1 ha).1
    rcases frameAt_st hf with h | h | h | h | h | h <;> simp [h.2] at hp

/-! ### Several steps -/

theorem run_next {s t : State} (h : step s = .next t) (k : Nat) : run (k + 1) s = run k t := by
  rw [run, h]

/-- A state whose step stays where it is stays there. -/
theorem run_fixed {s : State} (h : step s = .next s) (k : Nat) : run k s = .next s := by
  induction k with
  | zero => rfl
  | succ k ih => rw [run_next h, ih]

theorem run_add {s t : State} {j : Nat} (h : run j s = .next t) (k : Nat) :
    run (j + k) s = run k t := by
  induction j generalizing s with
  | zero =>
    cases h
    rw [Nat.zero_add]
  | succ j ih =>
    rw [run] at h
    split at h
    · rename_i u hu
      rw [Nat.add_right_comm, run_next hu, ih h]
    · cases h
    · cases h

/-- One step of a host's run that goes on. -/
theorem host_run_next (M : Host.Core) {s t : M.State} (h : M.step s = .next t) (k : Nat) :
    M.run (k + 1) s = M.run k t := by
  rw [Host.Core.run, h]

/-- A host's run that stops with a fault at its first step. -/
theorem host_run_fault (M : Host.Core) {s : M.State} {f : M.Fault} (h : M.step s = .fault f) (k : Nat) :
    M.run (k + 1) s = .fault f := by
  rw [Host.Core.run, h]

/-- A host's run whose first step is refused. -/
theorem host_run_refused (M : Host.Core) {s : M.State} {r : M.Refusal} (h : M.step s = .refused r)
    (k : Nat) : M.run (k + 1) s = .refused r := by
  rw [Host.Core.run, h]

/-- The host's own run of the machine. -/
theorem core_run_eq (k : Nat) (s : State) : Host.Core.run Sys2Proof.core k s = run k s := by
  induction k generalizing s with
  | zero => rfl
  | succ k ih =>
    rw [run]
    rcases h : step s with t | f | r
    · exact (host_run_next Sys2Proof.core h k).trans (ih t)
    · exact host_run_fault Sys2Proof.core h k
    · exact host_run_refused Sys2Proof.core h k

end Sys2Proof.Machine
end

