-- ==== Sys2Proof/Laws/Safety.lean ====
section
/-! SUPPORT. Small facts about the invariants and about what is counted in a trace. -/

namespace Sys2Proof.Machine

open Sys2Proof.Config

/-- In `WritingPages` the page being written exists. -/
theorem RegInv.page_lt {r : Regs} (h : RegInv r) (h3 : r.st = .writingPages) :
    r.idx.toNat < r.npages.toNat := by
  have := h.position
  cases hp : r.ph <;> simp [legalPosition, h3, hp, inPages] at this <;> exact this

/-- A step leaves what the surroundings hold, but for the answers it consumes. -/
theorem step_env {s t : State} (h : step s = .next t) :
    t.img = s.img ∧ t.imgLen = s.imgLen ∧ t.rst = s.rst ∧ t.start = s.start ∧
      t.chOpen = s.chOpen := by
  cases step_inv h with
  | start _ _ _ _ =>
    rcases acceptStart_cases s with ⟨-, e⟩ | ⟨-, -, e⟩ | ⟨-, -, e⟩ <;> rw [e] <;> simp
  | _ => simp [resetRegisters, wroteState, sleptState, readState]

/-- The trace at a busy position, but for `(ExitingBootloader, Settle)`, in one form. -/
theorem traceInv_busy {s : State} (h : TraceInv s)
    (hs : s.st = .enteringBootloader ∨ s.st = .erasing ∨ s.st = .writingPages ∨ s.st = .verifying ∨
      (s.st = .exitingBootloader ∧ s.ph = .send)) :
    s.trace = traceAt s.img s.len s.npages.toNat s.idx.toNat s.st s.ph := by
  rcases hs with h1 | h1 | h1 | h1 | ⟨h1, h2⟩ <;> simp only [TraceInv, h1] at h ⊢
  iterate 4 exact h
  rcases h with ⟨-, h⟩ | ⟨h, -⟩
  · simp [h, h2, traceAt]
  · simp [h2] at h

/-- A failure with its event is a failed trace. -/
theorem traceInv_failed {s u : State} {e : Event} {ph : Phase} (h1 : u.st = .failed)
    (h2 : u.img = s.img) (h3 : u.len = s.len) (h4 : u.npages = s.npages) (h5 : u.fidx = s.idx)
    (h6 : u.fstate = s.st)
    (h7 : s.trace = traceAt s.img s.len s.npages.toNat s.idx.toNat s.st ph)
    (h8 : u.trace = s.trace ++ [e]) (h9 : failingEvent u ph e) : TraceInv u := by
  simp only [TraceInv, h1]
  refine .inr (.inr ⟨ph, e, ?_, h9⟩)
  rw [h8, h7, h2, h3, h4, h5, h6]

/-! ### Counting -/

theorem bytesWritten_append (a b : List Event) :
    bytesWritten (a ++ b) = bytesWritten a + bytesWritten b := by
  induction a with
  | nil => simp [bytesWritten]
  | cons e a ih => cases e <;> simp [bytesWritten, ih, Nat.add_assoc]

theorem waitingTime_append (a b : List Event) :
    waitingTime (a ++ b) = waitingTime a + waitingTime b := by
  induction a with
  | nil => simp [waitingTime]
  | cons e a ih => cases e <;> simp [waitingTime, ih, Nat.add_assoc]

/-- `n` pages: two primitives, 133 bytes and one second each. -/
theorem pagesTrace_count (m : Memory) (len : Word) (n : Nat) :
    (pagesTrace m len n).length = 2 * n ∧ bytesWritten (pagesTrace m len n) = 133 * n ∧
      waitingTime (pagesTrace m len n) = 1000 * n := by
  induction n with
  | zero => simp [pagesTrace, bytesWritten, waitingTime]
  | succ n ih =>
    have := procFrame_length m len n
    simp [pagesTrace, bytesWritten_append, waitingTime_append, ih, bytesWritten, waitingTime, acked,
      this]
    omega

/-- What the pages' part of a trace is made of. -/
theorem mem_pagesTrace {m : Memory} {len : Word} {n : Nat} {e : Event} (h : e ∈ pagesTrace m len n) :
    (∃ i, e = .write (procFrame m len i) true) ∨ e = acked cfg.tWrite := by
  induction n with
  | zero => simp [pagesTrace] at h
  | succ n ih =>
    simp only [pagesTrace, List.mem_append, List.mem_cons, List.not_mem_nil, or_false] at h
    rcases h with h | h | h
    · exact ih h
    · exact .inl ⟨n, h⟩
    · exact .inr h

end Sys2Proof.Machine
end

