-- ==== Sys2Proof/Laws/Signal.lean ====
section
/-! SUPPORT. One clock cycle by kind of position, runs of cycles, and that what follows a primitive does
not depend on the running timer. -/

namespace Sys2Proof.Machine

open Sys2Proof.Config

theorem sigFrame_phase {σ : SigState} {f : List Byte} (h : sigFrame σ = some f) :
    σ.ph = .send ∨ σ.ph = .send2 := by
  unfold sigFrame at h
  split at h <;> simp_all

theorem sigFrame_busy {σ : SigState} {f : List Byte} (h : sigFrame σ = some f) :
    quiescent σ.st = false := by
  unfold sigFrame at h
  split at h <;> simp_all [quiescent]

/-- The byte counter is no part of what is sent. -/
@[simp] theorem sigFrame_txPos (σ : SigState) (p : BitVec 8) :
    sigFrame { σ with txPos := p } = sigFrame σ := rfl

/-- A cycle of a write call. -/
theorem cycle_write {i : SigIn} {σ : SigState} {f : List Byte} (hr : i.rst = false)
    (hl : legalPosition σ.toRegs = true) (hf : sigFrame σ = some f) :
    cycle i σ = .next (writeCycle f i σ) := by
  have hq := sigFrame_busy hf
  rcases sigFrame_phase hf with hp | hp <;> simp [cycle, hr, hl, hq, hp, sendCycle, hf]

/-! ### takeImageByte -/

@[simp] theorem takeImageByte_toRegs (b : Byte) (σ : SigState) : (takeImageByte b σ).toRegs = σ.toRegs := rfl
@[simp] theorem takeImageByte_buf (b : Byte) (σ : SigState) : (takeImageByte b σ).buf = σ.buf ++ [b] := rfl
@[simp] theorem takeImageByte_reqDropped (b : Byte) (σ : SigState) : (takeImageByte b σ).reqDropped = decide (σ.buf.length + 1 < pageLength σ.len σ.idx) := rfl
@[simp] theorem takeImageByte_txPos (b : Byte) (σ : SigState) : (takeImageByte b σ).txPos = σ.txPos := rfl
@[simp] theorem takeImageByte_acc (b : Byte) (σ : SigState) : (takeImageByte b σ).acc = σ.acc + b.setWidth 32 := rfl

/-! ### Reading a page -/

theorem readingPage_iff {σ : SigState} : readingPage σ = true ↔
    (σ.st = .writingPages ∧ σ.ph = .send) ∧ σ.buf.length < pageLength σ.len σ.idx := by
  simp [readingPage, pageBuffered]

/-- A byte is requested while the page is being read, except in the cycle between two bytes. -/
theorem requesting_iff {σ : SigState} :
    requesting σ = true ↔ readingPage σ = true ∧ σ.reqDropped = false := by
  simp [requesting]

/-- Nothing is sent while a page is being read. -/
theorem sigFrame_readingPage {σ : SigState} (h : readingPage σ = true) : sigFrame σ = none := by
  obtain ⟨⟨h1, h2⟩, h3⟩ := readingPage_iff.1 h
  simp [sigFrame, h1, h2, pageBuffered]
  omega

/-- A cycle in which a page is being read. -/
theorem cycle_readingPage {i : SigIn} {σ : SigState} (hr : i.rst = false)
    (hl : legalPosition σ.toRegs = true) (h : readingPage σ = true) :
    cycle i σ = .next (imageCycle i σ) := by
  obtain ⟨⟨h1, h2⟩, -⟩ := readingPage_iff.1 h
  simp [cycle, hr, hl, h1, h2, quiescent, sendCycle, sigFrame_readingPage h]

/-! ### The other positions -/

/-- A cycle of a settle delay. -/
theorem cycle_settle {i : SigIn} {σ : SigState} (hr : i.rst = false) (hp : σ.ph = .settle)
    (hl : legalPosition σ.toRegs = true) : cycle i σ = .next (settleCycle i σ) := by
  have hq : quiescent σ.st = false := by
    cases hs : σ.st <;> simp [legalPosition, hp, hs] at hl <;> rfl
  simp [cycle, hr, hl, hq, hp]

/-- A cycle of a handshake. -/
theorem cycle_wait {i : SigIn} {σ : SigState} (hr : i.rst = false) (hp : σ.ph = .wait)
    (hl : legalPosition σ.toRegs = true) : cycle i σ = .next (waitCycle i σ) := by
  have hq : quiescent σ.st = false := by
    cases hs : σ.st <;> simp [legalPosition, hp, hs] at hl <;> rfl
  simp [cycle, hr, hl, hq, hp]

/-- A cycle of a quiescent state. -/
theorem cycle_quiescent {i : SigIn} {σ : SigState} (hr : i.rst = false)
    (hl : legalPosition σ.toRegs = true) (hq : quiescent σ.st = true) :
    cycle i σ = .next (startCycle i σ) := by
  simp [cycle, hr, hl, hq]

theorem cycles_cons {i : SigIn} {is : List SigIn} {σ σ' : SigState} (h : cycle i σ = .next σ') :
    cycles (i :: is) σ = cycles is σ' := by
  simp only [cycles, h]

theorem cycles_append {is js : List SigIn} {σ σ' : SigState} (h : cycles is σ = .next σ') :
    cycles (is ++ js) σ = cycles js σ' := by
  induction is generalizing σ with
  | nil =>
    cases h
    rfl
  | cons i is ih =>
    simp only [cycles] at h
    split at h
    · rename_i hh
      rw [List.cons_append, cycles_cons hh]
      exact ih h
    · cases h
    · cases h

/-- A tick before the last one. -/
theorem timer_sub_one {t : Ms} (h : 1 < t.toNat) : (t - 1).toNat = t.toNat - 1 := by
  rw [BitVec.toNat_sub_of_le]
  · rfl
  · show (1 : Ms).toNat ≤ t.toNat
    simp
    omega

/-! ### Independence of the running timer -/

theorem afterWrite_timer {r : Regs} {a : Bool} {x : Ms}
    (h : (r.st = .enteringBootloader ∧ r.ph = .send) ∨ (r.st = .erasing ∧ r.ph = .send) ∨
      (r.st = .writingPages ∧ r.ph = .send) ∨ (r.st = .verifying ∧ r.ph = .send) ∨
      (r.st = .verifying ∧ r.ph = .send2) ∨ (r.st = .exitingBootloader ∧ r.ph = .send)) :
    afterWrite a { r with timer := x } = afterWrite a r := by
  rcases h with h | h | h | h | h | h <;> cases a <;> simp [afterWrite, h, raiseFail, moveTo]

theorem afterSleep_timer {r : Regs} {x ms : Ms} (h : settleDelay r.st = some ms) :
    afterSleep { r with timer := x } = afterSleep r := by
  obtain ⟨h | h, -⟩ := settleDelay_some h <;> simp [afterSleep, h, moveTo]

theorem afterRead_timer {r : Regs} {x t : Ms} {a : Option Byte} {sum : Word}
    (h : waitTimeout r.st = some t) :
    afterRead a sum { r with timer := x } = afterRead a sum r := by
  rcases a with _ | b
  · simp [afterRead, latchTimeout, raiseFail]
  · rcases classify_cases b with hc | hc | hc <;>
      simp only [afterRead, hc, latchByte, raiseFail]
    cases hs : r.st <;> simp [waitTimeout, hs] at h <;> simp [advance, moveTo, morePages]

end Sys2Proof.Machine
end

