-- ==== Sys2Proof/Tests/Slice0.lean ====
section
/-! SUPPORT. The model's own tests. Expected results are the vectors of spec/95_test_vectors.md or are
worked by hand from the rule named; none is the model's own answer. The last part shows, for every
statement with hypotheses, values that meet them. -/

namespace Sys2Proof.Tests

open Sys2Proof Sys2Proof.Machine Sys2Proof.Config

set_option maxRecDepth 4096

/-! ### Helpers -/

/-- A field of the next state, if there is one. -/
def field {α : Type} (r : Result) (f : State → α) : Option α :=
  match r with
  | .next t => some (f t)
  | .fault _ => none
  | .refused _ => none

/-- At a position of a run with the image `01 02 03` of vector 2.9, the channel's answers given. -/
def mid (st : SessionState) (ph : Phase) (wr : List Bool) (rd : List (Option Byte)) : State :=
  { State.reset with
    st := st, ph := ph, len := 3, npages := 1, timer := interval st ph
    csum := if st = .verifying ∨ st = .exitingBootloader ∨ st = .done then 6 else 0
    hs := if st = .enteringBootloader then .none else .ok
    rxb := if st = .enteringBootloader then 0 else 0x79
    imgLen := 3, chOpen := true, img := [(0, 1), (1, 2), (2, 3)], wrAns := wr, rdAns := rd
    trace := traceAt [(0, 1), (1, 2), (2, 3)] 3 1 0 st ph }

/-- Page 1 of the image of 130 bytes of program P2: only its two bytes are listed. -/
def secondPage (wr : List Bool) : State :=
  { mid .writingPages .send wr [] with
    len := 130, npages := 2, idx := 1, img := [(128, 0x80), (129, 0x81)] }

/-- Waiting after page `i` of the image of 300 bytes of vector 2.10. -/
def page300 (i : PageIdx) : State :=
  { mid .writingPages .wait [] [some 0x79] with len := 300, npages := 3, idx := i, img := [] }

/-- An idle start with the image of 5 bytes of vector 2.8. -/
def begin (len : Word) (isOpen : Bool) : State :=
  { State.reset with start := true, imgLen := len, chOpen := isOpen }

/-- The 126 padding bytes of program P2. -/
def pad126 : List Byte := List.replicate 126 0xFF

/-! ### WellFormed: one ill-formed term per check -/

theorem test_wf_page_address_misaligned :
    (Instr.writePage 0x40 (List.replicate 128 0)).wellFormed = false := by decide
theorem test_wf_page_payload_short :
    (Instr.writePage 0x80 (List.replicate 127 0)).wellFormed = false := by decide
theorem test_wf_top_page_carries_image_byte :
    (Instr.writePage 0xFFFFFF80 (List.replicate 128 0)).wellFormed = false := by decide
theorem test_wf_malformed_is_ack : (Instr.malformed 0x79).wellFormed = false := by decide
theorem test_wf_malformed_is_nack : (Instr.malformed 0x1F).wellFormed = false := by decide
theorem test_wf_no_such_timeout : (Instr.awaitAck 100).wellFormed = false := by decide
theorem test_wf_no_such_delay : (Instr.sleep 2000).wellFormed = false := by decide
theorem test_wf_accepted :
    (Instr.writePage 0xFFFFFF80 (List.replicate 128 0xFF)).wellFormed = true ∧
    (Instr.malformed 0x78).wellFormed = true ∧ (Instr.awaitAck 5000).wellFormed = true ∧
    (Instr.sleep 100).wellFormed = true ∧ Instr.upload.wellFormed = true := by decide

/-! ### Decode: words written out from spec/30_encoding.md R71 to R75 and R78 -/

theorem test_decode_enter : decode .tx [0b10100101] = .ok .enter := by decide
theorem test_decode_erase : decode .tx [0b11100000] = .ok .erase := by decide
/-- The second page frame of program P2: `D0 00 00 00 80 80 81` and 126 times `FF`. -/
theorem test_decode_writePage :
    decode .tx ([0xD0, 0x00, 0x00, 0x00, 0x80, 0x80, 0x81] ++ pad126)
      = .ok (.writePage 0x00000080 ([0x80, 0x81] ++ pad126)) := by decide
/-- Vector 2.3, `idx = 131586`: bytes `01 01 01 00`. -/
theorem test_decode_writePage_address :
    decode .tx ([0xD0, 0x01, 0x01, 0x01, 0x00] ++ List.replicate 128 0xFF)
      = .ok (.writePage 0x01010100 (List.replicate 128 0xFF)) := by decide
theorem test_decode_verify : decode .tx [0b11000000] = .ok .verify := by decide
/-- The checksum frame of program P2. -/
theorem test_decode_checksum :
    decode .tx [0x00, 0x00, 0x20, 0xC1] = .ok (.checksum 0x000020C1) := by decide
/-- R74: four bytes are a checksum frame even where the first is an opcode. -/
theorem test_decode_checksum_like_opcode :
    decode .tx [0xD0, 0x00, 0x00, 0x00] = .ok (.checksum 0xD0000000) := by decide
theorem test_decode_exit : decode .tx [0b11110000] = .ok .exit := by decide
theorem test_decode_ack : decode .rx [0b01111001] = .ok .ack := by decide
theorem test_decode_nack : decode .rx [0b00011111] = .ok .nack := by decide
/-- Vector 2.1: the echo of an opcode is malformed. -/
theorem test_decode_malformed : decode .rx [0xE0] = .ok (.malformed 0xE0) := by decide
/-- R78: AWAIT_ACK, SLEEP and UPLOAD have no encoding. -/
theorem test_decode_no_frame :
    encode (.awaitAck 2000) = [] ∧ encode (.sleep 100) = [] ∧ encode .upload = [] ∧
    decodeTableWord 0 0 = none := by decide

theorem test_decode_rejects_by_name :
    decode .tx [] = .error .emptyFrame ∧ decode .tx [0x79] = .error (.unknownOpcode 0x79) ∧
    decode .tx [0xA5, 0x00] = .error (.badLength 2) ∧
    decode .rx [0x79, 0x1F] = .error (.badLength 2) := by decide
theorem test_decode_rejects_pages :
    decode .tx ([0xD0, 0x00, 0x00, 0x00, 0x01] ++ List.replicate 128 0)
      = .error (.unalignedPage 0x00000001) ∧
    decode .tx ([0xD0, 0xFF, 0xFF, 0xFF, 0x80] ++ List.replicate 128 0) = .error .beyondImage := by
  decide
/-- The table numbers the first byte in bits 7..0: `00 00 20 C1` is the word `0xC1200000`. -/
theorem test_decode_table_word :
    decodeTableWord 32 0xC1200000 = some (.checksum 0x000020C1) ∧
    decodeTableWord 8 0xD0 = some (.writePage 0 (List.replicate 128 0)) ∧
    decodeTableWord 40 0x80000000D0 = some (.writePage 0x80 (List.replicate 128 0)) := by decide

/-! ### A placed operation is the next step's, from reset -/

theorem test_placed_commands :
    field (step (State.reset.withFetchWord 8 0xA5)) (·.trace) = some [.write [0xA5] true] ∧
    field (step (State.reset.withFetchWord 8 0xE0)) (·.trace) = some [.write [0xE0] true] ∧
    field (step (State.reset.withFetchWord 8 0xC0)) (·.trace) = some [.write [0xC0] true] ∧
    field (step (State.reset.withFetchWord 8 0xF0)) (·.trace) = some [.write [0xF0] true] := by
  decide
theorem test_placed_page :
    field (step (State.reset.withFetchWord 8 0xD0)) (·.trace)
      = some [.write (0xD0 :: List.replicate 132 0) true] := by decide
theorem test_placed_checksum :
    field (step (State.reset.withFetchWord 32 0xC1200000)) (·.trace)
      = some [.write [0x00, 0x00, 0x20, 0xC1] true] := by decide
theorem test_placed_responses :
    field (step (State.reset.withFetchWord 8 0x79)) (·.hs) = some .ok ∧
    field (step (State.reset.withFetchWord 8 0x1F)) (·.hs) = some .nack ∧
    field (step (State.reset.withFetchWord 8 0x00)) (·.hs) = some .malformed := by decide

/-! ### One step of each operation (vectors 2.2, 2.5 to 2.11) -/

theorem test_enter :
    field (exec .enter (mid .enteringBootloader .send [true] [])) (fun t => (t.st, t.ph, t.timer))
      = some (.enteringBootloader, .settle, 100) := by decide
theorem test_enter_short_write :
    field (exec .enter (mid .enteringBootloader .send [false] []))
      (fun t => (t.st, t.cause, t.fstate, t.hs, t.rxb))
      = some (.failed, .shortWrite, .enteringBootloader, .none, 0x00) := by decide
theorem test_erase :
    field (exec .erase (mid .erasing .send [true] [])) (fun t => (t.st, t.ph, t.timer))
      = some (.erasing, .wait, 5000) := by decide
theorem test_erase_short_write :
    field (exec .erase (mid .erasing .send [false] [])) (fun t => (t.cause, t.fstate, t.hs, t.rxb))
      = some (.shortWrite, .erasing, .ok, 0x79) := by decide
/-- Program P2, the second page: two image bytes, then 126 times `FF`. -/
theorem test_writePage_pads :
    field (exec (.writePage 0x80 ([0x80, 0x81] ++ pad126)) (secondPage [true]))
      (fun t => (t.ph, t.trace.getLast?))
      = some (.wait, some (.write ([0xD0, 0x00, 0x00, 0x00, 0x80, 0x80, 0x81] ++ pad126) true)) := by
  decide
/-- The page that the position sends is the only one performed (R79). -/
theorem test_writePage_other_page :
    exec (.writePage 0x00 ([0x80, 0x81] ++ pad126)) (secondPage [true]) = .refused .outOfSequence := by
  rfl
theorem test_verify :
    field (exec .verify (mid .verifying .send [true] [])) (fun t => (t.st, t.ph))
      = some (.verifying, .send2) := by decide
theorem test_verify_short_write :
    field (exec .verify (mid .verifying .send [false] [])) (fun t => (t.cause, t.csum))
      = some (.shortWrite, 6) := by decide
theorem test_checksum :
    field (exec (.checksum 6) (mid .verifying .send2 [true] []))
      (fun t => (t.ph, t.timer, t.trace.getLast?))
      = some (.wait, 3000, some (.write [0x00, 0x00, 0x00, 0x06] true)) := by decide
theorem test_exit_rejected_write :
    field (exec .exit (mid .exitingBootloader .send [false] [])) (fun t => (t.st, t.ph, t.cause))
      = some (.exitingBootloader, .settle, .none) := by decide
theorem test_sleep_after_enter :
    field (exec (.sleep 100) (mid .enteringBootloader .settle [] [])) (fun t => (t.st, t.ph, t.timer))
      = some (.enteringBootloader, .wait, 2000) := by decide
theorem test_sleep_after_exit :
    field (exec (.sleep 100) (mid .exitingBootloader .settle [] [])) (fun t => (t.st, t.ph, t.timer))
      = some (.done, .send, 0) := by decide
/-- Vector 2.10, `idx = 1`: `2 < 3`, the next page. -/
theorem test_ack_next_page :
    field (exec .ack (page300 1)) (fun t => (t.st, t.ph, t.idx)) = some (.writingPages, .send, 2) := by
  decide
/-- Vector 2.9: after the one page, `(Verifying, Send)` with `csum = 6` and `idx` kept. -/
theorem test_ack_last_page :
    field (exec .ack (mid .writingPages .wait [] [some 0x79])) (fun t => (t.st, t.ph, t.idx, t.csum))
      = some (.verifying, .send, 0, 6) := by decide
theorem test_nack :
    field (exec .nack (mid .verifying .wait [] [some 0x1F]))
      (fun t => (t.st, t.cause, t.fstate, t.hs, t.rxb, t.csum))
      = some (.failed, .nack, .verifying, .nack, 0x1F, 6) := by decide
theorem test_malformed :
    field (exec (.malformed 0xA5) (mid .erasing .wait [] [some 0xA5]))
      (fun t => (t.st, t.cause, t.fstate, t.hs, t.rxb))
      = some (.failed, .malformed, .erasing, .malformed, 0xA5) := by decide
/-- Vector 2.9: a timeout keeps `rxb`. -/
theorem test_awaitAck_timeout :
    field (exec (.awaitAck 5000) (mid .erasing .wait [] [none]))
      (fun t => (t.st, t.cause, t.fstate, t.hs, t.rxb))
      = some (.failed, .timeout, .erasing, .timeout, 0x79) := by decide
/-- Vector 2.2: of `1F 79` the first byte decides and the second is left unread. -/
theorem test_awaitAck_first_byte :
    field (exec (.awaitAck 2000) (mid .enteringBootloader .wait [] [some 0x1F, some 0x79]))
      (fun t => (t.cause, t.rdAns)) = some (.nack, [some 0x79]) := by decide
theorem test_upload_empty_image :
    field (exec .upload (begin 0 true)) (fun t => (t.st, t.cause, t.len, t.npages, t.trace))
      = some (.failed, .emptyImage, 0, 0, []) := by decide
theorem test_upload_closed_channel :
    field (exec .upload (begin 5 false)) (fun t => (t.st, t.cause, t.len, t.npages, t.trace))
      = some (.failed, .channelClosed, 5, 1, [.isOpen false]) := by decide

/-- Vector 2.6: `DE AD BE EF`, and the padding is not summed. -/
theorem test_checksum_of :
    checksumOf [(0, 0xDE), (1, 0xAD), (2, 0xBE), (3, 0xEF)] 4 = 0x00000338 ∧
    checksumOf [(0, 0x10), (1, 0x20), (2, 0x30)] 3 = 0x00000060 := by decide
/-- Vectors 2.3 and 2.4. -/
theorem test_pages :
    pageAddress 33554431 = 0xFFFFFF80 ∧ pageCount 128 = 1 ∧ pageCount 129 = 2 ∧
    pageCount 0xFFFFFFFF = 33554432 ∧ pageLength 130 1 = 2 := by decide

/-! ### The signal level: one cycle (R54, R235, R53) -/

/-- The input ports at rest. -/
def still : SigIn where
  rst := false
  tick_1ms := false
  start := false
  img_len := 0
  img_ack := false
  img_data := 0
  ch_open := true
  tx_ready := false
  wr_done := false
  wr_ok := false
  rx_valid := false
  rx_data := 0
  rx_err := false

/-- The signal level at a position of the run of `mid`. -/
def sig (st : SessionState) (ph : Phase) (timer : Ms) : SigState :=
  { toRegs := { (mid st ph [] []).toRegs with timer := timer }
    buf := [], reqDropped := false, txPos := 0, acc := checksumOf [(0, 1), (1, 2), (2, 3)] 0 }

/-- The signal level about to read the two bytes of `secondPage`. -/
def sigPage : SigState :=
  { toRegs := (secondPage []).toRegs, buf := [], reqDropped := false, txPos := 0, acc := 0 }

/-- A field of the next signal-level state. -/
def sfield {α : Type} (r : Host.Outcome SigState Fault Refusal) (f : SigState → α) : Option α :=
  match r with
  | .next t => some (f t)
  | .fault _ => none
  | .refused _ => none

/-- Vector 2.11: at the last tick a byte wins. -/
theorem test_byte_beats_last_tick :
    sfield (cycle { still with tick_1ms := true, rx_valid := true, rx_data := 0x79 }
      (sig .erasing .wait 1)) (fun t => (t.st, t.hs)) = some (.writingPages, .ok) := by decide
/-- Vector 2.11: the last tick alone is a timeout. -/
theorem test_last_tick :
    sfield (cycle { still with tick_1ms := true } (sig .erasing .wait 1)) (fun t => (t.st, t.cause))
      = some (.failed, .timeout) := by decide
/-- R53: the one byte of ERASE is offered with `tx_last`. -/
theorem test_single_byte_offered :
    outputs (sig .erasing .send 0) = ⟨none, false, true, some 0xE0, true, false⟩ := by decide
/-- R35: after reset `tx_data` and `img_addr` are 0 like every other output. -/
theorem test_outputs_after_reset :
    (outputs SigState.reset).tx_data = some 0 ∧ (outputs SigState.reset).img_addr = some 0 := by decide
/-- R45: the second byte of page 1 of the image of 130 bytes of program P2 is requested at address 129,
after a cycle in which `img_req` is 0. -/
theorem test_image_request_dropped :
    sfield (cycle { still with img_ack := true, img_data := 0x80 } sigPage)
      (fun t => ((outputs t).img_req, (outputs t).img_addr)) = some (false, none) ∧
    sfield (cycles [{ still with img_ack := true, img_data := 0x80 }, still] sigPage)
      (fun t => ((outputs t).img_req, (outputs t).img_addr)) = some (true, some 129) := by decide
/-- U12: another image or length is refused while a run is under way, and taken before the next one. -/
theorem test_image_fixed_per_run :
    drive { (mid .erasing .wait [] []).toEnv with img := [(0, 2)] } (mid .erasing .wait [] [])
      = .refused .imageChanged ∧
    drive { (mid .erasing .wait [] []).toEnv with imgLen := 4 } (mid .erasing .wait [] [])
      = .refused .imageChanged ∧
    field (drive { (mid .done .send [] []).toEnv with img := [(0, 2)], imgLen := 1 }
      (mid .done .send [] [])) (fun t => (t.img, t.imgLen)) = some ([(0, 2)], 1) := ⟨rfl, rfl, by decide⟩
/-- R53: a cycle without `tx_ready` leaves the first byte of the checksum frame offered, and one with it
offers the second. -/
theorem test_byte_stays_offered :
    sfield (cycle still (sig .verifying .send2 0)) (·.txPos) = some 0 ∧
    sfield (cycles [still, { still with tx_ready := true }] (sig .verifying .send2 0)) (·.txPos)
      = some 1 := by decide

/-! ### The hypotheses of the statements are met -/

theorem test_met_DecodeEncodeAgree :
    (Instr.writePage 0xFFFFFF80 (List.replicate 128 0xFF)).wellFormed = true ∧
    (Instr.writePage 0xFFFFFF80 (List.replicate 128 0xFF)).direction = some .tx ∧
    (Instr.malformed 0xFF).wellFormed = true ∧ (Instr.malformed 0xFF).direction = some .rx := by decide
theorem test_met_EncodeDecodeAgree :
    decode .tx (0xD0 :: List.replicate 132 0) = .ok (.writePage 0 (List.replicate 128 0)) ∧
    decode .rx [0x00] = .ok (.malformed 0x00) := by decide
theorem test_met_PayloadField :
    (128 : Word).toNat ≤ (1 : PageIdx).toNat * 128 ∧ (1 : PageIdx).toNat * 128 < (129 : Word).toNat := by
  decide
theorem test_met_PageCountIsCeiling : (1 : Word) ≠ 0 := by decide
theorem test_met_EnterCompletes :
    (mid .enteringBootloader .send [true] []).st = .enteringBootloader ∧
    (mid .enteringBootloader .send [true] []).ph = .send ∧
    (mid .enteringBootloader .send [true] []).wrAns = true :: [] := by decide
theorem test_met_EraseCompletes :
    (mid .erasing .send [true] []).st = .erasing ∧ (mid .erasing .send [true] []).ph = .send ∧
    (mid .erasing .send [true] []).wrAns = true :: [] := by decide
theorem test_met_WritePageCompletes :
    (secondPage [true]).st = .writingPages ∧ (secondPage [true]).ph = .send ∧
    (secondPage [true]).idx.toNat < (secondPage [true]).npages.toNat ∧
    (secondPage [true]).idx.toNat * 128 < (secondPage [true]).len.toNat ∧
    (secondPage [true]).wrAns = true :: [] := by decide
theorem test_met_VerifyCompletes :
    (mid .verifying .send [true] []).st = .verifying ∧ (mid .verifying .send [true] []).ph = .send ∧
    (mid .verifying .send [true] []).wrAns = true :: [] := by decide
theorem test_met_ChecksumCompletes :
    (mid .verifying .send2 [true] []).st = .verifying ∧
    (mid .verifying .send2 [true] []).ph = .send2 ∧
    (mid .verifying .send2 [true] []).wrAns = true :: [] := by decide
theorem test_met_ExitCompletesWhateverTheAnswer :
    (mid .exitingBootloader .send [false] []).st = .exitingBootloader ∧
    (mid .exitingBootloader .send [false] []).ph = .send ∧
    (mid .exitingBootloader .send [false] []).wrAns = false :: [] := by decide
theorem test_met_SleepCompletes :
    (mid .enteringBootloader .settle [] []).ph = .settle ∧
    (mid .enteringBootloader .settle [] []).st = .enteringBootloader ∧
    (mid .exitingBootloader .settle [] []).ph = .settle ∧
    (mid .exitingBootloader .settle [] []).st = .exitingBootloader := by decide

/-- Waiting with an acknowledgement ready. -/
def acking (st : SessionState) : State := mid st .wait [] [some 0x79]

/-- Each clause of AckAdvances: the next page at `idx = 1` of 3 (the last one that has a next), and the
last page at `idx = 2`. -/
theorem test_met_AckAdvances :
    (acking .enteringBootloader).ph = .wait ∧ (acking .enteringBootloader).rdAns = some 0x79 :: [] ∧
    (acking .enteringBootloader).st = .enteringBootloader ∧ (acking .erasing).ph = .wait ∧
    (acking .erasing).rdAns = some 0x79 :: [] ∧ (acking .erasing).st = .erasing ∧
    (acking .verifying).ph = .wait ∧ (acking .verifying).rdAns = some 0x79 :: [] ∧
    (acking .verifying).st = .verifying ∧
    (page300 1).ph = .wait ∧ (page300 1).rdAns = some 0x79 :: [] ∧ (page300 1).st = .writingPages ∧
    (page300 1).npages.toNat ≤ 2 ^ 25 ∧ (page300 1).idx.toNat + 1 < (page300 1).npages.toNat ∧
    (page300 2).ph = .wait ∧ (page300 2).rdAns = some 0x79 :: [] ∧ (page300 2).st = .writingPages ∧
    (page300 2).idx.toNat + 1 = (page300 2).npages.toNat := by decide
/-- A byte at the wait of page 0 of 1, for both clauses. -/
theorem test_met_NackAndMalformedFail :
    (mid .writingPages .wait [] [some 0x1F]).ph = .wait ∧
    waitTimeout (mid .writingPages .wait [] [some 0x1F]).st = some 1000 ∧
    (mid .writingPages .wait [] [some 0x1F]).idx.toNat
      < (mid .writingPages .wait [] [some 0x1F]).npages.toNat ∧
    (mid .writingPages .wait [] [some 0x1F]).rdAns = some 0x1F :: [] ∧
    (mid .writingPages .wait [] [some 0x78]).ph = .wait ∧
    waitTimeout (mid .writingPages .wait [] [some 0x78]).st = some 1000 ∧
    (mid .writingPages .wait [] [some 0x78]).idx.toNat
      < (mid .writingPages .wait [] [some 0x78]).npages.toNat ∧
    (mid .writingPages .wait [] [some 0x78]).rdAns = some 0x78 :: [] ∧
    (0x78 : Byte) ≠ 0x79 ∧ (0x78 : Byte) ≠ 0x1F := by decide
theorem test_met_AwaitAckTimesOut :
    (mid .writingPages .wait [] [none]).ph = .wait ∧
    waitTimeout (mid .writingPages .wait [] [none]).st = some 1000 ∧
    (mid .writingPages .wait [] [none]).idx.toNat
      < (mid .writingPages .wait [] [none]).npages.toNat ∧
    (mid .writingPages .wait [] [none]).rdAns = none :: [] := by decide
theorem test_met_AwaitAckPerformsTheResponse :
    (acking .writingPages).ph = .wait ∧ waitTimeout (acking .writingPages).st = some 1000 ∧
    (acking .writingPages).idx.toNat < (acking .writingPages).npages.toNat ∧
    (acking .writingPages).rdAns = some 0x79 :: [] := by decide
/-- Each position of HandshakeTimeoutsFixed answers its timeout, the last page among them. -/
theorem test_met_HandshakeTimeoutsFixed :
    (field (exec (.awaitAck 2000) (acking .enteringBootloader)) (·.hs)).isSome = true ∧
    (field (exec (.awaitAck 5000) (acking .erasing)) (·.hs)).isSome = true ∧
    (field (exec (.awaitAck 1000) (page300 2)) (·.hs)).isSome = true ∧
    (field (exec (.awaitAck 1000) (page300 3)) (·.hs)).isSome = false ∧
    (field (exec (.awaitAck 3000) (acking .verifying)) (·.hs)).isSome = true := by decide
/-- Each clause, of UPLOAD and of a cycle. -/
theorem test_met_UploadStartsOrFails :
    (quiescent SigState.reset.st = true ∧ SigState.reset.ph = .send ∧ still.rst = false ∧
      ({ still with start := true } : SigIn).start = true ∧ still.img_len = 0 ∧
      ({ still with img_len := 1, ch_open := false } : SigIn).img_len ≠ 0 ∧
      ({ still with img_len := 1, ch_open := false } : SigIn).ch_open = false ∧
      ({ still with img_len := 1 } : SigIn).img_len ≠ 0 ∧
      ({ still with img_len := 1 } : SigIn).ch_open = true) ∧
    quiescent (begin 0 true).st = true ∧ (begin 0 true).ph = .send ∧ (begin 0 true).imgLen = 0 ∧
    quiescent (begin 1 false).st = true ∧ (begin 1 false).ph = .send ∧ (begin 1 false).imgLen ≠ 0 ∧
    (begin 1 false).chOpen = false ∧ quiescent (begin 1 true).st = true ∧ (begin 1 true).ph = .send ∧
    (begin 1 true).imgLen ≠ 0 ∧ (begin 1 true).chOpen = true := by decide
theorem test_met_StartIgnoredWhileBusy :
    quiescent (mid .erasing .send [true] []).st = false ∧
    (field (step { mid .erasing .send [true] [] with start := false }) (·.ph)).isSome = true := by decide
/-- The short write of the last page, and of the second frame of the verification. -/
theorem test_met_ShortWriteFails :
    (secondPage [false]).rst = false ∧
    frameAt (secondPage [false]) = some ([0xD0, 0x00, 0x00, 0x00, 0x80, 0x80, 0x81] ++ pad126) ∧
    (secondPage [false]).st ≠ .exitingBootloader ∧
    (secondPage [false]).npages = pageCount (secondPage [false]).len ∧
    (secondPage [false]).idx.toNat < (secondPage [false]).npages.toNat ∧
    (secondPage [false]).wrAns = false :: [] ∧
    frameAt (mid .verifying .send2 [false] []) = some [0x00, 0x00, 0x00, 0x06] := by decide
theorem test_met_PendingWriteWaits :
    (secondPage []).rst = false ∧
    frameAt (secondPage []) = some ([0xD0, 0x00, 0x00, 0x00, 0x80, 0x80, 0x81] ++ pad126) ∧
    (secondPage []).npages = pageCount (secondPage []).len ∧
    (secondPage []).idx.toNat < (secondPage []).npages.toNat ∧ (secondPage []).wrAns = [] := by decide
/-- A step that notes a write and one that starts the trace afresh (first clause), and a state that is
about to note one (second clause). -/
theorem test_met_FrameSentIsThePositions :
    field (step (mid .exitingBootloader .send [false] [])) (·.trace)
      = some ((mid .exitingBootloader .send [false] []).trace ++ [.write [0xF0] false]) ∧
    field (step (begin 5 true)) (·.trace) = some [.isOpen true] ∧
    (secondPage [true]).rst = false ∧
    frameAt (secondPage [true]) = some ([0xD0, 0x00, 0x00, 0x00, 0x80, 0x80, 0x81] ++ pad126) ∧
    (secondPage [true]).npages = pageCount (secondPage [true]).len ∧
    (secondPage [true]).idx.toNat < (secondPage [true]).npages.toNat ∧
    (secondPage [true]).wrAns = true :: [] := by decide
/-- ENTER while idle, and page 0 where page 1 is next. -/
theorem test_met_SendingOutOfSequenceStops :
    Instr.enter.direction = some .tx ∧ frameAt State.reset ≠ some (encode .enter) ∧
    (Instr.writePage 0 (List.replicate 128 0)).direction = some .tx ∧
    frameAt (secondPage [true]) ≠ some (encode (.writePage 0 (List.replicate 128 0))) := by decide
/-- The page right at the end of the image faults, in a state no run reaches (R41). -/
theorem test_page_beyond_image :
    exec (.writePage 0x80 (List.replicate 128 0)) { secondPage [true] with len := 128 }
      = .fault .imgAddress := by rfl
/-- Each sending operation answers a next state somewhere. -/
theorem test_met_SendingFrame :
    (field (exec .enter (mid .enteringBootloader .send [true] [])) (·.ph)).isSome = true ∧
    (field (exec .erase (mid .erasing .send [false] [])) (·.ph)).isSome = true ∧
    (field (exec (.writePage 0x80 ([0x80, 0x81] ++ pad126)) (secondPage [true])) (·.ph)).isSome = true ∧
    (field (exec .verify (mid .verifying .send [true] [])) (·.ph)).isSome = true ∧
    (field (exec (.checksum 6) (mid .verifying .send2 [true] [])) (·.ph)).isSome = true ∧
    (field (exec .exit (mid .exitingBootloader .send [true] [])) (·.ph)).isSome = true := by decide
/-- Each receiving operation does; `idx` changes at one, `csum` at another. -/
theorem test_met_ReceivingFrame :
    field (exec .ack (page300 1)) (·.idx) = some 2 ∧
    field (exec .ack (acking .writingPages)) (·.csum) = some 6 ∧
    (field (exec .nack (mid .erasing .wait [] [some 0x1F])) (·.ph)).isSome = true ∧
    (field (exec (.malformed 0x00) (mid .erasing .wait [] [some 0x00])) (·.ph)).isSome = true ∧
    field (exec (.awaitAck 5000) (mid .erasing .wait [] [none])) (·.hs) = some .timeout := by decide
theorem test_met_SleepFrame :
    (field (exec (.sleep 100) (mid .exitingBootloader .settle [] [])) (·.ph)).isSome = true := by decide
/-- A start taken, and one ignored. -/
theorem test_met_UploadFrame :
    quiescent (begin 5 true).st = true ∧
    field (exec .upload (begin 5 true)) (·.trace) = some [.isOpen true] ∧
    (field (exec .upload (mid .erasing .send [] [])) (·.ph)).isSome = true := by decide
/-- A step, and in a busy state an input changed beside the image, the image changed and the length. -/
theorem test_met_StepsKeepTheImage :
    quiescent (mid .erasing .send [true] []).st = false ∧
    ({ (mid .erasing .send [true] []).toEnv with start := true } : Env).img
      = (mid .erasing .send [true] []).img ∧
    ({ (mid .erasing .send [true] []).toEnv with start := true } : Env).imgLen
      = (mid .erasing .send [true] []).imgLen ∧
    ({ (mid .erasing .send [true] []).toEnv with imgLen := 9 } : Env).imgLen
      ≠ (mid .erasing .send [true] []).imgLen ∧
    ({ (mid .erasing .send [true] []).toEnv with img := [] } : Env).img
      ≠ (mid .erasing .send [true] []).img ∧
    (mid .erasing .send [true] []).img.wf = true ∧
    (field (step (mid .erasing .send [true] [])) (·.ph)).isSome = true := by decide
theorem test_met_StepRunsTheSelectedOperation :
    (secondPage [true]).rst = false ∧
    select (secondPage [true]) = .op (.writePage 0x80 ([0x80, 0x81] ++ pad126)) := by decide
theorem test_met_SelectedOperationIsWellFormed :
    select (mid .verifying .send2 [] []) = .op (.checksum 6) ∧
    (Instr.checksum 6).direction = some .tx := by decide
theorem test_met_PlacedOperationIsPerformed :
    (Instr.writePage 0xFFFFFF80 (List.replicate 128 0xFF)).wellFormed = true ∧
    State.reset.img.wf = true ∧ decodeTableWord 8 0xA5 = some .enter := by decide
/-- Both levels, in each quiescent state. -/
theorem test_met_QuiescentStatesHold :
    quiescent (mid .done .send [] []).st = true ∧ (mid .done .send [] []).ph = .send ∧
    ((mid .done .send [] []).rst = false ∧ (mid .done .send [] []).start = false) ∧
    quiescent (sig .failed .send 0).st = true ∧ (sig .failed .send 0).ph = .send ∧
    still.rst = false ∧ still.start = false ∧ quiescent SigState.reset.st = true ∧
    SigState.reset.ph = .send := by decide
theorem test_met_ResetWins :
    ({ mid .erasing .wait [] [] with rst := true } : State).rst = true ∧
    ({ still with rst := true } : SigIn).rst = true := by decide
/-- A busy position that meets the register invariant. -/
theorem test_met_RegInv : RegInv (mid .writingPages .wait [] [some 0x79]).toRegs := by
  constructor <;> decide
theorem test_met_StepAlwaysGoesOn : RegInv (mid .verifying .wait [] []).toRegs := by
  constructor <;> decide
theorem test_met_StepKeepsRegInv :
    RegInv (mid .writingPages .wait [] [some 0x79]).toRegs ∧
    (field (step (mid .writingPages .wait [] [some 0x79])) (·.ph)).isSome = true :=
  ⟨test_met_RegInv, by decide⟩
/-- A state of a run under way is reached: the surroundings assert a start, and a step accepts it. -/
theorem test_met_ReachableStatesAreSound :
    Reachable (acceptStart (begin 5 true)) ∧ quiescent (acceptStart (begin 5 true)).st = false :=
  ⟨.step (.drive (t := begin 5 true) (begin 5 true).toEnv .reset rfl) rfl, by decide⟩
theorem test_met_SumInv : SumInv (mid .writingPages .wait [] [some 0x79]) := by
  constructor <;> decide
theorem test_met_StepKeepsSumInv :
    RegInv (mid .writingPages .wait [] [some 0x79]).toRegs ∧
    SumInv (mid .writingPages .wait [] [some 0x79]) ∧
    field (step (mid .writingPages .wait [] [some 0x79])) (·.csum) = some 6 :=
  ⟨test_met_RegInv, test_met_SumInv, by decide⟩
theorem test_met_StepKeepsTraceInv :
    RegInv (mid .writingPages .wait [] [some 0x79]).toRegs ∧
    SumInv (mid .writingPages .wait [] [some 0x79]) ∧
    TraceInv (mid .writingPages .wait [] [some 0x79]) ∧
    (field (step (mid .writingPages .wait [] [some 0x79])) (·.ph)).isSome = true :=
  ⟨test_met_RegInv, test_met_SumInv, rfl, by decide⟩
theorem test_met_StepFollowsTheTransitionTable :
    RegInv (mid .writingPages .wait [] [some 0x79]).toRegs ∧
    (mid .writingPages .wait [] [some 0x79]).rst = false ∧
    (field (step (mid .writingPages .wait [] [some 0x79])) (fun t =>
      decide (t ≠ mid .writingPages .wait [] [some 0x79]))) = some true :=
  ⟨test_met_RegInv, by decide, by decide⟩
theorem test_met_StrictlyLinear :
    RegInv (mid .exitingBootloader .send [true] []).toRegs ∧
    (mid .exitingBootloader .send [true] []).rst = false ∧
    quiescent (mid .exitingBootloader .send [true] []).st = false ∧
    (field (step (mid .exitingBootloader .send [true] [])) (·.ph)).isSome = true :=
  ⟨by constructor <;> decide, by decide, by decide, by decide⟩

/-- The run of vector 2.9 in which the erase handshake times out, at its end. -/
def erasedNot : State :=
  { mid .failed .send [] [] with
    hs := .timeout, cause := .timeout, fstate := .erasing, trace := erasedTrace.take 5 ++ [.read 5000 none] }

theorem test_met_NothingSentPastAFailure :
    RegInv erasedNot.toRegs ∧ TraceInv erasedNot ∧ erasedNot.st = .failed ∧
    erasedNot.fstate = .erasing :=
  ⟨by constructor <;> decide,
    .inr (.inr ⟨.wait, .read 5000 none, rfl, rfl, rfl, .inl ⟨rfl, rfl⟩⟩), rfl, rfl⟩

/-- The successful run of vector 2.9, at its end. -/
def finished : State :=
  { mid .done .send [] [] with trace := doneTrace [(0, 1), (1, 2), (2, 3)] 3 1 true }

/-- The end of a run, and its EXIT position with the write call about to answer `false`. -/
theorem test_met_DoneMeansVerified :
    (TraceInv finished ∧ finished.st = .done) ∧
    RegInv (mid .exitingBootloader .send [false] []).toRegs ∧
    SumInv (mid .exitingBootloader .send [false] []) ∧
    TraceInv (mid .exitingBootloader .send [false] []) ∧
    (mid .exitingBootloader .send [false] []).rst = false ∧
    (mid .exitingBootloader .send [false] []).st = .exitingBootloader ∧
    (mid .exitingBootloader .send [false] []).ph = .send ∧
    (mid .exitingBootloader .send [false] []).wrAns = false :: [] :=
  ⟨⟨⟨true, rfl⟩, rfl⟩, by constructor <;> decide, by constructor <;> decide, .inl ⟨rfl, rfl⟩, rfl, rfl,
    rfl, rfl⟩
theorem test_met_SuccessfulRunIsCounted : TraceInv finished ∧ finished.st = .done :=
  ⟨⟨true, rfl⟩, rfl⟩
theorem test_met_RunIsTheProcedure :
    quiescent (begin 5 true).st = true ∧ (begin 5 true).ph = .send ∧ (begin 5 true).rst = false ∧
    (field (exec .upload (begin 5 true)) (·.st)).isSome = true ∧
    2 * (pageCount (begin 5 true).imgLen).toNat + 10 ≤ 12 := by decide
theorem test_met_EveryRunEnds :
    RegInv (mid .enteringBootloader .send (List.replicate 6 true) []).toRegs ∧
    undisturbed (mid .enteringBootloader .send (List.replicate 6 true) []) ∧
    quiescent (mid .enteringBootloader .send (List.replicate 6 true) []).st = false ∧
    (mid .enteringBootloader .send (List.replicate 6 true) []).npages.toNat + 5
      ≤ (mid .enteringBootloader .send (List.replicate 6 true) []).wrAns.length :=
  ⟨by constructor <;> decide, ⟨rfl, rfl⟩, rfl, by decide⟩

/-- A start with a channel that answers well for one page. -/
def wellAnswered : State :=
  { begin 5 true with wrAns := List.replicate 6 true, rdAns := List.replicate 4 (some 0x79) }

theorem test_met_GoodChannelSucceeds :
    quiescent wellAnswered.st = true ∧ wellAnswered.ph = .send ∧ wellAnswered.rst = false ∧
    wellAnswered.imgLen ≠ 0 ∧ wellAnswered.chOpen = true ∧
    (field (exec .upload wellAnswered) (·.st)).isSome = true ∧
    wellAnswered.wrAns = List.replicate ((pageCount wellAnswered.imgLen).toNat + 5) true ∧
    wellAnswered.rdAns = List.replicate ((pageCount wellAnswered.imgLen).toNat + 3) (some 0x79) := by
  decide
/-- Each clause of WaitPriority, the timer at the values where clauses meet. -/
theorem test_met_WaitPriority :
    still.rst = false ∧ (sig .erasing .wait 1).ph = .wait ∧
    legalPosition (sig .erasing .wait 1).toRegs = true ∧ (sig .erasing .wait 1).timer = 1 ∧
    1 < (sig .erasing .wait 2).timer.toNat ∧ legalPosition (sig .erasing .wait 2).toRegs = true ∧
    ({ still with rx_valid := true, rx_err := true } : SigIn).rx_valid = true ∧
    ({ still with rx_err := true } : SigIn).rx_valid = false ∧
    ({ still with tick_1ms := true } : SigIn).rx_err = false := by decide
/-- The cycle that enters the wait for the erase: `(Erasing, Send)`, its byte taken, `wr_done`. -/
theorem test_met_WaitPriority_entry :
    (sig .erasing .send 0).ph ≠ .wait ∧
    sfield (cycle { still with tx_ready := true, wr_done := true, wr_ok := true } (sig .erasing .send 0))
      (fun t => (t.ph, t.timer)) = some (.wait, 5000) := by decide
/-- The cycle that enters the settle delay of EXIT. -/
theorem test_met_SettleLastsItsTicks_entry :
    (sig .exitingBootloader .send 0).ph ≠ .settle ∧
    sfield (cycle { still with wr_done := true } (sig .exitingBootloader .send 0))
      (fun t => (t.ph, t.timer)) = some (.settle, 100) := by decide
/-- One tick short of the end, and then the tick that ends it. -/
theorem test_met_SettleLastsItsTicks :
    (sig .exitingBootloader .settle 2).ph = .settle ∧
    legalPosition (sig .exitingBootloader .settle 2).toRegs = true ∧
    (∀ i ∈ [{ still with tick_1ms := true }], i.rst = false) ∧
    ticks [{ still with tick_1ms := true }] < (sig .exitingBootloader .settle 2).timer.toNat ∧
    ticks [{ still with tick_1ms := true }] + 1 = (sig .exitingBootloader .settle 2).timer.toNat := by
  decide
/-- The call of the checksum frame: with more ready cycles than bytes, and with one too few and the last
byte taken in the cycle of `wr_done`. -/
theorem test_met_WriteCallStreamsTheFrame :
    legalPosition (sig .verifying .send2 0).toRegs = true ∧
    sigFrame (sig .verifying .send2 0) = some [0x00, 0x00, 0x00, 0x06] ∧
    (sig .verifying .send2 0).txPos = 0 ∧ [0x00, 0x00, 0x00, 0x06].length ≤ 133 ∧
    (∀ i ∈ still :: List.replicate 5 { still with tx_ready := true },
      i.rst = false ∧ i.wr_done = false) ∧
    4 = min (readyCycles (still :: List.replicate 5 { still with tx_ready := true })) 4 ∧
    3 = min (readyCycles (List.replicate 3 { still with tx_ready := true })) 4 ∧
    ({ still with wr_done := true, tx_ready := true } : SigIn).wr_done = true ∧
    ({ still with wr_done := true, tx_ready := true } : SigIn).tx_ready = true := by decide
/-- `wr_done` with the frame's last byte still to be taken, in a run and at EXIT. -/
theorem test_met_EarlyWriteDoneIsShort :
    legalPosition (sig .verifying .send2 0).toRegs = true ∧
    sigFrame (sig .verifying .send2 0) = some [0x00, 0x00, 0x00, 0x06] ∧
    ({ still with tx_ready := true, wr_done := true, wr_ok := true } : SigIn).wr_done = true ∧
    ({ sig .verifying .send2 0 with txPos := 2 } : SigState).txPos.toNat + 1
      < [0x00, 0x00, 0x00, 0x06].length ∧
    (sig .verifying .send2 0).st ≠ .exitingBootloader ∧
    legalPosition (sig .exitingBootloader .send 0).toRegs = true ∧
    sigFrame (sig .exitingBootloader .send 0) = some [0xF0] ∧
    (sig .exitingBootloader .send 0).txPos.toNat + 0 < [0xF0].length := by decide
/-- R163: `be32(6)` is `00 00 00 06`, at both levels. -/
theorem test_same_frame :
    sigFrame (sig .verifying .send2 0) = some [0x00, 0x00, 0x00, 0x06] ∧
    frameAt (mid .verifying .send2 [] []) = some [0x00, 0x00, 0x00, 0x06] ∧
    (outputs (sig .verifying .send2 0)).tx_valid = true := by decide
/-- The levels agree where a frame is offered: the second clause, with `test_same_frame`. -/
theorem test_met_SameFrame :
    RegInv (mid .verifying .send2 [] []).toRegs ∧
    Agrees (sig .verifying .send2 0) (mid .verifying .send2 [] []) := by
  refine ⟨by constructor <;> decide, rfl, by decide, .inr rfl, by decide, by decide, ?_⟩
  rw [test_same_frame.1]
  decide
/-- The two levels agree in the middle of a settle delay, and a cycle goes on from there. -/
theorem test_met_SignalLevelRefinesStep :
    RegInv (mid .enteringBootloader .settle [] []).toRegs ∧
    Agrees (sig .enteringBootloader .settle 1) (mid .enteringBootloader .settle [] []) ∧
    imagePortRight still (sig .enteringBootloader .settle 1)
      (mid .enteringBootloader .settle [] []).img ∧
    (sfield (cycle still (sig .enteringBootloader .settle 1)) (·.ph)).isSome = true := by
  refine ⟨by constructor <;> decide, ?_, ?_, by decide⟩
  · exact ⟨rfl, by decide, .inr rfl, by decide, fun _ => rfl, rfl⟩
  · intro a h
    have e : (outputs (sig .enteringBootloader .settle 1)).img_req = false := by decide
    rw [e] at h
    cases h
/-- Page 1 of 130 bytes: a request standing, the cycle after a byte, and both of its bytes. -/
theorem test_met_ImagePortReadsThePage :
    still.rst = false ∧ legalPosition sigPage.toRegs = true ∧ sigPage.st = .writingPages ∧
    sigPage.ph = .send ∧ sigPage.buf.length < pageLength sigPage.len sigPage.idx ∧
    sigPage.reqDropped = false ∧
    (takeImageByte 0x80 sigPage).buf.length < pageLength sigPage.len sigPage.idx ∧
    (takeImageByte 0x80 sigPage).reqDropped = true ∧ sigPage.buf = [] ∧
    [(0x80 : Byte), 0x81].length = pageLength sigPage.len sigPage.idx ∧
    ({ still with img_ack := true } : SigIn).img_ack = true ∧ still.tx_ready = false ∧
    still.wr_done = false := by decide

end Sys2Proof.Tests
end

section
/-! PROOFS. Family 10 (state), first layer: what a write call, a settle delay and a handshake do to the
position, and the rules by which each keeps the register invariant. -/

namespace Sys2Proof.Machine

open Sys2Proof.Config

/-! ### Where each primitive leads -/

/-- The positions at which a frame is sent (R79). -/
def Sends (r : Regs) : Prop :=
  (r.st = .enteringBootloader ∧ r.ph = .send) ∨ (r.st = .erasing ∧ r.ph = .send) ∨
  (r.st = .writingPages ∧ r.ph = .send) ∨ (r.st = .verifying ∧ r.ph = .send) ∨
  (r.st = .verifying ∧ r.ph = .send2) ∨ (r.st = .exitingBootloader ∧ r.ph = .send)

theorem sends_of_frameAt {s : State} {bytes : List Byte} (h : frameAt s = some bytes) :
    Sends s.toRegs := frameAt_st h

theorem Sends.busy {r : Regs} (h : Sends r) : quiescent r.st = false := by
  rcases h with ⟨h, -⟩ | ⟨h, -⟩ | ⟨h, -⟩ | ⟨h, -⟩ | ⟨h, -⟩ | ⟨h, -⟩ <;> rw [h] <;> rfl

/-- A write call that answered either fails the run, not at EXIT, or moves to a later phase of the same
state, which is legal where the position was. -/
theorem afterWrite_cases {r : Regs} (h : Sends r) (a : Bool) :
    (a = false ∧ r.st ≠ .exitingBootloader ∧ afterWrite a r = raiseFail .shortWrite r) ∨
    (a = true ∨ r.st = .exitingBootloader) ∧ ∃ ph, afterWrite a r = moveTo r.st ph r ∧
      (legalPosition r = true → legalPosition { r with ph := ph } = true) := by
  rcases h with ⟨h1, h2⟩ | ⟨h1, h2⟩ | ⟨h1, h2⟩ | ⟨h1, h2⟩ | ⟨h1, h2⟩ | ⟨h1, h2⟩ <;> cases a <;>
    simp [afterWrite, legalPosition, inPages, h1, h2]
  all_goals exact ⟨_, rfl, by simp⟩

/-- A settle delay leads to the handshake after ENTER, and to `Done` after EXIT (R183, R196). -/
theorem afterSleep_cases {r : Regs} {ms : Ms} (h : settleDelay r.st = some ms) :
    (r.st = .enteringBootloader ∧ afterSleep r = moveTo .enteringBootloader .wait r) ∨
    (r.st = .exitingBootloader ∧ afterSleep r = moveTo .done .send r) := by
  obtain ⟨hs | hs, -⟩ := settleDelay_some h <;> simp [afterSleep, hs]

/-- A handshake either fails the run with the cause that belongs to the result it latches, or the byte is
ACK and the sequencer advances (R100, R108). -/
theorem afterRead_cases (answer : Option Byte) (sum : Word) (r : Regs) :
    (answer = none ∧ afterRead answer sum r = raiseFail .timeout (latchTimeout r)) ∨
    (answer = some cfg.rspNack ∧
      afterRead answer sum r = raiseFail .nack (latchByte cfg.rspNack .nack r)) ∨
    (∃ b, answer = some b ∧ isForeign b = true ∧
      afterRead answer sum r = raiseFail .malformed (latchByte b .malformed r)) ∨
    (answer = some cfg.rspAck ∧
      afterRead answer sum r = advance sum (latchByte cfg.rspAck .ok r)) := by
  rcases answer with _ | b
  · exact .inl ⟨rfl, rfl⟩
  rcases classify_cases b with hc | hc | hc
  · obtain rfl := classify_ok.1 hc
    exact .inr (.inr (.inr ⟨rfl, by simp only [afterRead, hc]⟩))
  · obtain rfl := classify_nack.1 hc
    exact .inr (.inl ⟨rfl, by simp only [afterRead, hc]⟩)
  · exact .inr (.inr (.inl ⟨b, rfl, classify_malformed.1 hc, by simp only [afterRead, hc]⟩))

theorem afterWrite_len {r : Regs} (h : Sends r) (a : Bool) : (afterWrite a r).len = r.len := by
  rcases afterWrite_cases h a with ⟨-, -, e⟩ | ⟨-, ph, e, -⟩ <;> rw [e] <;> rfl

@[simp] theorem afterRead_len (answer : Option Byte) (sum : Word) (r : Regs) :
    (afterRead answer sum r).len = r.len := by
  rcases afterRead_cases answer sum r with ⟨-, e⟩ | ⟨-, e⟩ | ⟨_, -, -, e⟩ | ⟨-, e⟩ <;> simp [e]

theorem settleDelay_busy {st : SessionState} {ms : Ms} (h : settleDelay st = some ms) :
    quiescent st = false := by
  obtain ⟨rfl | rfl, -⟩ := settleDelay_some h <;> rfl

theorem awaiting_busy {r : Regs} {t : Ms} (h : awaiting r = some t) :
    quiescent r.st = false ∧ r.st ≠ .exitingBootloader := by
  obtain ⟨-, hw, -⟩ := awaiting_eq_some.1 h
  cases hs : r.st <;> simp [hs, waitTimeout, quiescent] at hw ⊢

/-- A legal position is quiescent, sends a frame, settles, or awaits a response (R12, R14). -/
theorem legalPosition_cases {r : Regs} (h : legalPosition r = true) :
    (quiescent r.st = true ∧ r.ph = .send) ∨ Sends r ∨
    (r.ph = .settle ∧ ∃ ms, settleDelay r.st = some ms) ∨ ∃ t, awaiting r = some t := by
  simp only [awaiting, h, Sends]
  cases hs : r.st <;> cases hp : r.ph <;>
    simp [legalPosition, hs, hp] at h <;> simp [quiescent, settleDelay, waitTimeout]

/-! ### The register invariant, move by move -/

theorem regInv_reset : RegInv Regs.reset := by
  constructor <;> decide

/-- In a busy state no handshake has finished, or the last one returned `Ok` (R20, R221). -/
theorem RegInv.hs_busy {r : Regs} (h : RegInv r) (hb : quiescent r.st = false) :
    r.hs = .none ∨ r.hs = .ok := by
  cases hs : r.st <;> simp [hs, quiescent] at hb
  case enteringBootloader => exact .inl (h.noHandshakeYet hs)
  all_goals exact .inr (h.handshakeOk (by simp [hs]))

/-- Another phase of the same busy state. -/
theorem RegInv.moveTo_phase {r : Regs} {ph : Phase} (h : RegInv r) (hb : quiescent r.st = false)
    (hl : legalPosition { r with ph := ph } = true) : RegInv (moveTo r.st ph r) :=
  { h with
    position := hl
    clock := rfl
    idleIsReset := fun hi => by
      rw [moveTo_st] at hi
      simp [hi, quiescent] at hb }

/-- A cause that agrees with the handshake result and the byte beside it (R210, R220): the causes of a
handshake go with its results, and `ShortWrite` with none of them. -/
structure ConsistentFailure (c : Cause) (hs : HsResult) (rxb : Byte) : Prop where
  duringRun : c ≠ .none ∧ c ≠ .emptyImage ∧ c ≠ .channelClosed
  cause : (hs = .timeout ↔ c = .timeout) ∧ (hs = .nack ↔ c = .nack) ∧
    (hs = .malformed ↔ c = .malformed)
  lastByte : (hs = .none → rxb = 0) ∧ (hs = .ok → rxb = cfg.rspAck) ∧
    (hs = .nack → rxb = cfg.rspNack) ∧ (hs = .malformed → isForeign rxb = true)

/-- A failure in a busy state other than `ExitingBootloader` (R200, R220). -/
theorem RegInv.failed {r : Regs} {c : Cause} {hs : HsResult} {rxb : Byte} (h : RegInv r)
    (hb : quiescent r.st = false) (he : r.st ≠ .exitingBootloader) (hc : ConsistentFailure c hs rxb) :
    RegInv (raiseFail c { r with hs := hs, rxb := rxb }) where
  position := rfl
  clock := rfl
  pages := h.pages
  nonempty := by simp [quiescent]
  idleIsReset := by simp
  beforePages := by simp
  afterPages := by simp
  noSumYet := by simp
  noRecord := by simp
  record _ := ⟨hc.duringRun.1, rfl⟩
  recordState _ := by
    refine ⟨he, ?_, ?_⟩ <;> intro hf <;> simp [show r.st = _ from hf, quiescent] at hb
  startCauses _ := by
    have : r.st ≠ .idle := fun hi => by simp [hi, quiescent] at hb
    simp [this, hc.duringRun]
  noHandshakeYet := by simp
  handshakeOk := by simp
  handshakeCause _ := hc.cause
  lastByte := hc.lastByte

/-- The states past the first handshake need only these facts. -/
theorem regInv_acknowledged {r : Regs}
    (hst : r.st = .erasing ∨ r.st = .writingPages ∨ r.st = .verifying ∨
      r.st = .exitingBootloader ∨ r.st = .done)
    (position : legalPosition r = true) (clock : r.timer = interval r.st r.ph)
    (pages : r.npages = pageCount r.len) (nonempty : r.len ≠ 0)
    (firstPage : r.st = .erasing → r.idx = 0)
    (lastPage : (r.st = .verifying ∨ r.st = .exitingBootloader ∨ r.st = .done) →
      r.idx.toNat + 1 = r.npages.toNat)
    (noSum : (r.st = .erasing ∨ r.st = .writingPages) → r.csum = 0)
    (noRecord : r.cause = .none ∧ r.fstate = .idle ∧ r.fidx = 0)
    (ack : r.hs = .ok ∧ r.rxb = cfg.rspAck) : RegInv r where
  position := position
  clock := clock
  pages := pages
  nonempty _ := nonempty
  idleIsReset h := by simp [h] at hst
  beforePages h := firstPage (h.resolve_left fun he => by simp [he] at hst)
  afterPages := lastPage
  noSumYet h := noSum (h.resolve_left fun he => by simp [he] at hst)
  noRecord _ := noRecord
  record h := by simp [h] at hst
  recordState h := by simp [h] at hst
  startCauses h := by simp [h] at hst
  noHandshakeYet h := by simp [h] at hst
  handshakeOk _ := ack.1
  handshakeCause h := by simp [h] at hst
  lastByte := by simp [ack]

/-- An acknowledged handshake (R184, R186, R189, R194). -/
theorem RegInv.acknowledged {r : Regs} {t : Ms} (h : RegInv r) (ha : awaiting r = some t) (sum : Word) :
    RegInv (advance sum (latchByte cfg.rspAck .ok r)) := by
  obtain ⟨hb, -⟩ := awaiting_busy ha
  obtain ⟨-, hw, hi⟩ := awaiting_eq_some.1 ha
  have hlen := h.nonempty (.inl hb)
  have hrec := h.noRecord fun hf => by simp [hf, quiescent] at hb
  rcases advance_cases (r := latchByte cfg.rspAck .ok r) hw sum with
    ⟨hs, e⟩ | ⟨hs, e⟩ | ⟨hs, hlt, e⟩ | ⟨hs, hge, e⟩ | ⟨hs, e⟩ <;>
    rw [e] <;> simp only [latchByte_st, latchByte_idx, latchByte_npages] at *
  · exact regInv_acknowledged (by simp) rfl rfl h.pages hlen (fun _ => h.beforePages (.inl hs))
      (by simp) (fun _ => h.noSumYet (.inl hs)) hrec ⟨rfl, rfl⟩
  · refine regInv_acknowledged (by simp) ?_ rfl h.pages hlen (by simp) (by simp)
      (fun _ => h.noSumYet (.inr (.inl hs))) hrec ⟨rfl, rfl⟩
    have : 0 < r.npages.toNat := by
      rw [h.pages, lt_pageCount_iff]
      have : r.len.toNat ≠ 0 := fun h0 => hlen (BitVec.eq_of_toNat_eq h0)
      omega
    simpa [legalPosition, inPages] using this
  · refine regInv_acknowledged (by simp) ?_ rfl h.pages hlen (by simp) (by simp)
      (fun _ => h.noSumYet (.inr (.inr hs))) hrec ⟨rfl, rfl⟩
    have := r.idx.isLt
    simp [legalPosition, inPages]
    omega
  · have := h.page_lt hs
    exact regInv_acknowledged (by simp) rfl rfl h.pages hlen (by simp)
      (fun _ => by simp; omega) (by simp) hrec ⟨rfl, rfl⟩
  · exact regInv_acknowledged (by simp) rfl rfl h.pages hlen (by simp)
      (fun _ => h.afterPages (.inl hs)) (by simp) hrec ⟨rfl, rfl⟩

/-- A write call that answered. -/
theorem RegInv.wrote {r : Regs} (h : RegInv r) (hs : Sends r) (a : Bool) :
    RegInv (afterWrite a r) := by
  have hb := hs.busy
  rcases afterWrite_cases hs a with ⟨-, he, e⟩ | ⟨-, ph, e, hl⟩ <;> rw [e]
  · refine h.failed (hs := r.hs) (rxb := r.rxb) hb he ⟨by simp, ?_, h.lastByte⟩
    rcases h.hs_busy hb with e | e <;> simp [e]
  · exact h.moveTo_phase hb (hl h.position)

/-- A settle delay that has passed. -/
theorem RegInv.slept {r : Regs} {ms : Ms} (h : RegInv r) (hd : settleDelay r.st = some ms) :
    RegInv (afterSleep r) := by
  rcases afterSleep_cases hd with ⟨hs, e⟩ | ⟨hs, e⟩ <;> rw [e]
  · have := h.moveTo_phase (ph := .wait) (by rw [hs]; rfl) (by simp [legalPosition, hs])
    rwa [hs] at this
  · have hok := h.handshakeOk (by simp [hs])
    exact regInv_acknowledged (by simp) rfl rfl h.pages (h.nonempty (.inl (by rw [hs]; rfl)))
      (by simp) (fun _ => h.afterPages (.inr (.inl hs))) (by simp) (h.noRecord (by simp [hs]))
      ⟨hok, h.lastByte.2.1 hok⟩

/-- A handshake that has ended. -/
theorem RegInv.read {r : Regs} {t : Ms} (h : RegInv r) (ha : awaiting r = some t)
    (answer : Option Byte) (sum : Word) : RegInv (afterRead answer sum r) := by
  obtain ⟨hb, he⟩ := awaiting_busy ha
  rcases afterRead_cases answer sum r with ⟨-, e⟩ | ⟨-, e⟩ | ⟨b, -, hf, e⟩ | ⟨-, e⟩ <;> rw [e]
  · exact h.failed hb he ⟨by simp, by simp, by simp⟩
  · exact h.failed hb he ⟨by simp, by simp, by simp⟩
  · exact h.failed hb he ⟨by simp, by simp, by simp [hf]⟩
  · exact h.acknowledged ha sum

/-- An accepted start, in its three cases (R180, R181). -/
theorem regInv_acceptStart (s : State) : RegInv (acceptStart s).toRegs := by
  rcases acceptStart_cases s with ⟨-, e⟩ | ⟨-, -, e⟩ | ⟨h0, -, e⟩ <;> rw [e]
  · constructor <;> simp [legalPosition, interval, quiescent]
  · constructor <;> simp [legalPosition, interval, quiescent]
  · constructor <;> simp [legalPosition, interval, quiescent]
    exact h0

theorem RegInv.stepped {s t : State} (h : RegInv s.toRegs) (hstep : step s = .next t) :
    RegInv t.toRegs := by
  cases step_inv hstep with
  | reset _ => exact regInv_reset
  | quiet _ _ _ _ => exact h
  | start _ _ _ _ => exact regInv_acceptStart s
  | pending _ _ _ _ => exact h
  | wrote _ _ a _ hf _ => exact h.wrote (sends_of_frameAt hf) a
  | slept _ _ _ hd => exact h.slept hd
  | read _ _ ha => exact h.read ha _ _

/-- Settles O41: every move a step can make keeps the invariant, and the intervals are constants. -/
theorem stepKeepsRegInv : Obligations.StepKeepsRegInv := by
  unfold Obligations.StepKeepsRegInv
  exact ⟨fun _ _ h hstep => h.stepped hstep, rfl, rfl, rfl, rfl, rfl, rfl, fun _ => ⟨rfl, rfl⟩⟩

end Sys2Proof.Machine
end

section
/-! PROOFS. Family 10 (state): the checksum and trace invariants, move by move, and the soundness of every
reachable state. -/

namespace Sys2Proof.Machine

open Sys2Proof.Config

/-! ### The checksum invariant -/

/-- Outside `Verifying` and later, the sum of a busy state is still 0 (R17). -/
theorem SumInv.csum_busy {s : State} (h : RegInv s.toRegs) (hsum : SumInv s)
    (hb : quiescent s.st = false) (he : s.st ≠ .exitingBootloader) :
    s.csum = if s.st = .verifying then checksumOf s.img s.len.toNat else 0 := by
  by_cases hv : s.st = .verifying
  · rw [if_pos hv, hsum.verified (.inl hv)]
  · rw [if_neg hv]
    refine h.noSumYet ?_
    cases hs : s.st <;> simp [hs, quiescent] at hb he hv ⊢

/-- A failure keeps the sum and records the state. -/
theorem SumInv.failed_of {s u : State} (h : RegInv s.toRegs) (hsum : SumInv s)
    (hb : quiescent s.st = false) (he : s.st ≠ .exitingBootloader) (hst : u.st = .failed)
    (hf : u.fstate = s.st) (hc : u.csum = s.csum) (himg : u.img = s.img) (hlen : u.len = s.len) :
    SumInv u where
  verified hv := by simp [hst] at hv
  failed _ := by rw [hc, hsum.csum_busy h hb he, hf, himg, hlen]

theorem sumInv_of_early {u : State} (h : u.st = .idle ∨ u.st = .enteringBootloader ∨
    u.st = .erasing ∨ u.st = .writingPages) : SumInv u where
  verified hv := by rcases h with h | h | h | h <;> simp [h] at hv
  failed hf := by rcases h with h | h | h | h <;> simp [h] at hf

theorem sumInv_of_late {u : State} (h : u.st = .verifying ∨ u.st = .exitingBootloader ∨ u.st = .done)
    (hc : u.csum = checksumOf u.img u.len.toNat) : SumInv u where
  verified _ := hc
  failed hf := by rcases h with h | h | h <;> simp [h] at hf

/-- An accepted start clears the sum, whatever held before it (R181). -/
theorem sumInv_acceptStart (s : State) : SumInv (acceptStart s) := by
  rcases acceptStart_cases s with ⟨-, e⟩ | ⟨-, -, e⟩ | ⟨-, -, e⟩ <;> rw [e]
  · exact ⟨by simp, by simp⟩
  · exact ⟨by simp, by simp⟩
  · exact sumInv_of_early (by simp)

theorem SumInv.wrote {s : State} {bytes : List Byte} {a : Bool} {rest : List Bool}
    (h : RegInv s.toRegs) (hsum : SumInv s) (hs : Sends s.toRegs) :
    SumInv (wroteState bytes a rest s) := by
  rcases afterWrite_cases hs a with ⟨-, he, e⟩ | ⟨-, ph, e, -⟩ <;> rw [wroteState, e]
  · exact hsum.failed_of h hs.busy he rfl rfl rfl rfl rfl
  · exact ⟨hsum.verified, hsum.failed⟩

theorem SumInv.slept {s : State} {ms : Ms} (hsum : SumInv s) (hd : settleDelay s.st = some ms) :
    SumInv (sleptState ms s) := by
  rcases afterSleep_cases hd with ⟨-, e⟩ | ⟨hs, e⟩ <;> rw [sleptState, e]
  · exact sumInv_of_early (by simp)
  · exact sumInv_of_late (by simp) (hsum.verified (.inr (.inl hs)))

theorem SumInv.read {s : State} {t : Ms} (h : RegInv s.toRegs) (hsum : SumInv s)
    (ha : awaiting s.toRegs = some t) : SumInv (readState t s) := by
  obtain ⟨hb, he⟩ := awaiting_busy ha
  rcases afterRead_cases (nextRead s) (checksumOf s.img s.len.toNat) s.toRegs with
    ⟨-, e⟩ | ⟨-, e⟩ | ⟨_, -, -, e⟩ | ⟨-, e⟩ <;> rw [readState, e]
  iterate 3 exact hsum.failed_of h hb he rfl rfl rfl rfl rfl
  rcases advance_cases (r := latchByte cfg.rspAck .ok s.toRegs) (awaiting_eq_some.1 ha).2.1
    (checksumOf s.img s.len.toNat) with ⟨-, e⟩ | ⟨-, e⟩ | ⟨-, -, e⟩ | ⟨-, -, e⟩ | ⟨hs, e⟩ <;> rw [e]
  iterate 3 exact sumInv_of_early (by simp)
  · exact sumInv_of_late (by simp) rfl
  · exact sumInv_of_late (by simp) (hsum.verified (.inl hs))

theorem SumInv.stepped {s t : State} (h : RegInv s.toRegs) (hsum : SumInv s)
    (hstep : step s = .next t) : SumInv t := by
  cases step_inv hstep with
  | reset _ => exact sumInv_of_early (by simp [Regs.reset])
  | quiet _ _ _ _ => exact hsum
  | start _ _ _ _ => exact sumInv_acceptStart s
  | pending _ _ _ _ => exact hsum
  | wrote _ _ _ _ hf _ => exact hsum.wrote h (sends_of_frameAt hf)
  | slept _ _ _ hd => exact hsum.slept hd
  | read _ _ ha => exact hsum.read h ha

/-- Settles O43: only the ACK that enters `Verifying` writes `csum`, and a failure keeps it. -/
theorem stepKeepsSumInv : Obligations.StepKeepsSumInv := by
  unfold Obligations.StepKeepsSumInv
  exact fun _ _ h hsum hstep => hsum.stepped h hstep

/-! ### The trace invariant -/

/-- A position that sends is reached with the trace of that position. -/
theorem TraceInv.at_sends {s : State} (h : TraceInv s) (hs : Sends s.toRegs) :
    s.trace = traceAt s.img s.len s.npages.toNat s.idx.toNat s.st s.ph := by
  refine traceInv_busy h ?_
  rcases hs with ⟨h, hp⟩ | ⟨h, hp⟩ | ⟨h, hp⟩ | ⟨h, hp⟩ | ⟨h, hp⟩ | ⟨h, hp⟩ <;> simp [h, hp]

/-- A position that awaits a response is reached with the trace of that position. -/
theorem TraceInv.at_awaiting {s : State} {t : Ms} (h : TraceInv s) (ha : awaiting s.toRegs = some t) :
    s.trace = traceAt s.img s.len s.npages.toNat s.idx.toNat s.st s.ph := by
  refine traceInv_busy h ?_
  obtain ⟨-, hw, -⟩ := awaiting_eq_some.1 ha
  cases hs : s.st <;> simp [hs, waitTimeout] at hw ⊢

/-- An accepted start begins the trace afresh, whatever held before it. -/
theorem traceInv_acceptStart (s : State) : TraceInv (acceptStart s) := by
  rcases acceptStart_cases s with ⟨-, e⟩ | ⟨-, -, e⟩ | ⟨-, -, e⟩ <;> rw [e]
  · exact .inl ⟨rfl, rfl⟩
  · exact .inr (.inl ⟨rfl, rfl⟩)
  · rfl

/-- A write call that answered `false`, where that fails the run: its event is the failing one. -/
theorem TraceInv.shortWrite {s : State} {bytes : List Byte} {rest : List Bool}
    (htr : TraceInv s) (hf : frameAt s = some bytes)
    (e : afterWrite false s.toRegs = raiseFail .shortWrite s.toRegs) :
    TraceInv (wroteState bytes false rest s) := by
  rw [wroteState, e]
  exact traceInv_failed (s := s) (e := .write bytes false) (ph := s.ph) rfl rfl rfl rfl rfl rfl (htr.at_sends (sends_of_frameAt hf)) rfl
    ⟨rfl, rfl, hf⟩

theorem TraceInv.wrote {s : State} {bytes : List Byte} {a : Bool} {rest : List Bool}
    (hsum : SumInv s) (htr : TraceInv s) (hf : frameAt s = some bytes) :
    TraceInv (wroteState bytes a rest s) := by
  have hs := sends_of_frameAt hf
  rcases afterWrite_cases hs a with ⟨rfl, -, e⟩ | ⟨ha, -⟩
  · exact htr.shortWrite hf e
  have htrace := htr.at_sends hs
  have hcsum : s.st = .verifying → s.csum = checksumOf s.img s.len.toNat :=
    fun hv => hsum.verified (.inl hv)
  rcases hs with ⟨h1, h2⟩ | ⟨h1, h2⟩ | ⟨h1, h2⟩ | ⟨h1, h2⟩ | ⟨h1, h2⟩ | ⟨h1, h2⟩ <;>
    simp only [frameAt, traceAt, h1, h2, Option.some.injEq, reduceCtorEq, or_false] at hf htrace ha <;>
    subst hf
  case inr.inr.inr.inr.inr => simp [TraceInv, wroteState, afterWrite, h1, h2, htrace]
  all_goals
    simp [TraceInv, wroteState, afterWrite, h1, h2, ha, htrace, traceAt, erasedTrace, hcsum]

theorem TraceInv.slept {s : State} {ms : Ms} (hp : s.ph = .settle) (htr : TraceInv s)
    (hd : settleDelay s.st = some ms) : TraceInv (sleptState ms s) := by
  obtain ⟨-, rfl⟩ := settleDelay_some hd
  rcases afterSleep_cases hd with ⟨hs, e⟩ | ⟨hs, e⟩ <;> rw [sleptState, e] <;>
    simp only [TraceInv, hs, hp, reduceCtorEq, false_and, false_or, true_and] at htr
  · simp [TraceInv, htr, traceAt, erasedTrace]
  · obtain ⟨a, htr⟩ := htr
    simp [TraceInv, htr, doneTrace]

/-- A handshake that fails, `r` being the registers with its result latched: the read is the failing
event. -/
theorem TraceInv.failedRead {s : State} {t : Ms} {c : Cause} {r : Regs} (htr : TraceInv s)
    (ha : awaiting s.toRegs = some t)
    (e : afterRead (nextRead s) (checksumOf s.img s.len.toNat) s.toRegs = raiseFail c r)
    (hr : r = { s.toRegs with rxb := r.rxb, hs := r.hs })
    (hc : (c = .timeout ∧ nextRead s = none) ∨ (c = .nack ∧ nextRead s = some cfg.rspNack) ∨
      (c = .malformed ∧ isForeign r.rxb = true ∧ nextRead s = some r.rxb)) :
    TraceInv (readState t s) := by
  obtain ⟨hp, hw, -⟩ := awaiting_eq_some.1 ha
  rw [readState, e, hr]
  exact traceInv_failed (s := s) (e := .read t (nextRead s)) (ph := s.ph) rfl rfl rfl rfl rfl rfl
    (htr.at_awaiting ha) rfl ⟨hp, hw, hc⟩

/-- While a page follows, the page index does not wrap (R13, R143). -/
theorem RegInv.next_idx {r : Regs} (h : RegInv r) (hlt : r.idx.toNat + 1 < r.npages.toNat) :
    (r.idx + 1).toNat = r.idx.toNat + 1 := by
  have hl := r.len.isLt
  rw [h.pages, pageCount_toNat] at hlt
  rw [BitVec.toNat_add, show (1 : PageIdx).toNat = 1 from rfl]
  omega

/-- An acknowledged handshake: its read is what the next position's trace adds. -/
theorem TraceInv.acknowledged {s : State} {t : Ms} (h : RegInv s.toRegs) (htr : TraceInv s)
    (ha : awaiting s.toRegs = some t) :
    TraceInv { s with
      toRegs := advance (checksumOf s.img s.len.toNat) (latchByte cfg.rspAck .ok s.toRegs)
      rdAns := s.rdAns.tail
      trace := s.trace ++ [acked t] } := by
  have htrace := htr.at_awaiting ha
  obtain ⟨hp, hw, -⟩ := awaiting_eq_some.1 ha
  rcases advance_cases (r := latchByte cfg.rspAck .ok s.toRegs) hw (checksumOf s.img s.len.toNat)
    with ⟨hs, e⟩ | ⟨hs, e⟩ | ⟨hs, hlt, e⟩ | ⟨hs, hge, e⟩ | ⟨hs, e⟩ <;> rw [e] <;>
    rw [latchByte_st] at hs <;>
    simp only [hs, hp, traceAt, waitTimeout, Option.some.injEq] at htrace hw <;> subst hw
  · simp [TraceInv, htrace, traceAt, erasedTrace]
  · simp [TraceInv, htrace, traceAt, erasedTrace, pagesTrace]
  · have hidx : (s.idx + 1).toNat = s.idx.toNat + 1 := h.next_idx hlt
    simp only [TraceInv, traceAt, moveTo_st, moveTo_ph, moveTo_idx, latchByte_idx, htrace, hidx]
    simp [pagesTrace]
  · have hlast : s.npages.toNat = s.idx.toNat + 1 := by
      have := h.page_lt hs
      simp only [latchByte_idx, latchByte_npages] at hge
      omega
    simp [TraceInv, htrace, traceAt, pagesTrace, hlast]
  · simp [TraceInv, htrace, verifiedTrace]

theorem TraceInv.read {s : State} {t : Ms} (h : RegInv s.toRegs) (htr : TraceInv s)
    (ha : awaiting s.toRegs = some t) : TraceInv (readState t s) := by
  rcases afterRead_cases (nextRead s) (checksumOf s.img s.len.toNat) s.toRegs with
    ⟨hn, e⟩ | ⟨hn, e⟩ | ⟨b, hn, hb, e⟩ | ⟨hn, e⟩
  · exact htr.failedRead ha e rfl (.inl ⟨rfl, hn⟩)
  · exact htr.failedRead ha e rfl (.inr (.inl ⟨rfl, hn⟩))
  · exact htr.failedRead ha e rfl (.inr (.inr ⟨rfl, hb, hn⟩))
  · rw [readState, e, hn]
    exact htr.acknowledged h ha

theorem TraceInv.stepped {s t : State} (h : RegInv s.toRegs) (hsum : SumInv s) (htr : TraceInv s)
    (hstep : step s = .next t) : TraceInv t := by
  cases step_inv hstep with
  | reset _ => exact rfl
  | quiet _ _ _ _ => exact htr
  | start _ _ _ _ => exact traceInv_acceptStart s
  | pending _ _ _ _ => exact htr
  | wrote _ _ _ _ hf _ => exact htr.wrote hsum hf
  | slept _ _ hp hd => exact htr.slept hp hd
  | read _ _ ha => exact htr.read h ha

/-- Settles O40: every register has its reset value, and the trace and the image are empty. -/
theorem invariantsHoldAtReset : Obligations.InvariantsHoldAtReset := by
  unfold Obligations.InvariantsHoldAtReset
  exact ⟨regInv_reset, sumInv_of_early (.inl rfl), rfl, reset_img_wf⟩

/-! ### Every reachable state -/

theorem Sends.exists_frame {s : State} (h : Sends s.toRegs) : ∃ bytes, frameAt s = some bytes := by
  rcases h with ⟨h1, h2⟩ | ⟨h1, h2⟩ | ⟨h1, h2⟩ | ⟨h1, h2⟩ | ⟨h1, h2⟩ | ⟨h1, h2⟩ <;>
    simp [frameAt, h1, h2]

/-- From registers that meet the invariant a step answers a next state: the position is one of those of
which `step` says what it does (R12). -/
theorem RegInv.step_goes_on {s : State} (h : RegInv s.toRegs) : ∃ t, step s = .next t := by
  cases hr : s.rst
  · rcases legalPosition_cases h.position with ⟨hq, hp⟩ | hs | ⟨hp, ms, hd⟩ | ⟨t, ha⟩
    · cases hs : s.start
      · exact ⟨s, step_quiet hr hq hp hs⟩
      · exact ⟨_, step_start hr hq hp hs⟩
    · obtain ⟨bytes, hf⟩ := hs.exists_frame
      obtain ⟨t, e, -⟩ := step_frame hr hf h.pages h.page_lt
      exact ⟨t, e⟩
    · exact ⟨_, step_sleep hr hp hd⟩
    · exact ⟨_, step_read hr ha⟩
  · exact ⟨_, by rw [step, if_pos hr]⟩

/-- What holds of every reachable state. The checksum and the trace are those of the image of the run, so
they are claimed only while it is under way: in a quiescent state the surroundings may load another
image. -/
structure Sound (s : State) : Prop where
  regs : RegInv s.toRegs
  running : quiescent s.st = false → s.imgLen = s.len ∧ SumInv s ∧ TraceInv s

theorem sound_reset : Sound State.reset := ⟨regInv_reset, fun h => by cases h⟩

/-- An accepted start latches `img_len` and begins the checksum and the trace afresh. -/
theorem sound_acceptStart (s : State) : Sound (acceptStart s) := by
  refine ⟨regInv_acceptStart s, fun _ => ⟨?_, sumInv_acceptStart s, traceInv_acceptStart s⟩⟩
  rcases acceptStart_cases s with ⟨-, e⟩ | ⟨-, -, e⟩ | ⟨-, -, e⟩ <;> rw [e] <;> rfl

/-- A step of a run under way that keeps the latched length keeps soundness. -/
theorem Sound.busy_step {s t : State} (h : Sound s) (hstep : step s = .next t)
    (hb : quiescent s.st = false) (hlen : t.len = s.len) : Sound t := by
  obtain ⟨himgLen, hsum, htr⟩ := h.running hb
  obtain ⟨-, hkeep, -⟩ := step_env hstep
  exact ⟨h.regs.stepped hstep, fun _ => ⟨by rw [hkeep, himgLen, hlen],
    hsum.stepped h.regs hstep, htr.stepped h.regs hsum hstep⟩⟩

/-- Every step keeps soundness: out of a quiescent state only an accepted start leads into a run. -/
theorem Sound.stepped {s t : State} (h : Sound s) (hstep : step s = .next t) : Sound t := by
  cases step_inv hstep with
  | reset _ => exact ⟨regInv_reset, fun hb => by cases hb⟩
  | quiet _ _ _ _ => exact h
  | start _ _ _ _ => exact sound_acceptStart s
  | pending _ _ _ _ => exact h
  | wrote _ _ a _ hf _ =>
    have hs := sends_of_frameAt hf
    exact h.busy_step hstep hs.busy (afterWrite_len hs a)
  | slept _ _ _ hd => exact h.busy_step hstep (settleDelay_busy hd) (afterSleep_len _)
  | read _ _ ha => exact h.busy_step hstep (awaiting_busy ha).1 (afterRead_len _ _ _)

/-- In a run the trace invariant reads nothing of the surroundings but the image. -/
theorem TraceInv.of_same_image {s : State} {e : Env} (hb : quiescent s.st = false)
    (himg : e.img = s.img) (h : TraceInv s) : TraceInv { s with toEnv := e } := by
  cases hs : s.st <;> simp only [TraceInv, hs, himg] at h ⊢
  case idle | done | failed => simp [hs, quiescent] at hb
  all_goals exact h

/-- The surroundings keep soundness: they leave the image and length of a run under way. -/
theorem Sound.driven {e : Env} {s t : State} (h : Sound s) (hdrive : drive e s = .next t) :
    Sound t := by
  obtain ⟨rfl, hkeep⟩ := drive_next hdrive
  refine ⟨h.regs, fun hb => ?_⟩
  obtain ⟨himg, himgLen⟩ : e.img = s.img ∧ e.imgLen = s.imgLen := hkeep hb
  obtain ⟨hlen, hsum, htr⟩ := h.running hb
  refine ⟨himgLen.trans hlen, ⟨?_, ?_⟩, htr.of_same_image hb himg⟩ <;> simp only [himg]
  · exact hsum.verified
  · exact hsum.failed

/-- Settles O42: soundness holds at reset, and every step and every drive keeps it. -/
theorem reachableStatesAreSound : Obligations.ReachableStatesAreSound := by
  unfold Obligations.ReachableStatesAreSound
  intro s hs
  have h : Sound s := by
    induction hs with
    | reset => exact sound_reset
    | step _ hstep ih => exact ih.stepped hstep
    | drive e _ hdrive ih => exact ih.driven hdrive
  exact ⟨h.regs, h.regs.step_goes_on, h.running⟩

end Sys2Proof.Machine
end

section
/-! PROOFS. Family 10 (state): the frames of the operations, and that a busy step does not look at `start`. -/

namespace Sys2Proof.Machine

open Sys2Proof.Config

/-! ### Frames -/

/-- All that sending a frame can do: the write call is pending, or its answer is consumed and noted, and
the registers move to a position or record a short write. -/
def Written (s t : State) : Prop :=
  t = s ∨ ∃ bytes a rest r, s.wrAns = a :: rest ∧
    t = { s with toRegs := r, wrAns := rest, trace := s.trace ++ [.write bytes a] } ∧
    (r = raiseFail .shortWrite s.toRegs ∨ ∃ st ph, r = moveTo st ph s.toRegs)

theorem written_sendFrame (bytes : List Byte) (st : SessionState) (ph : Phase) (s : State) :
    Written s (sendFrame bytes (moveTo st ph) s) := by
  rcases sendFrame_cases bytes (moveTo st ph) s with ⟨-, e⟩ | ⟨rest, hw, e⟩ | ⟨rest, hw, e⟩
  · exact .inl e
  · exact .inr ⟨bytes, true, rest, _, hw, e, .inr ⟨st, ph, rfl⟩⟩
  · exact .inr ⟨bytes, false, rest, _, hw, e, .inl rfl⟩

theorem written_sendUnchecked (bytes : List Byte) (st : SessionState) (ph : Phase) (s : State) :
    Written s (sendUnchecked bytes (moveTo st ph) s) := by
  rcases sendUnchecked_cases bytes (moveTo st ph) s with ⟨-, e⟩ | ⟨a, rest, hw, e⟩
  · exact .inl e
  · exact .inr ⟨bytes, a, rest, _, hw, e, .inr ⟨st, ph, rfl⟩⟩

/-- The operations with a TX frame send it and do nothing else. -/
theorem exec_tx_next {i : Instr} {s t : State} (hd : i.direction = some .tx)
    (h : exec i s = .next t) : Written s t := by
  cases i with
  | enter =>
    obtain ⟨-, -, rfl⟩ := execEnter_next h
    exact written_sendFrame _ _ _ s
  | erase =>
    obtain ⟨-, -, rfl⟩ := execErase_next h
    exact written_sendFrame _ _ _ s
  | writePage addr payload =>
    obtain ⟨-, -, -, -, -, rfl⟩ := execWritePage_next h
    exact written_sendFrame _ _ _ s
  | verify =>
    obtain ⟨-, -, rfl⟩ := execVerify_next h
    exact written_sendFrame _ _ _ s
  | checksum c =>
    obtain ⟨-, -, -, rfl⟩ := execChecksum_next h
    exact written_sendFrame _ _ _ s
  | exit =>
    obtain ⟨-, -, rfl⟩ := execExit_next h
    exact written_sendUnchecked _ _ _ s
  | ack | nack | malformed _ | awaitAck _ | sleep _ | upload => cases hd

/-- Settles O28: neither a move nor a short write touches what the frame lists. -/
theorem sendingFrame : Obligations.SendingFrame := by
  unfold Obligations.SendingFrame
  intro i s t hd h
  rcases exec_tx_next hd h with rfl | ⟨bytes, a, rest, r, hw, rfl, rfl | ⟨st, ph, rfl⟩⟩ <;> simp [*]

/-- A received byte, and a timeout, are what AWAIT_ACK does with the coming read. -/
theorem exec_rx_next {i : Instr} {s t : State}
    (hd : i.direction = some .rx ∨ ∃ ms, i = .awaitAck ms) (h : exec i s = .next t) :
    ∃ T, awaiting s.toRegs = some T ∧ t = readState T s := by
  have received : ∀ {b hs f}, receive b hs f s = .next t →
      f (latchByte b hs s.toRegs) = afterRead (some b) (checksumOf s.img s.len.toNat) s.toRegs →
      ∃ T, awaiting s.toRegs = some T ∧ t = readState T s := fun e hf => by
    obtain ⟨T, hT, hn, rfl⟩ := receive_next e
    exact ⟨T, hT, by rw [readState, hn, hf]⟩
  cases i with
  | ack => exact received h (by rfl)
  | nack => exact received h (by rfl)
  | malformed b =>
    simp only [exec, execMalformed] at h
    split at h
    · rename_i hb
      exact received h (by simp only [afterRead, hb])
    · cases h
  | awaitAck ms =>
    obtain ⟨hT, -⟩ := execAwaitAck_next h
    rw [exec, execAwaitAck_eq hT] at h
    cases h
    exact ⟨ms, hT, rfl⟩
  | _ => rcases hd with hd | ⟨_, hd⟩ <;> cases hd

/-- Settles O29: a failing handshake records, an acknowledged one advances (R199). -/
theorem receivingFrame : Obligations.ReceivingFrame := by
  unfold Obligations.ReceivingFrame
  intro i s t hd h
  obtain ⟨T, hT, rfl⟩ := exec_rx_next hd h
  rcases afterRead_cases (nextRead s) (checksumOf s.img s.len.toNat) s.toRegs with
    ⟨-, e⟩ | ⟨-, e⟩ | ⟨b, -, -, e⟩ | ⟨-, e⟩
  iterate 3
    simp only [readState, e]
    simp
  rcases advance_cases (r := latchByte cfg.rspAck .ok s.toRegs) (awaiting_eq_some.1 hT).2.1
    (checksumOf s.img s.len.toNat) with ⟨-, e'⟩ | ⟨-, e'⟩ | ⟨-, -, e'⟩ | ⟨hs, -, e'⟩ | ⟨-, e'⟩ <;>
    simp only [readState, e, e']
  case inr.inr.inr.inr.inr.inr.inl => simp [show s.st = .writingPages from hs]
  all_goals simp

/-- Settles O32: a step changes nothing the surroundings hold but the answers it consumes, and `drive` is
held to the image of a run under way. -/
theorem stepsKeepTheImage : Obligations.StepsKeepTheImage := by
  unfold Obligations.StepsKeepTheImage
  refine ⟨fun s t h => ?_, fun e s hb => ⟨fun h1 h2 => drive_eq fun _ => ⟨h1, h2⟩, fun hne => ?_⟩⟩
  · obtain ⟨himg, hlen, hrst, hstart, hopen⟩ := step_env h
    rw [himg]
    exact ⟨fun _ => rfl, id, hlen, hrst, hstart, hopen⟩
  · exact drive_imageChanged hb fun ⟨h1, h2⟩ => hne.elim (· h1) (· h2)

/-! ### The step -/

/-- Settles O33: without a reset, `step` is by definition the meaning of what is selected. -/
theorem stepRunsTheSelectedOperation : Obligations.StepRunsTheSelectedOperation := by
  unfold Obligations.StepRunsTheSelectedOperation
  intro s i hr hi
  simp [step, hr, hi]

/-! ### A busy step does not look at `start` -/

/-- The state with another level of the input `start`. -/
def setStart (b : Bool) (s : State) : State := { s with start := b }

@[simp] theorem setStart_toRegs (b : Bool) (s : State) : (setStart b s).toRegs = s.toRegs := rfl
@[simp] theorem setStart_rst (b : Bool) (s : State) : (setStart b s).rst = s.rst := rfl
@[simp] theorem setStart_img (b : Bool) (s : State) : (setStart b s).img = s.img := rfl
@[simp] theorem nextRead_setStart (b : Bool) (s : State) : nextRead (setStart b s) = nextRead s := rfl

theorem onRegs_setStart (b : Bool) (f : Regs → Regs) (s : State) :
    onRegs f (setStart b s) = setStart b (onRegs f s) := rfl

theorem chReadExact_setStart (b : Bool) (t : Ms) (s : State) :
    (chReadExact t (setStart b s)).2 = setStart b (chReadExact t s).2 := rfl

theorem sleepFor_setStart (b : Bool) (ms : Ms) (s : State) :
    sleepFor ms (setStart b s) = setStart b (sleepFor ms s) := rfl

/-- The next state changed by `f`; a stop stays. -/
def mapNext (f : State → State) : Result → Result
  | .next t => .next (f t)
  | .fault r => .fault r
  | .refused r => .refused r

@[simp] theorem mapNext_next (f : State → State) (t : State) :
    mapNext f (.next t) = .next (f t) := rfl
@[simp] theorem mapNext_fault (f : State → State) (r : Fault) : mapNext f (.fault r) = .fault r := rfl
@[simp] theorem mapNext_refused (f : State → State) (r : Refusal) :
    mapNext f (.refused r) = .refused r := rfl

@[simp] theorem mapNext_ite (f : State → State) (p : Prop) [Decidable p] (x y : Result) :
    mapNext f (if p then x else y) = if p then mapNext f x else mapNext f y := apply_ite ..

theorem sendFrame_setStart (b : Bool) (bytes : List Byte) (f : Regs → Regs) (s : State) :
    sendFrame bytes f (setStart b s) = setStart b (sendFrame bytes f s) := by
  rcases hw : s.wrAns with _ | ⟨_ | _, rest⟩ <;>
    simp [sendFrame, chWrite, setStart, hw, onRegs, record]

theorem sendUnchecked_setStart (b : Bool) (bytes : List Byte) (f : Regs → Regs) (s : State) :
    sendUnchecked bytes f (setStart b s) = setStart b (sendUnchecked bytes f s) := by
  rcases hw : s.wrAns with _ | ⟨_, rest⟩ <;>
    simp [sendUnchecked, chWrite, setStart, hw, onRegs, record]

theorem receive_setStart (b : Bool) (byte : Byte) (hs : HsResult) (f : Regs → Regs) (s : State) :
    receive byte hs f (setStart b s) = mapNext (setStart b) (receive byte hs f s) := by
  cases ha : awaiting s.toRegs
  · simp [receive, ha]
  · by_cases hn : nextRead s = some byte <;>
      simp [receive, ha, hn, chReadExact_setStart, onRegs_setStart]

theorem execWritePage_setStart (b : Bool) (addr : Word) (payload : List Byte) (s : State) :
    execWritePage addr payload (setStart b s) =
      mapNext (setStart b) (execWritePage addr payload s) := by
  cases hp : pagePayload s.img s.len s.idx <;>
    simp [execWritePage, hp, sendFrame_setStart]

theorem execMalformed_setStart (b : Bool) (byte : Byte) (s : State) :
    execMalformed byte (setStart b s) = mapNext (setStart b) (execMalformed byte s) := by
  simp [execMalformed, receive_setStart]

theorem execAwaitAck_setStart (b : Bool) (t : Ms) (s : State) :
    execAwaitAck t (setStart b s) = mapNext (setStart b) (execAwaitAck t s) := by
  rcases hn : nextRead s with _ | byte
  · simp [execAwaitAck, hn, chReadExact_setStart, onRegs_setStart]
  · rcases classify_cases byte with hc | hc | hc <;>
      simp [execAwaitAck, hn, hc, execAck, execNack, execMalformed_setStart, receive_setStart]

/-- The meaning of an operation other than UPLOAD does not depend on `start`, and keeps it. -/
theorem exec_setStart {i : Instr} (hi : i ≠ .upload) (b : Bool) (s : State) :
    exec i (setStart b s) = mapNext (setStart b) (exec i s) := by
  cases i with
  | enter => simp [exec, execEnter, sendFrame_setStart]
  | erase => simp [exec, execErase, sendFrame_setStart]
  | writePage addr payload => exact execWritePage_setStart b addr payload s
  | verify => simp [exec, execVerify, sendFrame_setStart]
  | checksum c => simp [exec, execChecksum, sendFrame_setStart]
  | exit => simp [exec, execExit, sendUnchecked_setStart]
  | ack => exact receive_setStart b ..
  | nack => exact receive_setStart b ..
  | malformed byte => exact execMalformed_setStart b byte s
  | awaitAck t => exact execAwaitAck_setStart b t s
  | sleep ms =>
    by_cases hd : s.ph = .settle ∧ settleDelay s.st = some ms <;>
      simp [exec, execSleep, hd, sleepFor_setStart, onRegs_setStart]
  | upload => exact absurd rfl hi

/-- In a busy state the selection does not depend on `start`, and is not UPLOAD. -/
theorem select_setStart {s : State} (hb : quiescent s.st = false) (b : Bool) :
    select (setStart b s) = select s ∧ select s ≠ .op .upload := by
  refine ⟨?_, fun h => ?_⟩
  · cases hs : s.st <;> simp [hs, quiescent] at hb <;> cases hp : s.ph <;>
      simp only [select, setStart_toRegs, hs, hp] <;> rfl
  · rcases select_op h with ⟨hq, -⟩ | ⟨-, -, e⟩ | ⟨_, -, e⟩ | ⟨-, hc⟩
    · simp [hq] at hb
    · cases e
    · cases e
    · simp at hc

theorem step_setStart {s : State} (hb : quiescent s.st = false) (b : Bool) :
    step (setStart b s) = mapNext (setStart b) (step s) := by
  obtain ⟨hsel, hu⟩ := select_setStart hb b
  simp only [step, hsel, setStart_rst, mapNext_ite]
  split
  · rfl
  · cases h : select s with
    | op i => exact exec_setStart (fun e => hu (by rw [h, e])) b s
    | quiet | beyondImage | unreachable => rfl

/-- Settles O23: UPLOAD is the identity in a busy state, and the step does not look at `start`. -/
theorem startIgnoredWhileBusy : Obligations.StartIgnoredWhileBusy := by
  unfold Obligations.StartIgnoredWhileBusy
  intro s hb
  refine ⟨by simp [exec, execUpload, hb], fun t h b => ?_⟩
  have := step_setStart (s := { s with start := false }) hb b
  rwa [h] at this

end Sys2Proof.Machine
end

section
/-! PROOFS. Family 10 (state): the intervals of the signal level, the accepted start at both levels, the
status outputs, and the agreement of the levels at reset. -/

namespace Sys2Proof.Machine

open Sys2Proof.Config

/-! ### Entering a phase at the signal level -/

theorem sends_of_sigFrame {σ : SigState} {f : List Byte} (h : sigFrame σ = some f) :
    Sends σ.toRegs := by
  cases hs : σ.st <;> cases hp : σ.ph <;> simp [sigFrame, hs, hp] at h <;> simp [Sends, hs, hp]

/-- A cycle of a `Send` or `Send2` phase leaves the registers, or ends the write call with an answer. -/
theorem sendCycle_toRegs (i : SigIn) (σ : SigState) :
    (sendCycle i σ).toRegs = σ.toRegs ∨
      Sends σ.toRegs ∧ ∃ a, (sendCycle i σ).toRegs = afterWrite a σ.toRegs := by
  unfold sendCycle
  split
  · left
    unfold imageCycle
    split
    · rfl
    · split <;> rfl
  · rename_i f hf
    unfold writeCycle
    split
    · exact .inr ⟨sends_of_sigFrame hf, _, rfl⟩
    · exact .inl rfl

/-- A failing or acknowledged handshake leads to a `Send` phase. -/
theorem afterRead_ph {r : Regs} {t : Ms} (ha : awaiting r = some t) (answer : Option Byte)
    (sum : Word) : (afterRead answer sum r).ph = .send := by
  rcases afterRead_cases answer sum r with ⟨-, e⟩ | ⟨-, e⟩ | ⟨_, -, -, e⟩ | ⟨-, e⟩ <;> rw [e]
  iterate 3 rfl
  rcases advance_cases (r := latchByte cfg.rspAck .ok r) (awaiting_eq_some.1 ha).2.1 sum with
    ⟨-, e⟩ | ⟨-, e⟩ | ⟨-, -, e⟩ | ⟨-, -, e⟩ | ⟨-, e⟩ <;> rw [e] <;> rfl

/-- What a clock cycle can do to the architectural registers. -/
inductive CycleCase (i : SigIn) (σ : SigState) : SigState → Prop where
  | reset : CycleCase i σ SigState.reset
  | quiescent (hq : quiescent σ.st = true) (hp : σ.ph = .send) : CycleCase i σ (startCycle i σ)
  | stayed {σ' : SigState} (h : σ'.toRegs = { σ.toRegs with timer := σ'.timer }) : CycleCase i σ σ'
  | wrote {σ' : SigState} (hl : legalPosition σ.toRegs = true) (hs : Sends σ.toRegs) (a : Bool)
      (h : σ'.toRegs = afterWrite a σ.toRegs) : CycleCase i σ σ'
  | slept {σ' : SigState} (ms : Ms) (hd : settleDelay σ.st = some ms)
      (h : σ'.toRegs = afterSleep σ.toRegs) : CycleCase i σ σ'
  | read {σ' : SigState} (t : Ms) (ha : awaiting σ.toRegs = some t) (answer : Option Byte)
      (h : σ'.toRegs = afterRead answer σ.acc σ.toRegs) : CycleCase i σ σ'

/-- The signal level right after an accepted start that left the registers at `r`. -/
def startedWith (r : Regs) : SigState :=
  { toRegs := r, buf := [], reqDropped := false, txPos := 0, acc := 0 }

/-- What a cycle with an accepted start does, in the same three cases as `acceptStart_cases` (R180). -/
theorem startCycle_cases {i : SigIn} (hs : i.start = true) (σ : SigState) :
    (i.img_len = 0 ∧ startCycle i σ =
      startedWith (raiseFail .emptyImage (latchStart i.img_len σ.toRegs))) ∨
    (i.img_len ≠ 0 ∧ i.ch_open = false ∧ startCycle i σ =
      startedWith (raiseFail .channelClosed (latchStart i.img_len σ.toRegs))) ∨
    (i.img_len ≠ 0 ∧ i.ch_open = true ∧ startCycle i σ =
      startedWith (moveTo .enteringBootloader .send (latchStart i.img_len σ.toRegs))) := by
  rw [startCycle, if_pos hs]
  by_cases h0 : i.img_len = 0
  · exact .inl ⟨h0, congrArg startedWith (if_pos h0)⟩
  · cases hc : i.ch_open
    · exact .inr (.inl ⟨h0, rfl, congrArg startedWith (if_neg h0)⟩)
    · exact .inr (.inr ⟨h0, rfl, congrArg startedWith (if_neg h0)⟩)

theorem startCycle_ph {σ : SigState} (i : SigIn) (hp : σ.ph = .send) :
    (startCycle i σ).ph = .send := by
  cases hs : i.start
  · simpa [startCycle, hs] using hp
  · rcases startCycle_cases hs σ with ⟨-, e⟩ | ⟨-, -, e⟩ | ⟨-, -, e⟩ <;> rw [e] <;> rfl

theorem countDown_toRegs (σ : SigState) :
    (countDown σ).toRegs = { σ.toRegs with timer := (countDown σ).timer } := by
  unfold countDown
  split <;> rfl

theorem settleCycle_case {i : SigIn} {σ : SigState} {ms : Ms} (hd : settleDelay σ.st = some ms) :
    CycleCase i σ (settleCycle i σ) := by
  unfold settleCycle
  split
  · split
    · exact .slept ms hd rfl
    · exact .stayed (countDown_toRegs σ)
  · exact .stayed rfl

theorem waitCycle_case {i : SigIn} {σ : SigState} {t : Ms} (ha : awaiting σ.toRegs = some t) :
    CycleCase i σ (waitCycle i σ) := by
  unfold waitCycle
  split
  · exact .read t ha (some i.rx_data) rfl
  · split
    · exact .read t ha none rfl
    · split
      · split
        · exact .read t ha none rfl
        · exact .stayed (countDown_toRegs σ)
      · exact .stayed rfl

/-- Everything a clock cycle can do to the architectural registers. -/
theorem cycle_inv {i : SigIn} {σ σ' : SigState} (h : cycle i σ = .next σ') : CycleCase i σ σ' := by
  cases hr : i.rst
  case true =>
    rw [cycle, if_pos hr] at h
    cases h
    exact .reset
  cases hl : legalPosition σ.toRegs
  case false => simp [cycle, hr, hl] at h
  rcases legalPosition_cases hl with ⟨hq, hp⟩ | hs | ⟨hp, ms, hd⟩ | ⟨t, ha⟩
  · rw [cycle_quiescent hr hl hq] at h
    cases h
    exact .quiescent hq hp
  · have hc : cycle i σ = .next (sendCycle i σ) := by
      rcases hs with hs | hs | hs | hs | hs | hs <;> simp [cycle, hr, hl, hs, quiescent]
    rw [hc] at h
    cases h
    rcases sendCycle_toRegs i σ with e | ⟨hs, a, e⟩
    · exact .stayed (by rw [e])
    · exact .wrote hl hs a e
  · rw [cycle_settle hr hp hl] at h
    cases h
    exact settleCycle_case hd
  · rw [cycle_wait hr (awaiting_eq_some.1 ha).1 hl] at h
    cases h
    exact waitCycle_case ha

/-- A cycle that enters a phase with an interval enters a legal position and loads its interval (R18,
R235). -/
theorem cycle_enters {i : SigIn} {σ σ' : SigState} (h : cycle i σ = .next σ') (hne : σ.ph ≠ σ'.ph)
    (hw : σ'.ph ≠ .send) :
    legalPosition σ'.toRegs = true ∧ σ'.timer = interval σ'.st σ'.ph := by
  cases cycle_inv h with
  | reset => exact absurd rfl hw
  | quiescent _ hp => exact absurd (startCycle_ph i hp) hw
  | stayed h => exact absurd (by rw [h]) hne
  | wrote hl hs a h =>
    rcases afterWrite_cases hs a with ⟨-, -, e⟩ | ⟨-, ph, e, hl'⟩ <;> rw [h, e] at hw ⊢
    · exact absurd rfl hw
    · exact ⟨hl' hl, rfl⟩
  | slept ms hd h =>
    rcases afterSleep_cases hd with ⟨-, e⟩ | ⟨-, e⟩ <;> rw [h, e] at hw ⊢
    · exact ⟨rfl, rfl⟩
    · exact absurd rfl hw
  | read t ha answer h =>
    rw [h] at hw
    exact absurd (afterRead_ph ha answer σ.acc) hw

/-- A legal `Wait` position is in one of the four states with a handshake, and its interval is the
handshake's timeout (R107, R236). -/
theorem interval_wait {r : Regs} (hl : legalPosition r = true) (hp : r.ph = .wait) :
    (r.st = .enteringBootloader ∧ interval r.st r.ph = 2000) ∨
    (r.st = .erasing ∧ interval r.st r.ph = 5000) ∨
    (r.st = .writingPages ∧ interval r.st r.ph = 1000) ∨
    (r.st = .verifying ∧ interval r.st r.ph = 3000) := by
  cases hs : r.st <;> simp [legalPosition, hs, hp] at hl <;> simp [interval, hp, waitTimeout]

/-- A legal `Settle` position is in one of the two states with a delay, of 100 ms (R121, R125, R236). -/
theorem interval_settle {r : Regs} (hl : legalPosition r = true) (hp : r.ph = .settle) :
    (r.st = .enteringBootloader ∨ r.st = .exitingBootloader) ∧ interval r.st r.ph = 100 := by
  cases hs : r.st <;> simp [legalPosition, hs, hp] at hl <;> simp [interval, hp, settleDelay]

/-! ### A handshake -/

/-- Settles O53: the cycle of a `Wait` phase tests the inputs in that order, and a cycle that enters one
loads its interval. -/
theorem waitPriority : Obligations.WaitPriority := by
  unfold Obligations.WaitPriority
  refine ⟨fun i σ hr hp hl => ?_, fun i σ σ' h hne hp => ?_⟩
  · rw [cycle_wait hr hp hl]
    refine ⟨by simp [outputs, hp, hl], fun h1 => ?_, fun h1 h2 => ?_, fun h1 h2 h3 h4 => ?_,
      fun h1 h2 h3 h4 => ?_, fun h1 h2 h3 => ?_⟩
    · simp [waitCycle, h1, endWait]
    · simp [waitCycle, h1, h2, endWait]
    · simp [waitCycle, h1, h2, h3, h4, endWait]
    · have : σ.timer ≠ 1#13 := fun e => by simp [e] at h4
      simp [waitCycle, h1, h2, h3, this, countDown, h4]
    · simp [waitCycle, h1, h2, h3]
  · obtain ⟨hl, ht⟩ := cycle_enters h (by rwa [hp]) (by simp [hp])
    rw [ht]
    exact interval_wait hl hp

/-! ### A settle delay -/

/-- The timer counted down by `n` ticks. -/
def countedDown (n : Nat) (σ : SigState) : SigState :=
  { σ with timer := σ.timer - BitVec.ofNat 13 n }

theorem countedDown_timer_toNat {n : Nat} {σ : SigState} (h : n ≤ σ.timer.toNat) :
    (countedDown n σ).timer.toNat = σ.timer.toNat - n := by
  have ht := σ.timer.isLt
  have hn : (BitVec.ofNat 13 n).toNat = n := by
    rw [BitVec.toNat_ofNat]
    omega
  rw [countedDown, BitVec.toNat_sub_of_le (by rw [BitVec.le_def, hn]; exact h), hn]

theorem countedDown_zero (σ : SigState) : countedDown 0 σ = σ := by simp [countedDown]

theorem countedDown_add (m n : Nat) (σ : SigState) :
    countedDown n (countedDown m σ) = countedDown (m + n) σ := by
  simp [countedDown, BitVec.ofNat_add, sub_sub]

theorem ticks_cons (i : SigIn) (is : List SigIn) :
    ticks (i :: is) = (if i.tick_1ms then 1 else 0) + ticks is := by
  cases h : i.tick_1ms <;> simp [ticks, h, Nat.add_comm]

/-- A cycle of a settle delay that is not its last: the timer counts a tick (R235). -/
theorem cycle_settle_counts {i : SigIn} {σ : SigState} (hr : i.rst = false) (hp : σ.ph = .settle)
    (hl : legalPosition σ.toRegs = true) (ht : (if i.tick_1ms then 1 else 0) < σ.timer.toNat) :
    cycle i σ = .next (countedDown (if i.tick_1ms then 1 else 0) σ) := by
  rw [cycle_settle hr hp hl]
  cases hi : i.tick_1ms <;> simp only [hi, reduceIte, Bool.false_eq_true] at ht ⊢
  · simp [settleCycle, hi, countedDown_zero]
  · have : σ.timer ≠ 1#13 := fun e => by simp [e] at ht
    simp [settleCycle, hi, this, countDown, ht, countedDown]

/-- Cycles of a settle delay with fewer ticks than are left count the timer down by their ticks. -/
theorem cycles_settle_count {is : List SigIn} {σ : SigState} (hp : σ.ph = .settle)
    (hl : legalPosition σ.toRegs = true) (hr : ∀ i ∈ is, i.rst = false)
    (ht : ticks is < σ.timer.toNat) : cycles is σ = .next (countedDown (ticks is) σ) := by
  induction is generalizing σ with
  | nil => exact congrArg _ (countedDown_zero σ).symm
  | cons i is ih =>
    rw [ticks_cons] at ht ⊢
    rw [cycles_cons (cycle_settle_counts (hr i (by simp)) hp hl (by omega)), ← countedDown_add]
    refine ih hp hl (fun j hj => hr j (by simp [hj])) ?_
    rw [countedDown_timer_toNat (by omega)]
    omega

/-- The tick at `timer = 1` ends a settle delay (R235). -/
theorem cycle_settle_ends {i : SigIn} {σ : SigState} (hr : i.rst = false) (hi : i.tick_1ms = true)
    (hp : σ.ph = .settle) (hl : legalPosition σ.toRegs = true) (ht : σ.timer = 1) :
    cycle i σ = .next { σ with toRegs := afterSleep { σ.toRegs with timer := 1 } } := by
  rw [cycle_settle hr hp hl, settleCycle, if_pos hi, if_pos ht, ← ht]

/-- Settles O54: by induction over the cycles the timer counts the ticks, so the last one finds it at
1; a cycle that enters the phase loads its interval. -/
theorem settleLastsItsTicks : Obligations.SettleLastsItsTicks := by
  unfold Obligations.SettleLastsItsTicks
  refine ⟨fun is σ hp hl hr ht => ?_, fun i σ σ' h hne hp => ?_⟩
  · have hcount := cycles_settle_count hp hl hr ht
    refine ⟨hcount, fun i hri hi hlast => ?_⟩
    have hone : (countedDown (ticks is) σ).timer = 1 := by
      apply BitVec.eq_of_toNat_eq
      rw [countedDown_timer_toNat (by omega)]
      simp
      omega
    have hend := cycle_settle_ends (σ := countedDown (ticks is) σ) hri hi hp hl hone
    rw [cycles_append hcount, cycles_cons hend]
    rfl
  · obtain ⟨hl, ht⟩ := cycle_enters h (by rwa [hp]) (by simp [hp])
    rw [ht]
    exact interval_settle hl hp

/-! ### The accepted start, and the status outputs -/

theorem execUpload_quiescent {s : State} (hq : quiescent s.st = true) (hp : s.ph = .send) :
    execUpload s = .next (acceptStart s) := by
  simp [execUpload, hq, hp]

/-- Settles O22: at both levels the three cases of an accepted start, written out. -/
theorem uploadStartsOrFails : Obligations.UploadStartsOrFails := by
  unfold Obligations.UploadStartsOrFails
  refine ⟨fun s hq hp => ?_, fun i σ hq hp hr hs => ?_⟩
  · rw [exec, execUpload_quiescent hq hp]
    rcases acceptStart_cases s with ⟨h0, e⟩ | ⟨h0, hc, e⟩ | ⟨h0, hc, e⟩ <;> rw [e]
    · refine ⟨fun _ => ?_, fun h => absurd h0 h, fun h => absurd h0 h⟩
      rw [h0]
      rfl
    · exact ⟨fun h => absurd h h0, fun _ _ => rfl, fun _ h => by simp [hc] at h⟩
    · exact ⟨fun h => absurd h h0, fun _ h => by simp [hc] at h, fun _ _ => rfl⟩
  · have hl : legalPosition σ.toRegs = true := by
      cases hst : σ.st <;> simp [hst, quiescent] at hq <;> simp [legalPosition, hst, hp]
    rw [cycle_quiescent hr hl hq]
    rcases startCycle_cases hs σ with ⟨h0, e⟩ | ⟨h0, hc, e⟩ | ⟨h0, hc, e⟩ <;> rw [e]
    · refine ⟨fun _ => ?_, fun h => absurd h0 h, fun h => absurd h0 h⟩
      rw [h0]
      rfl
    · exact ⟨fun h => absurd h h0, fun _ _ => rfl, fun _ h => by simp [hc] at h⟩
    · exact ⟨fun h => absurd h h0, fun _ h => by simp [hc] at h, fun _ _ => rfl⟩

/-- Settles O5: every value has its code, and the reading of a code follows the tables. -/
theorem statusCodesReadBack : Obligations.StatusCodesReadBack := by
  unfold Obligations.StatusCodesReadBack
  refine ⟨?_, ?_, ?_, ?_, by decide, by decide, by decide, by decide⟩
  · intro x
    cases x <;> rfl
  · intro x
    cases x <;> rfl
  · intro c x
    cases x <;> revert c <;> decide
  · intro c x
    cases x <;> revert c <;> decide

/-- Settles O38: by cases on `st`; the other outputs are the registers by definition. -/
theorem statusOutputs : Obligations.StatusOutputs := by
  unfold Obligations.StatusOutputs
  intro r
  refine ⟨?_, ?_, ?_, ?_, rfl, rfl, rfl, rfl, rfl, rfl, rfl, rfl, rfl⟩ <;>
    cases hs : r.st <;> simp [status, hs, quiescent]

/-- Settles O59: nothing is read, sent or summed yet at either level. -/
theorem levelsAgreeAtReset : Obligations.LevelsAgreeAtReset where
  regs := rfl
  clock := by decide
  buffered := .inr rfl
  dropped h := by cases h
  summed h := by rcases h with h | h | h <;> cases h
  counted := rfl

end Sys2Proof.Machine
end

section
/-! PROOFS. Family 10 (state): the codec reads back what it encodes and accepts only well-formed operations;
the selected and the placed operation. -/

namespace Sys2Proof.Machine

open Sys2Proof.Config

/-! ### The codec -/

theorem pageAligned_eq_true {addr : Word} : pageAligned addr = true ↔ addr.toNat % 128 = 0 := by
  simp [pageAligned]

theorem payloadFits_eq_true {addr : Word} {payload : List Byte} :
    payloadFits addr payload = true ↔
      payload.length = 128 ∧ (addr ≠ 0xFFFFFF80 ∨ payload.getD 127 0 = 0xFF) := by
  simp [payloadFits]

theorem wellFormed_writePage {addr : Word} {payload : List Byte} :
    (Instr.writePage addr payload).wellFormed = true ↔
      pageAligned addr = true ∧ payloadFits addr payload = true := by
  simp [Instr.wellFormed]

/-- The page reader accepts exactly the pages that meet the operand checks. -/
theorem decodePage_eq_ok {addr : Word} {payload : List Byte} {i : Instr} :
    decodePage addr payload = .ok i ↔
      i = .writePage addr payload ∧ (Instr.writePage addr payload).wellFormed = true := by
  rw [wellFormed_writePage]
  by_cases hlen : payload.length = 128
  · cases ha : pageAligned addr <;> cases hf : payloadFits addr payload <;>
      simp [decodePage, hlen, ha, hf, eq_comm]
  · have hf : payloadFits addr payload ≠ true := fun hf => hlen (payloadFits_eq_true.1 hf).1
    simp [decodePage, hlen, hf]

theorem decodeRx_foreign {b : Byte} (h : isForeign b = true) : decodeRx b = .malformed b := by
  simp only [isForeign, Bool.and_eq_true, bne_iff_ne, ne_eq] at h
  rw [decodeRx, if_neg h.1, if_neg h.2]

/-- Reading an encoded operation gives it back (R71 to R75, R78). -/
theorem decode_encode {i : Instr} {d : Direction} (hw : i.wellFormed = true)
    (hd : i.direction = some d) : decode d (encode i) = .ok i := by
  cases i with
  | writePage addr payload =>
    cases hd
    have hp : decodePage addr payload = .ok (.writePage addr payload) :=
      decodePage_eq_ok.2 ⟨rfl, hw⟩
    rw [← ofBe32_be32 addr] at hp
    simpa [decode, encode, be32, decodeTx, ofBe32_be32] using hp
  | checksum c =>
    cases hd
    simp [decode, encode, be32, decodeTx, ofBe32_be32]
  | malformed b =>
    cases hd
    exact congrArg Except.ok (decodeRx_foreign hw)
  | enter | erase | verify | exit | ack | nack =>
    cases hd
    rfl
  | awaitAck _ | sleep _ | upload => cases hd

theorem decodeOpcode_wellFormed {b : Byte} {i : Instr} (h : decodeOpcode b = .ok i) :
    i.wellFormed = true := by
  unfold decodeOpcode at h
  repeat' split at h
  all_goals cases h <;> rfl

theorem decodeRx_wellFormed (b : Byte) : (decodeRx b).wellFormed = true := by
  unfold decodeRx
  split
  · rfl
  · split
    · rfl
    · simp_all [Instr.wellFormed, isForeign]

/-- What the TX reader accepts meets the operand checks. -/
theorem decodeTx_wellFormed {bs : List Byte} {i : Instr} (h : decodeTx bs = .ok i) :
    i.wellFormed = true := by
  unfold decodeTx at h
  split at h
  · cases h
  · exact decodeOpcode_wellFormed h
  · cases h
    rfl
  · split at h
    · obtain ⟨rfl, hw⟩ := decodePage_eq_ok.1 h
      exact hw
    · cases h
  · cases h

theorem decodeByte_wellFormed (b : Byte) : (decodeByte b).wellFormed = true := by
  unfold decodeByte
  split
  · exact wellFormed_writePage.2 ⟨rfl, payloadFits_eq_true.2 ⟨List.length_replicate, .inl (by decide)⟩⟩
  · split
    · rename_i h
      exact decodeOpcode_wellFormed h
    · exact decodeRx_wellFormed b

theorem accepted_wellFormed {bs : List Byte} {i : Instr} (h : accepted (decodeTx bs) = some i) :
    i.wellFormed = true := by
  unfold accepted at h
  split at h
  · rename_i hd
    cases h
    exact decodeTx_wellFormed hd
  · cases h

/-- Every operation read from a table word meets the operand checks. -/
theorem decodeTableWord_wellFormed {nbits w : Nat} {i : Instr}
    (h : decodeTableWord nbits w = some i) : i.wellFormed = true := by
  unfold decodeTableWord at h
  split at h
  · cases h
  · cases h
    exact decodeByte_wellFormed _
  · exact accepted_wellFormed h
  · exact accepted_wellFormed h

/-! ### The selected operation -/

theorem awaiting_isTimeout {r : Regs} {t : Ms} (h : awaiting r = some t) : isTimeout t = true := by
  obtain ⟨-, hw, -⟩ := awaiting_eq_some.1 h
  cases hs : r.st <;> simp [hs, waitTimeout] at hw <;> subst hw <;> rfl

theorem select_wellFormed {s : State} {i : Instr} (h : select s = .op i) : i.wellFormed = true := by
  rcases select_op h with ⟨-, -, -, rfl⟩ | ⟨-, -, rfl⟩ | ⟨t, ha, rfl⟩ | ⟨-, ⟨-, -, rfl⟩ | ⟨-, -, rfl⟩ |
    ⟨-, -, -, p, hp, rfl⟩ | ⟨-, -, rfl⟩ | ⟨-, -, rfl⟩ | ⟨-, -, rfl⟩⟩
  case inr.inr.inl => exact awaiting_isTimeout ha
  case inr.inr.inr.inr.inr.inl => exact pagePayload_wellFormed hp
  all_goals rfl

/-- Settles O34: the operands of the selection meet the checks, and the codec reads back what it
encodes. -/
theorem selectedOperationIsWellFormed : Obligations.SelectedOperationIsWellFormed := by
  unfold Obligations.SelectedOperationIsWellFormed
  intro s i h
  exact ⟨select_wellFormed h, fun d hd => decode_encode (select_wellFormed h) hd⟩

/-! ### The placed page -/

/-- The length under which a page is placed: one full page, but at the top of the address space one byte
less (R5). -/
theorem lengthFor_toNat (addr : Word) :
    (lengthFor addr).toNat = min (addr.toNat + 128) (2 ^ 32 - 1) := by
  rw [lengthFor, BitVec.toNat_ofNat, cfg_pageSize, Nat.mod_eq_of_lt (by omega)]

/-- A page address plus its page ends inside the address space. -/
theorem pageAligned_le {addr : Word} (h : pageAligned addr = true) : addr.toNat + 128 ≤ 2 ^ 32 := by
  have := addr.isLt
  have := pageAligned_eq_true.1 h
  omega

/-- What is not stored of a placed payload is the padding of the last byte there can be (R5). -/
theorem padPage_storedPart {addr : Word} {payload : List Byte} (ha : pageAligned addr = true)
    (hf : payloadFits addr payload = true) : padPage (storedPart addr payload) = payload := by
  obtain ⟨hlen, hlast⟩ := payloadFits_eq_true.1 hf
  have hle := pageAligned_le ha
  rw [padPage, storedPart, lengthFor_toNat, cfg_pageSize, List.length_take, hlen]
  by_cases htop : addr.toNat + 128 = 2 ^ 32
  · have hpad : payload.getD 127 0 = 0xFF :=
      hlast.resolve_left fun h => h (BitVec.eq_of_toNat_eq (by simp; omega))
    have hdrop : payload.drop 127 = [0xFF] := by
      rw [List.drop_eq_getElem_cons (by omega), List.drop_of_length_le (by omega), ← hpad,
        List.getD_eq_getElem _ _ (by omega)]
    rw [show min (addr.toNat + 128) (2 ^ 32 - 1) - addr.toNat = 127 by omega]
    exact (congrArg _ hdrop.symm).trans (List.take_append_drop 127 payload)
  · rw [show min (addr.toNat + 128) (2 ^ 32 - 1) - addr.toNat = 128 by omega,
      List.take_of_length_le (by omega)]
    simp

theorem storedPart_length {addr : Word} {payload : List Byte} (ha : pageAligned addr = true)
    (hlen : payload.length = 128) :
    (storedPart addr payload).length = min 128 ((lengthFor addr).toNat - addr.toNat) := by
  have := pageAligned_le ha
  have := lengthFor_toNat addr
  rw [storedPart, List.length_take, hlen]
  omega

/-- The page placed in a canonical image is read back as the payload. -/
theorem pagePayload_placed {m : Memory} {addr : Word} {payload : List Byte} (hm : m.wf = true)
    (hw : (Instr.writePage addr payload).wellFormed = true) :
    pagePayload (imgPutAll m addr.toNat (storedPart addr payload)) (lengthFor addr)
      (addr.extractLsb' 7 25) = some payload := by
  obtain ⟨ha, hf⟩ := wellFormed_writePage.1 hw
  have hle := pageAligned_le ha
  have hlen := storedPart_length ha (payloadFits_eq_true.1 hf).1
  have hidx : (addr.extractLsb' 7 25).toNat * 128 = addr.toNat := by
    rw [← pageAddress_toNat, pageAddress_of_aligned ha]
  rw [pagePayload_eq, hidx, ← hlen, imgBytes_imgPutAll hm (by omega), padPage_storedPart ha hf]
  rw [hidx, lengthFor_toNat]
  omega

/-! ### The placed operation -/

/-- The next step performs `i`, and goes on. -/
def Performs (s : State) (i : Instr) : Prop := step s = exec i s ∧ ∃ t, step s = .next t

theorem performs_of_select {s t : State} {i : Instr} (hr : s.rst = false) (hs : select s = .op i)
    (h : exec i s = .next t) : Performs s i := by
  have e : step s = exec i s := by simp [step, hr, hs]
  exact ⟨e, t, e.trans h⟩

/-- At a `Wait` position the step is AWAIT_ACK. -/
theorem performs_awaitAck {s : State} {t : Ms} (hr : s.rst = false)
    (ha : awaiting s.toRegs = some t) : Performs s (.awaitAck t) := by
  have h := step_read hr ha
  exact ⟨h.trans (execAwaitAck_eq ha).symm, _, h⟩

/-- AWAIT_ACK performs the response that the reader takes the byte for (R81, R101). -/
theorem execAwaitAck_eq_response {s : State} {t : Ms} {b : Byte} (ha : awaiting s.toRegs = some t)
    (hn : nextRead s = some b) : execAwaitAck t s = exec (decodeRx b) s := by
  rw [execAwaitAck, if_pos ha, hn]
  by_cases h1 : b = cfg.rspAck
  · simp only [classify, decodeRx, if_pos h1]
    rfl
  · by_cases h2 : b = cfg.rspNack
    · simp only [classify, decodeRx, if_neg h1, if_pos h2]
      rfl
    · simp only [classify, decodeRx, if_neg h1, if_neg h2]
      rfl

/-- At a `Wait` position with a byte at hand the step is the response the byte is. -/
theorem performs_response {s : State} {t : Ms} {b : Byte} (hr : s.rst = false)
    (ha : awaiting s.toRegs = some t) (hn : nextRead s = some b) : Performs s (decodeRx b) := by
  obtain ⟨h, hgo⟩ := performs_awaitAck hr ha
  exact ⟨h.trans (execAwaitAck_eq_response ha hn), hgo⟩

theorem isTimeout_iff {t : Ms} :
    isTimeout t = true ↔ t = 2000 ∨ t = 5000 ∨ t = 1000 ∨ t = 3000 := by
  simp [isTimeout, or_assoc]

/-- The position of a placed handshake awaits with its timeout. -/
theorem awaiting_putWaiting {t : Ms} (h : isTimeout t = true) (s : State) :
    awaiting (putWaiting t s).toRegs = some t := by
  rcases isTimeout_iff.1 h with rfl | rfl | rfl | rfl <;> rfl

theorem putWaiting_env (t : Ms) (s : State) : (putWaiting t s).toEnv = s.toEnv := by
  unfold putWaiting
  split
  · rfl
  · split
    · rfl
    · split <;> rfl

/-- A response placed with its byte at the front of the channel's answers. -/
theorem performs_placed_response (b : Byte) (s : State) :
    Performs (putWaiting cfg.tEnter { s with rst := false, rdAns := some b :: s.rdAns })
      (decodeRx b) :=
  performs_response rfl (awaiting_putWaiting rfl _) rfl

/-- At the position of a page that exists the page is written. -/
theorem performs_writePage {s : State} {payload : List Byte} (hr : s.rst = false)
    (hst : s.st = .writingPages) (hp : s.ph = .send) (hin : inPages s.toRegs = true)
    (hpay : pagePayload s.img s.len s.idx = some payload) :
    Performs s (.writePage (pageAddress s.idx) payload) :=
  performs_of_select (t := sendFrame (pageFrame (pageAddress s.idx) payload)
      (moveTo .writingPages .wait) s) hr
    (by simp [select, hst, hp, hin, selectPage, hpay])
    (by simp [exec, execWritePage, hst, hp, hin, hpay])

/-- A page placed in a canonical image is selected, and written. -/
theorem performs_placed_page {addr : Word} {payload : List Byte} {s : State}
    (hw : (Instr.writePage addr payload).wellFormed = true) (hm : s.img.wf = true) :
    Performs (placeInstr (.writePage addr payload) s) (.writePage addr payload) := by
  have hpay := pagePayload_placed hm hw
  have hin : inPages (placeInstr (.writePage addr payload) s).toRegs = true :=
    decide_eq_true ((lt_pageCount_iff (lengthFor addr) _).2 (pagePayload_some hpay).1)
  have haddr : pageAddress (placeInstr (.writePage addr payload) s).idx = addr :=
    pageAddress_of_aligned (wellFormed_writePage.1 hw).1
  have h := performs_writePage rfl rfl rfl hin hpay
  rwa [haddr] at h

/-- A well-formed operation placed in a state with a canonical image is performed by the next step. -/
theorem performs_placed {i : Instr} {s : State} (hw : i.wellFormed = true) (hm : s.img.wf = true) :
    Performs (placeInstr i s) i := by
  cases i with
  | enter | erase | verify | exit => exact performs_of_select rfl rfl rfl
  | checksum c => exact performs_of_select rfl rfl (if_pos ⟨rfl, rfl, rfl⟩)
  | writePage addr payload => exact performs_placed_page hw hm
  | ack => exact performs_placed_response cfg.rspAck s
  | nack => exact performs_placed_response cfg.rspNack s
  | malformed b =>
    have h := performs_placed_response b s
    rwa [decodeRx_foreign hw] at h
  | awaitAck t =>
    refine performs_awaitAck ?_ (awaiting_putWaiting hw _)
    exact congrArg Env.rst (putWaiting_env t _)
  | sleep ms =>
    obtain rfl : ms = 100 := by simpa [Instr.wellFormed, isDelay] using hw
    exact performs_of_select rfl rfl rfl
  | upload => exact performs_of_select rfl rfl rfl

/-- Settles O35: by operation; a word the codec reads is a well-formed operation. -/
theorem placedOperationIsPerformed : Obligations.PlacedOperationIsPerformed := by
  unfold Obligations.PlacedOperationIsPerformed
  refine ⟨fun i s hw hm => performs_placed hw hm, fun s nbits w i hm h => ?_⟩
  rw [State.withFetchWord, placeWord, h]
  exact (performs_placed (decodeTableWord_wellFormed h) hm).1

end Sys2Proof.Machine
end

section
/-! PROOFS. Family 20 (memory), first layer: the frame of SLEEP, that every step goes on, the two
directions of the channel, and the write call of the signal level, cycle by cycle. -/

namespace Sys2Proof.Machine

open Sys2Proof.Config

/-- Settles O39: the surroundings are no part of the register invariant, from which every step goes on. -/
theorem stepAlwaysGoesOn : Obligations.StepAlwaysGoesOn := by
  unfold Obligations.StepAlwaysGoesOn
  exact fun s e h => RegInv.step_goes_on (s := { s with toEnv := e }) h

/-- Settles O30: a settle delay only notes itself and moves the position. -/
theorem sleepFrame : Obligations.SleepFrame := by
  unfold Obligations.SleepFrame
  intro ms s t h
  obtain ⟨-, -, rfl⟩ := execSleep_next h
  simp

/-! ### What is offered -/

/-- A byte is offered only of a frame that is being sent. -/
theorem sigFrame_of_offering {σ : SigState} (h : offering σ = true) : ∃ f, sigFrame σ = some f := by
  cases hf : sigFrame σ with
  | none => simp [offering, hf] at h
  | some f => exact ⟨f, rfl⟩

theorem offering_eq {σ : SigState} {f : List Byte} (hf : sigFrame σ = some f) :
    offering σ = decide (σ.txPos.toNat < f.length) := by
  simp [offering, hf]

/-- The byte offered is the one at the byte counter, and after the last byte there is none. -/
theorem tx_data_eq {σ : SigState} {f : List Byte} (hf : sigFrame σ = some f) :
    (outputs σ).tx_data = f[σ.txPos.toNat]? := by
  have hidle : σ.st ≠ .idle := fun h => by
    have := sigFrame_busy hf
    simp [h, quiescent] at this
  by_cases hlt : σ.txPos.toNat < f.length
  · simp [outputs, offering_eq hf, hf, hlt]
  · simp [outputs, offering_eq hf, hlt, hidle]

theorem tx_last_iff {σ : SigState} {f : List Byte} (hf : sigFrame σ = some f) :
    (outputs σ).tx_last = true ↔ σ.txPos.toNat + 1 = f.length := by
  simp only [outputs, offering_eq hf, hf, Option.getD_some, Bool.and_eq_true, decide_eq_true_eq]
  omega

/-- Settles O57: a frame is offered only while one is being sent, and then no page is being read. -/
theorem oneDirectionAtATime : Obligations.OneDirectionAtATime := by
  unfold Obligations.OneDirectionAtATime
  intro σ
  have hsend : (outputs σ).tx_valid = true → σ.ph = .send ∨ σ.ph = .send2 := fun h =>
    (sigFrame_of_offering h).elim fun _ hf => sigFrame_phase hf
  have hwait : (outputs σ).rx_ready = true → σ.ph = .wait := fun h => by
    simp only [outputs, Bool.and_eq_true, beq_iff_eq] at h
    exact h.1
  refine ⟨fun ⟨htx, hrx⟩ => ?_, fun ⟨htx, himg⟩ => ?_, hsend, hwait⟩
  · rcases hsend htx with hp | hp <;> simp [hwait hrx] at hp
  · obtain ⟨f, hf⟩ := sigFrame_of_offering htx
    rw [sigFrame_readingPage (requesting_iff.1 himg).1] at hf
    cases hf

/-! ### The write call -/

/-- One byte more is taken in a cycle with `tx_ready`, up to the length of the frame (R53). -/
theorem takenAfter_toNat {i : SigIn} {σ : SigState} {f : List Byte} (hf : sigFrame σ = some f)
    (hlen : f.length < 256) (hpos : σ.txPos.toNat ≤ f.length) :
    (takenAfter i σ).toNat = min (σ.txPos.toNat + if i.tx_ready then 1 else 0) f.length := by
  have hone : (1 : BitVec 8).toNat = 1 := rfl
  cases hi : i.tx_ready <;> by_cases hlt : σ.txPos.toNat < f.length <;>
    simp only [takenAfter, offering_eq hf, hlt, hi, decide_true, decide_false, Bool.and_true,
      Bool.and_false, Bool.false_eq_true, reduceIte, BitVec.toNat_add, hone] <;> omega

/-- The write call with `k` bytes taken. -/
def withTaken (k : Nat) (σ : SigState) : SigState := { σ with txPos := BitVec.ofNat 8 k }

theorem withTaken_txPos_toNat {k : Nat} (h : k < 256) (σ : SigState) :
    (withTaken k σ).txPos.toNat = k := by
  rw [withTaken, BitVec.toNat_ofNat, Nat.mod_eq_of_lt h]

theorem readyCycles_cons (i : SigIn) (is : List SigIn) :
    readyCycles (i :: is) = (if i.tx_ready then 1 else 0) + readyCycles is := by
  cases h : i.tx_ready <;> simp [readyCycles, h, Nat.add_comm]

section
variable {σ : SigState} {f : List Byte} {k : Nat} (hl : legalPosition σ.toRegs = true)
  (hf : sigFrame σ = some f) (hlen : f.length < 256)
include hl hf hlen

/-- A cycle of a write call without `wr_done` takes a byte if `tx_ready`, and changes nothing else. -/
theorem cycle_write_goes_on {i : SigIn} (hr : i.rst = false) (hw : i.wr_done = false)
    (hk : k ≤ f.length) : cycle i (withTaken k σ) =
      .next (withTaken (min (k + if i.tx_ready then 1 else 0) f.length) σ) := by
  have htaken := takenAfter_toNat (i := i) (σ := withTaken k σ) hf hlen
    (by rwa [withTaken_txPos_toNat (by omega)])
  rw [withTaken_txPos_toNat (by omega)] at htaken
  rw [cycle_write (σ := withTaken k σ) hr hl hf]
  simp only [writeCycle, hw, Bool.false_eq_true, reduceIte, ← htaken, withTaken, BitVec.ofNat_toNat,
    BitVec.setWidth_eq]

/-- Cycles of a write call without `wr_done` take as many bytes as `tx_ready` was seen, up to the length
of the frame. -/
theorem cycles_write_stream {is : List SigIn}
    (hin : ∀ i ∈ is, i.rst = false ∧ i.wr_done = false) (hk : k ≤ f.length) :
    cycles is (withTaken k σ) = .next (withTaken (min (k + readyCycles is) f.length) σ) := by
  induction is generalizing k with
  | nil => simp [cycles, readyCycles, hk]
  | cons i is ih =>
    obtain ⟨hr, hw⟩ := hin i (by simp)
    rw [cycles_cons (cycle_write_goes_on hl hf hlen hr hw hk),
      ih (fun j hj => hin j (by simp [hj])) (Nat.min_le_right _ _), readyCycles_cons]
    congr 2
    omega

/-- `wr_done` ends the call, with `true` iff all bytes are taken by the end of the cycle and `wr_ok`. -/
theorem cycle_write_ends {i : SigIn} (hr : i.rst = false) (hw : i.wr_done = true)
    (hpos : σ.txPos.toNat ≤ f.length) : cycle i σ = .next { σ with
      toRegs := afterWrite (decide (f.length ≤ σ.txPos.toNat + if i.tx_ready then 1 else 0)
        && i.wr_ok) σ.toRegs
      buf := []
      txPos := 0 } := by
  have hall : (takenAfter i σ).toNat = f.length ↔
      f.length ≤ σ.txPos.toNat + if i.tx_ready then 1 else 0 := by
    rw [takenAfter_toNat hf hlen hpos]
    omega
  rw [cycle_write hr hl hf, writeCycle, if_pos hw, decide_eq_decide.2 hall]

end

/-- Settles O55: by induction over the cycles the byte counter counts those with `tx_ready`, up to the
length of the frame. -/
theorem writeCallStreamsTheFrame : Obligations.WriteCallStreamsTheFrame := by
  unfold Obligations.WriteCallStreamsTheFrame
  intro σ f is k hl hf h0 hlen hin hk
  have hstart : withTaken 0 σ = σ := by
    rw [withTaken, show BitVec.ofNat 8 0 = σ.txPos from h0.symm]
  have hstream := cycles_write_stream (k := 0) hl hf (by omega) hin (Nat.zero_le _)
  rw [hstart, Nat.zero_add, ← hk] at hstream
  have hf' : sigFrame (withTaken k σ) = some f := hf
  have hpos := withTaken_txPos_toNat (k := k) (by omega) σ
  refine ⟨hstream, ?_, ?_, ?_, fun i hr hw hall => ?_⟩
  · exact (offering_eq hf').trans (by rw [hpos])
  · exact (tx_data_eq hf').trans (by rw [hpos])
  · exact (tx_last_iff hf').trans (by rw [hpos])
  · rw [cycles_append hstream,
      cycles_cons (cycle_write_ends (σ := withTaken k σ) hl hf' (by omega) hr hw (by omega)), hpos,
      decide_eq_true, Bool.true_and]
    · rfl
    · rcases hall with h | ⟨h, hi⟩
      · omega
      · simp [hi, h]

/-- Settles O56: bytes are missing, so the answer is `false`, which fails the run but at EXIT. -/
theorem earlyWriteDoneIsShort : Obligations.EarlyWriteDoneIsShort := by
  unfold Obligations.EarlyWriteDoneIsShort
  intro i σ f hl hf hr hw hshort hlen
  refine ⟨_, cycle_write_ends hl hf (by omega) hr hw (by omega), ?_⟩
  rw [decide_eq_false (by omega), Bool.false_and]
  rcases sends_of_sigFrame hf with h | h | h | h | h | h <;> simp [afterWrite, h]

end Sys2Proof.Machine
end

section
/-! PROOFS. Family 20 (memory): the image port of the signal level, cycle by cycle. -/

namespace Sys2Proof.Machine

open Sys2Proof.Config

/-- A requested byte that is not acknowledged stays requested. -/
theorem cycle_request_stands {i : SigIn} {σ : SigState} (hr : i.rst = false)
    (hl : legalPosition σ.toRegs = true) (hq : requesting σ = true) (ha : i.img_ack = false) :
    cycle i σ = .next σ := by
  obtain ⟨hread, hd⟩ := requesting_iff.1 hq
  simp [cycle_readingPage hr hl hread, imageCycle, hd, ha]

/-- A requested byte is taken in the cycle of `img_ack`. -/
theorem cycle_request_taken {i : SigIn} {σ : SigState} (hr : i.rst = false)
    (hl : legalPosition σ.toRegs = true) (hq : requesting σ = true) (ha : i.img_ack = true) :
    cycle i σ = .next (takeImageByte i.img_data σ) := by
  obtain ⟨hread, hd⟩ := requesting_iff.1 hq
  simp [cycle_readingPage hr hl hread, imageCycle, hd, ha]

/-- The cycle in which `img_req` is dropped between two bytes. -/
theorem cycle_request_dropped {i : SigIn} {σ : SigState} (hr : i.rst = false)
    (hl : legalPosition σ.toRegs = true) (hread : readingPage σ = true) (hd : σ.reqDropped = true) :
    cycle i σ = .next { σ with reqDropped := false } := by
  simp [cycle_readingPage hr hl hread, imageCycle, hd]

/-- After a byte was taken `img_req` is 0: either it is dropped, or the page is complete. -/
theorem requesting_takeImageByte (b : Byte) (σ : SigState) :
    requesting (takeImageByte b σ) = false := by
  rw [Bool.eq_false_iff]
  intro h
  obtain ⟨hread, hd⟩ := requesting_iff.1 h
  have hmore := (readingPage_iff.1 hread).2
  simp at hmore hd
  omega

/-- The image port between two bytes, or after the last one. -/
def byteRead (b : Byte) (σ : SigState) : SigState := { takeImageByte b σ with reqDropped := false }

/-- After a byte and a pause without `wr_done` or `tx_ready`, the next byte is requested, or the page is
complete. -/
theorem cycle_pause {pause : SigIn} {σ : SigState} (b : Byte) (hr : pause.rst = false)
    (htx : pause.tx_ready = false) (hw : pause.wr_done = false)
    (hl : legalPosition σ.toRegs = true) (hread : readingPage σ = true) :
    cycle pause (takeImageByte b σ) = .next (byteRead b σ) := by
  obtain ⟨hpos, -⟩ := readingPage_iff.1 hread
  by_cases hmore : σ.buf.length + 1 < pageLength σ.len σ.idx
  · exact cycle_request_dropped hr hl (readingPage_iff.2 ⟨hpos, by simpa using hmore⟩)
      (by simpa using hmore)
  · have hfull : pageBuffered (takeImageByte b σ) = true := by
      simpa [pageBuffered] using hmore
    have hf : sigFrame (takeImageByte b σ) =
        some (pageFrame (pageAddress σ.idx) (padPage (σ.buf ++ [b]))) := by
      simp [sigFrame, hpos, hfull]
    rw [cycle_write (σ := takeImageByte b σ) hr hl hf, writeCycle,
      if_neg (by simp [hw]), takenAfter, htx, Bool.and_false]
    simp [byteRead, takeImageByte, hmore]

/-- With an `img_ack` for each missing byte of the page, and a pause after each, the page is read. -/
theorem cycles_readPage {ack pause : SigIn} {σ : SigState} {bs : List Byte}
    (har : ack.rst = false) (haa : ack.img_ack = true) (hpr : pause.rst = false)
    (htx : pause.tx_ready = false) (hw : pause.wr_done = false)
    (hl : legalPosition σ.toRegs = true) (hpos : σ.st = .writingPages ∧ σ.ph = .send)
    (hd : σ.reqDropped = false) (hlen : σ.buf.length + bs.length = pageLength σ.len σ.idx) :
    ∃ σ', cycles (bs.flatMap fun b => [{ ack with img_data := b }, pause]) σ = .next σ' ∧
      σ'.toRegs = σ.toRegs ∧ σ'.buf = σ.buf ++ bs := by
  induction bs generalizing σ with
  | nil => exact ⟨σ, rfl, rfl, by simp⟩
  | cons b bs ih =>
    rw [List.length_cons] at hlen
    have hread : readingPage σ = true := readingPage_iff.2 ⟨hpos, by omega⟩
    have htake := cycle_request_taken (i := { ack with img_data := b }) har hl
      (requesting_iff.2 ⟨hread, hd⟩) haa
    obtain ⟨σ', hcycles, hregs, hbuf⟩ := ih (σ := byteRead b σ) hl hpos rfl
      (by simpa [byteRead, Nat.add_assoc, Nat.add_comm 1] using hlen)
    refine ⟨σ', ?_, hregs, by simp [hbuf, byteRead]⟩
    rw [List.flatMap_cons, List.cons_append, List.cons_append, List.nil_append, cycles_cons htake,
      cycles_cons (cycle_pause b hpr htx hw hl hread), hcycles]

/-- Settles O60: cycle by cycle as the port is defined, and by induction over the bytes of the page. -/
theorem imagePortReadsThePage : Obligations.ImagePortReadsThePage := by
  unfold Obligations.ImagePortReadsThePage
  refine ⟨fun i σ hr hl hst hp hlt => ⟨fun hd => ?_, fun hd => ?_⟩,
    fun σ bs ack pause hl hst hp hb hd hlen har haa hpr htx hw => ?_⟩
  · have hq : requesting σ = true := requesting_iff.2 ⟨readingPage_iff.2 ⟨⟨hst, hp⟩, hlt⟩, hd⟩
    exact ⟨hq, by simp [outputs, hq], cycle_request_stands hr hl hq, fun ha =>
      ⟨_, cycle_request_taken hr hl hq ha, requesting_takeImageByte _ _, rfl, rfl, rfl⟩⟩
  · have hread : readingPage σ = true := readingPage_iff.2 ⟨⟨hst, hp⟩, hlt⟩
    exact ⟨by simp [outputs, requesting, hd], cycle_request_dropped hr hl hread hd,
      requesting_iff.2 ⟨hread, rfl⟩⟩
  · obtain ⟨σ', hcycles, hregs, hbuf⟩ :=
      cycles_readPage har haa hpr htx hw hl ⟨hst, hp⟩ hd (bs := bs) (by simp [hb, hlen])
    rw [hb, List.nil_append] at hbuf
    have hfull : pageBuffered σ' = true := by simp [pageBuffered, hregs, hbuf, hlen]
    refine ⟨σ', hcycles, hregs, ?_, ?_⟩
    · simp [outputs, requesting, readingPage, hfull]
    · simp [sigFrame, hfull, hregs, hst, hp, hbuf]

end Sys2Proof.Machine
end

section
/-! PROOFS. Family 20 (memory): what the agreement of the two levels says of a position, and that the
frame the signal level sends is the position's. -/

namespace Sys2Proof.Machine

open Sys2Proof.Config

/-! ### Pages and the running sum -/

/-- The bytes of a page end inside the image. -/
theorem pageAddress_add_lt {len : Word} {i : PageIdx} {k : Nat} (h : k < pageLength len i) :
    (pageAddress i).toNat + k < len.toNat := by
  unfold pageLength at h
  omega

/-- A page that is followed by another is full, and ends where that one begins. -/
theorem RegInv.page_full {r : Regs} (h : RegInv r) (hlt : r.idx.toNat + 1 < r.npages.toNat) :
    (pageAddress r.idx).toNat + pageLength r.len r.idx = (pageAddress (r.idx + 1)).toNat := by
  have hnext := h.next_idx hlt
  rw [h.pages, lt_pageCount_iff] at hlt
  rw [pageLength, pageAddress_toNat, pageAddress_toNat, hnext, cfg_pageSize]
  omega

/-- The last page ends with the image. -/
theorem RegInv.page_last {r : Regs} (h : RegInv r) (hst : r.st = .writingPages)
    (hge : ¬ r.idx.toNat + 1 < r.npages.toNat) :
    (pageAddress r.idx).toNat + pageLength r.len r.idx = r.len.toNat := by
  have hlt := h.page_lt hst
  rw [h.pages, lt_pageCount_iff] at hlt hge
  rw [pageLength, pageAddress_toNat, cfg_pageSize]
  omega

/-- The sum handed to a handshake matters only where it is written: at the last page's ACK (R190). -/
theorem afterRead_sum_congr {r : Regs} {sum sum' : Word} (answer : Option Byte)
    (h : r.st = .writingPages → ¬ r.idx.toNat + 1 < r.npages.toNat → sum = sum') :
    afterRead answer sum r = afterRead answer sum' r := by
  rcases answer with _ | b
  · rfl
  rcases classify_cases b with hc | hc | hc <;> simp only [afterRead, hc]
  cases hs : r.st <;> simp only [advance, latchByte_st, hs]
  by_cases hm : morePages (latchByte b .ok r) = true
  · simp only [hm, reduceIte]
  · rw [h hs fun hlt => hm ((morePages_iff _).2 hlt)]

/-- A sending position sends its frame, but for a page that is still being read. -/
theorem sigFrame_or_readingPage {σ : SigState} (hs : Sends σ.toRegs) :
    (∃ f, sigFrame σ = some f) ∨ readingPage σ = true := by
  cases hread : readingPage σ
  case true => exact .inr rfl
  left
  rcases hs with ⟨h1, h2⟩ | ⟨h1, h2⟩ | ⟨h1, h2⟩ | ⟨h1, h2⟩ | ⟨h1, h2⟩ | ⟨h1, h2⟩
  case inr.inr.inl =>
    have hfull : pageBuffered σ = true := by simpa [readingPage, h1, h2] using hread
    simp [sigFrame, h1, h2, hfull]
  all_goals simp [sigFrame, h1, h2]

/-! ### Agreement -/

/-- The states in which the running sum is kept (R161). -/
def Summing (st : SessionState) : Prop :=
  st = .enteringBootloader ∨ st = .erasing ∨ st = .writingPages

/-- At the beginning of a primitive the levels agree when the registers, and the running sum, do. -/
theorem agrees_at_entry {σ : SigState} {s : State} (hregs : σ.toRegs = s.toRegs) (hbuf : σ.buf = [])
    (hdrop : σ.reqDropped = false) (hpos : σ.txPos = 0)
    (hsum : Summing σ.st → σ.acc = checksumOf s.img (bytesRead σ)) : Agrees σ s where
  regs := by rw [hregs]
  clock := by
    rw [hregs]
    exact ⟨Nat.le_refl _, id⟩
  buffered := .inr hbuf
  dropped h := by simp [hdrop] at h
  summed := hsum
  counted := by
    split
    · simp [hpos]
    · exact hpos

section
variable {σ : SigState} {s : State} (h : Agrees σ s)
include h

theorem Agrees.st : σ.st = s.st := by rw [h.regs]
theorem Agrees.ph : σ.ph = s.ph := by rw [h.regs]
theorem Agrees.idx : σ.idx = s.idx := by rw [h.regs]
theorem Agrees.len : σ.len = s.len := by rw [h.regs]
theorem Agrees.csum : σ.csum = s.csum := by rw [h.regs]

theorem Agrees.legal : legalPosition σ.toRegs = legalPosition s.toRegs := by
  rw [h.regs]
  rfl

theorem Agrees.sends_iff : Sends σ.toRegs ↔ Sends s.toRegs := by
  rw [h.regs]
  rfl

theorem Agrees.buf_length_le : σ.buf.length ≤ pageLength σ.len σ.idx := by
  rcases h.buffered with ⟨-, -, hle, -⟩ | hnil
  · exact hle
  · simp [hnil]

/-- The bytes buffered are the image's. -/
theorem Agrees.buf_eq : σ.buf = imgBytes s.img (pageAddress σ.idx).toNat σ.buf.length := by
  rcases h.buffered with ⟨-, -, -, heq⟩ | hnil
  · exact heq
  · rw [hnil]
    rfl

/-- Where a page's frame is sent, the whole page is buffered. -/
theorem Agrees.page_buffered {f : List Byte} (hf : sigFrame σ = some f) (hst : σ.st = .writingPages) :
    σ.buf.length = pageLength σ.len σ.idx := by
  refine Nat.le_antisymm h.buf_length_le (Nat.le_of_not_lt fun hlt => ?_)
  have hp : σ.ph = .send := by
    rcases sends_of_sigFrame hf with hs | hs | hs | hs | hs | hs <;> simp [hst] at hs
    exact hs
  rw [sigFrame_readingPage (readingPage_iff.2 ⟨⟨hst, hp⟩, hlt⟩)] at hf
  cases hf

/-- Outside the sending phases nothing is buffered, dropped or counted. -/
theorem Agrees.not_sending (hp : σ.ph ≠ .send ∧ σ.ph ≠ .send2) :
    σ.buf = [] ∧ σ.reqDropped = false ∧ σ.txPos = 0 := by
  refine ⟨h.buffered.resolve_left fun hb => hp.1 hb.2.1, ?_, ?_⟩
  · rw [Bool.eq_false_iff]
    exact fun hd => hp.1 (readingPage_iff.1 (h.dropped hd)).1.2
  · have hnone : sigFrame σ = none := Option.eq_none_iff_forall_ne_some.2 fun f hf =>
      (sigFrame_phase hf).elim hp.1 hp.2
    have hcount := h.counted
    rwa [hnone] at hcount

/-- While a frame is sent no request is dropped. -/
theorem Agrees.not_dropped {f : List Byte} (hf : sigFrame σ = some f) : σ.reqDropped = false := by
  rw [Bool.eq_false_iff]
  intro hd
  rw [sigFrame_readingPage (h.dropped hd)] at hf
  cases hf

/-! ### The frame -/

/-- The frame the signal level sends is the frame of the position. -/
theorem Agrees.frameAt_of_sigFrame {f : List Byte} (hreg : RegInv s.toRegs)
    (hf : sigFrame σ = some f) : frameAt s = some f := by
  rcases sends_of_sigFrame hf with ⟨h1, h2⟩ | ⟨h1, h2⟩ | ⟨h1, h2⟩ | ⟨h1, h2⟩ | ⟨h1, h2⟩ | ⟨h1, h2⟩
  case inr.inr.inl =>
    have hfull := h.page_buffered hf h1
    have hlt := hreg.page_lt (h.st ▸ h1)
    rw [hreg.pages, lt_pageCount_iff] at hlt
    have hpay : pagePayload s.img s.len s.idx = some (padPage σ.buf) := by
      rw [pagePayload_eq hlt, h.buf_eq, hfull, h.len, h.idx, pageLength, pageAddress_toNat,
        cfg_pageSize]
    have hframe : sigFrame σ = some (pageFrame (pageAddress σ.idx) (padPage σ.buf)) := by
      simp [sigFrame, h1, h2, pageBuffered, hfull]
    rw [← hf, hframe, h.idx, ← procFrame_eq hpay]
    simp [frameAt, ← h.st, ← h.ph, h1, h2]
  all_goals
    rw [← hf]
    simp [frameAt, sigFrame, ← h.st, ← h.ph, ← h.csum, h1, h2]

end

end Sys2Proof.Machine
end

section
/-! PROOFS. Family 20 (memory): the signal level refines the step. By kind of position, a cycle stays in
agreement with the state whose primitive it is part of, or completes that primitive. -/

namespace Sys2Proof.Machine

open Sys2Proof.Config

/-! ### The bytes read -/

/-- Image bytes are counted as read in `WritingPages` alone. -/
theorem bytesRead_of_ne {σ : SigState} (h : σ.st ≠ .writingPages) : bytesRead σ = 0 := by
  unfold bytesRead
  split <;> simp_all

theorem bytesRead_send {σ : SigState} (h : σ.st = .writingPages) (hp : σ.ph = .send) :
    bytesRead σ = (pageAddress σ.idx).toNat + σ.buf.length := by
  simp [bytesRead, h, hp]

theorem bytesRead_wait {σ : SigState} (h : σ.st = .writingPages) (hp : σ.ph = .wait) :
    bytesRead σ = (pageAddress σ.idx).toNat + pageLength σ.len σ.idx := by
  simp [bytesRead, h, hp]

/-- A write call that answered while the sum is kept leaves the bytes read as they are. -/
theorem bytesRead_wrote {σ σ' : SigState} {a : Bool} (hs : Sends σ.toRegs)
    (hfull : σ.st = .writingPages → σ.buf.length = pageLength σ.len σ.idx)
    (hregs : σ'.toRegs = afterWrite a σ.toRegs) (hsum : Summing σ'.st) :
    Summing σ.st ∧ bytesRead σ' = bytesRead σ := by
  rcases hs with ⟨h1, h2⟩ | ⟨h1, h2⟩ | ⟨h1, h2⟩ | ⟨h1, h2⟩ | ⟨h1, h2⟩ | ⟨h1, h2⟩ <;> cases a <;>
    simp [afterWrite, h1, h2] at hregs <;> simp [Summing, hregs] at hsum
  case inr.inr.inl.true =>
    rw [bytesRead_send h1 h2, bytesRead_wait (by simp [hregs]) (by simp [hregs]), hfull h1, hregs]
    exact ⟨.inr (.inr h1), rfl⟩
  all_goals
    rw [bytesRead_of_ne (σ := σ) (by simp [h1]), bytesRead_of_ne (by simp [hregs])]
    simp [Summing, h1]

/-- A settle delay is no part of the pages. -/
theorem bytesRead_slept {σ σ' : SigState} {ms : Ms} (hd : settleDelay σ.st = some ms)
    (hregs : σ'.toRegs = afterSleep σ.toRegs) (hsum : Summing σ'.st) :
    Summing σ.st ∧ bytesRead σ' = bytesRead σ := by
  rcases afterSleep_cases hd with ⟨hs, e⟩ | ⟨-, e⟩ <;> rw [e] at hregs
  · rw [bytesRead_of_ne (σ := σ) (by simp [hs]), bytesRead_of_ne (by simp [hregs])]
    simp [Summing, hs]
  · simp [Summing, hregs] at hsum

/-- An acknowledged handshake while the sum is kept leaves the bytes read as they are: the next page
begins where this one ends. -/
theorem Agrees.bytesRead_read {σ σ' : SigState} {s : State} {t : Ms} {answer : Option Byte}
    {sum : Word} (h : Agrees σ s) (hreg : RegInv s.toRegs)
    (ha : Machine.awaiting s.toRegs = some t)
    (hregs : σ'.toRegs = afterRead answer sum s.toRegs) (hbuf : σ'.buf = [])
    (hsum : Summing σ'.st) : Summing σ.st ∧ bytesRead σ' = bytesRead σ := by
  obtain ⟨hp, hw, -⟩ := awaiting_eq_some.1 ha
  have hst := h.st
  have hph := h.ph
  rcases afterRead_cases answer sum s.toRegs with ⟨-, e⟩ | ⟨-, e⟩ | ⟨_, -, -, e⟩ | ⟨-, e⟩ <;>
    rw [e] at hregs
  iterate 3 simp [Summing, hregs] at hsum
  rcases advance_cases (r := latchByte cfg.rspAck .ok s.toRegs) hw sum with
    ⟨hs, e⟩ | ⟨hs, e⟩ | ⟨hs, hlt, e⟩ | ⟨-, -, e⟩ | ⟨-, e⟩ <;>
    rw [e] at hregs <;> simp [Summing, hregs] at hsum <;> rw [latchByte_st] at hs <;>
    rw [hs] at hst
  · rw [bytesRead_of_ne (σ := σ) (by simp [hst]), bytesRead_of_ne (by simp [hregs])]
    simp [Summing, hst]
  · rw [bytesRead_of_ne (σ := σ) (by simp [hst]),
      bytesRead_send (by simp [hregs]) (by simp [hregs]), hbuf, hregs]
    exact ⟨.inr (.inl hst), rfl⟩
  · rw [bytesRead_wait hst (hph.trans hp), bytesRead_send (by simp [hregs]) (by simp [hregs]), hbuf,
      hregs, h.idx, h.len, hreg.page_full hlt]
    exact ⟨.inr (.inr hst), rfl⟩

/-! ### Inside a primitive -/

theorem takenAfter_le {i : SigIn} {σ : SigState} {f : List Byte} (hf : sigFrame σ = some f)
    (hpos : σ.txPos.toNat ≤ f.length) : (takenAfter i σ).toNat ≤ f.length := by
  unfold takenAfter
  split
  · rename_i htake
    simp only [offering_eq hf, Bool.and_eq_true, decide_eq_true_eq] at htake
    rw [BitVec.toNat_add, show (1 : BitVec 8).toNat = 1 from rfl]
    omega
  · exact hpos

/-- The byte taken is the image's at the next address, and agreement stays. -/
theorem Agrees.takeImageByte {i : SigIn} {σ : SigState} {s : State} (h : Agrees σ s)
    (hq : requesting σ = true) (ha : i.img_ack = true) (hport : imagePortRight i σ s.img) :
    Agrees (Machine.takeImageByte i.img_data σ) s := by
  obtain ⟨hread, -⟩ := requesting_iff.1 hq
  obtain ⟨⟨hst, hp⟩, hlt⟩ := readingPage_iff.1 hread
  have haddr : (pageAddress σ.idx + BitVec.ofNat 32 σ.buf.length).toNat =
      (pageAddress σ.idx).toNat + σ.buf.length := by
    have hend := pageAddress_add_lt hlt
    have hlen := σ.len.isLt
    rw [BitVec.toNat_add, BitVec.toNat_ofNat]
    omega
  have hbyte : i.img_data = imgByte s.img ((pageAddress σ.idx).toNat + σ.buf.length) := by
    rw [← haddr]
    exact hport _ hq (by simp [outputs, hq]) ha
  have hcount := h.counted
  rw [sigFrame_readingPage hread] at hcount
  refine ⟨h.regs, h.clock, .inl ⟨hst, hp, by simpa using hlt, ?_⟩, fun hd => ?_, fun hs => ?_, ?_⟩
  · rw [takeImageByte_buf, List.length_append, List.length_singleton, takeImageByte_toRegs,
      imgBytes_succ, ← h.buf_eq, hbyte]
  · exact readingPage_iff.2 ⟨⟨hst, hp⟩, by simpa using hd⟩
  · rw [bytesRead_send (σ := Machine.takeImageByte i.img_data σ) hst hp, takeImageByte_acc,
      h.summed hs, bytesRead_send hst hp, hbyte, takeImageByte_buf, List.length_append,
      takeImageByte_toRegs]
    rfl
  · split
    · simp [hcount]
    · exact hcount

/-- A cycle that reads a page stays inside its write. -/
theorem Agrees.imageCycle {i : SigIn} {σ : SigState} {s : State} (h : Agrees σ s)
    (hread : readingPage σ = true) (hport : imagePortRight i σ s.img) :
    Agrees (Machine.imageCycle i σ) s := by
  unfold Machine.imageCycle
  split
  · exact { h with dropped := fun hd => by cases hd }
  rename_i hd
  split
  · rename_i ha
    exact h.takeImageByte (requesting_iff.2 ⟨hread, by simpa using hd⟩) ha hport
  · exact h

/-- A tick before the last one. -/
theorem Agrees.countDown {σ : SigState} {s : State} (h : Agrees σ s) :
    Agrees (Machine.countDown σ) s := by
  unfold Machine.countDown
  split
  · rename_i hlt
    have hsub := timer_sub_one hlt
    refine { h with regs := ?_, clock := ⟨?_, fun _ h0 => ?_⟩ }
    · rw [h.regs]
    · exact (show (σ.timer - 1).toNat ≤ σ.timer.toNat by omega).trans h.clock.1
    · have hzero : (σ.timer - 1).toNat = 0 := congrArg BitVec.toNat h0
      omega
  · exact h

/-! ### The end of a primitive -/

/-- The end of a primitive: the registers move on alike, and the sum, where it is still kept, is of the
bytes read before. -/
theorem Agrees.entered {σ σ' : SigState} {s t : State} (h : Agrees σ s)
    (hregs : σ'.toRegs = t.toRegs) (himg : t.img = s.img) (hacc : σ'.acc = σ.acc)
    (hidle : σ'.buf = [] ∧ σ'.reqDropped = false ∧ σ'.txPos = 0)
    (hsum : Summing σ'.st → Summing σ.st ∧ bytesRead σ' = bytesRead σ) : Agrees σ' t := by
  obtain ⟨hbuf, hdrop, hpos⟩ := hidle
  refine agrees_at_entry hregs hbuf hdrop hpos fun hs => ?_
  obtain ⟨hs', hread⟩ := hsum hs
  rw [hacc, himg, hread]
  exact h.summed hs'

/-- A cycle leads to a state that agrees with `s` again, or with the step of `s` under its inputs. -/
def Refines (i : SigIn) (σ : SigState) (s : State) (σ' : SigState) : Prop :=
  Agrees σ' s ∨ ∃ t, step (withPorts i σ s) = .next t ∧ Agrees σ' t

/-- `rst` leads both levels to their reset state. -/
theorem refines_reset {i : SigIn} (hr : i.rst = true) (σ : SigState) (s : State) :
    Refines i σ s SigState.reset := by
  refine .inr ⟨resetRegisters (withPorts i σ s), if_pos hr, ?_⟩
  exact agrees_at_entry rfl rfl rfl rfl fun hs => by rcases hs with hs | hs | hs <;> cases hs

/-- With the inputs of the cycle, both levels accept a start alike (R180, R181). -/
theorem startCycle_eq_acceptStart {i : SigIn} (hs : i.start = true) (σ : SigState) (s : State) :
    startCycle i σ = startedWith (acceptStart (withPorts i σ s)).toRegs := by
  rw [startCycle, if_pos hs]
  rcases acceptStart_cases (withPorts i σ s) with ⟨h0, e⟩ | ⟨h0, hc, e⟩ | ⟨h0, hc, e⟩ <;> rw [e]
  · exact congrArg startedWith (if_pos h0)
  · exact congrArg startedWith ((if_neg h0).trans (if_neg (Bool.eq_false_iff.1 hc)))
  · exact congrArg startedWith ((if_neg h0).trans (if_pos hc))

theorem acceptStart_st (s : State) : (acceptStart s).st ≠ .writingPages := by
  rcases acceptStart_cases s with ⟨-, e⟩ | ⟨-, -, e⟩ | ⟨-, -, e⟩ <;> simp [e]

section
variable {i : SigIn} {σ : SigState} {s : State} (h : Agrees σ s) (hr : i.rst = false)
include h hr

/-- A cycle of a quiescent state: an accepted start leads both levels to the same registers. -/
theorem Agrees.startCycle (hq : quiescent s.st = true) (hp : s.ph = .send) :
    Refines i σ s (Machine.startCycle i σ) := by
  cases hs : i.start
  · left
    rw [Machine.startCycle, hs]
    exact h
  · have hstep := step_start (s := withPorts i σ s) hr hq hp hs
    refine .inr ⟨_, hstep, ?_⟩
    rw [startCycle_eq_acceptStart hs σ s]
    refine agrees_at_entry rfl rfl rfl rfl fun _ => ?_
    rw [bytesRead_of_ne (acceptStart_st _)]
    rfl

/-- A handshake that ends with the answer the ports give; at the last page the running sum is the
image's. -/
theorem Agrees.endWait {t : Ms} (hreg : RegInv s.toRegs) (ha : Machine.awaiting s.toRegs = some t) :
    Refines i σ s (Machine.endWait (readAnswer i) σ) := by
  obtain ⟨hp, hw, -⟩ := awaiting_eq_some.1 ha
  have hlast : s.st = .writingPages → ¬ s.idx.toNat + 1 < s.npages.toNat →
      σ.acc = checksumOf s.img s.len.toNat := fun hst hge => by
    rw [h.summed (.inr (.inr (h.st.trans hst))), bytesRead_wait (h.st.trans hst) (h.ph.trans hp),
      h.idx, h.len, hreg.page_last hst hge]
  have hregs : afterRead (readAnswer i) σ.acc σ.toRegs =
      afterRead (readAnswer i) (checksumOf s.img s.len.toNat) s.toRegs := by
    rw [h.regs, ← afterRead_sum_congr _ hlast]
    exact afterRead_timer hw
  refine .inr ⟨_, step_read (s := withPorts i σ s) hr ha, ?_⟩
  exact h.entered hregs rfl rfl (h.not_sending (by simp [h.ph, hp]))
    fun hsum => h.bytesRead_read hreg ha hregs (h.not_sending (by simp [h.ph, hp])).1 hsum

/-- A cycle of a write call: bytes are taken, or the call ends with the answer of the ports. -/
theorem Agrees.writeCycle {f : List Byte} (hreg : RegInv s.toRegs) (hf : sigFrame σ = some f) :
    Refines i σ s (Machine.writeCycle f i σ) := by
  unfold Machine.writeCycle
  split
  · have hs := sends_of_sigFrame hf
    have hframe : frameAt (withPorts i σ s) = some f := h.frameAt_of_sigFrame hreg hf
    have hregs : afterWrite (writeAnswer i σ) σ.toRegs = afterWrite (writeAnswer i σ) s.toRegs := by
      rw [h.regs]
      exact afterWrite_timer (h.sends_iff.1 hs)
    have hans : (decide ((takenAfter i σ).toNat = f.length) && i.wr_ok) = writeAnswer i σ := by
      simp [writeAnswer, hf]
    rw [hans]
    refine .inr ⟨_, step_write (s := withPorts i σ s) hr hframe hreg.pages hreg.page_lt rfl,
      h.entered hregs rfl rfl ⟨rfl, h.not_dropped hf, rfl⟩
        (bytesRead_wrote hs (h.page_buffered hf) rfl)⟩
  · left
    have hpos : (takenAfter i σ).toNat ≤ f.length := takenAfter_le hf (by simpa [hf] using h.counted)
    exact { h with counted := by simpa [hf] using hpos }

/-- A cycle of a settle delay: the last tick is the end of the sleep. -/
theorem Agrees.settleCycle {ms : Ms} (hp : σ.ph = .settle) (hd : settleDelay s.st = some ms) :
    Refines i σ s (Machine.settleCycle i σ) := by
  unfold Machine.settleCycle
  split
  · split
    · have hregs : afterSleep σ.toRegs = afterSleep s.toRegs := by
        rw [h.regs]
        exact afterSleep_timer hd
      refine .inr ⟨_, step_sleep (s := withPorts i σ s) hr (h.ph ▸ hp) hd,
        h.entered hregs rfl rfl (h.not_sending (by simp [hp])) (bytesRead_slept (h.st ▸ hd) rfl)⟩
    · exact .inl h.countDown
  · exact .inl h

/-- A cycle of a handshake: a byte, a transport error or the last tick is the end of the read. -/
theorem Agrees.waitCycle {t : Ms} (hreg : RegInv s.toRegs) (ha : Machine.awaiting s.toRegs = some t) :
    Refines i σ s (Machine.waitCycle i σ) := by
  have hend := h.endWait hr hreg ha
  cases hv : i.rx_valid <;>
    simp only [readAnswer, hv, Bool.false_eq_true, reduceIte] at hend <;>
    simp only [Machine.waitCycle, hv, Bool.false_eq_true, reduceIte]
  · split
    · exact hend
    split
    · split
      · exact hend
      · exact .inl h.countDown
    · exact .inl h
  · exact hend

/-- One cycle, at whatever position (R12). -/
theorem Agrees.cycle {σ' : SigState} (hreg : RegInv s.toRegs) (hport : imagePortRight i σ s.img)
    (hcycle : Machine.cycle i σ = .next σ') : Refines i σ s σ' := by
  have hl : legalPosition σ.toRegs = true := h.legal.trans hreg.position
  rcases legalPosition_cases hreg.position with ⟨hq, hp⟩ | hs | ⟨hp, ms, hd⟩ | ⟨t, ha⟩
  · rw [cycle_quiescent hr hl (h.st ▸ hq)] at hcycle
    cases hcycle
    exact h.startCycle hr hq hp
  · rcases sigFrame_or_readingPage (h.sends_iff.2 hs) with ⟨f, hf⟩ | hread
    · rw [cycle_write hr hl hf] at hcycle
      cases hcycle
      exact h.writeCycle hr hreg hf
    · rw [cycle_readingPage hr hl hread] at hcycle
      cases hcycle
      exact .inl (h.imageCycle hread hport)
  · rw [cycle_settle hr (h.ph.trans hp) hl] at hcycle
    cases hcycle
    exact h.settleCycle hr (h.ph.trans hp) hd
  · rw [cycle_wait hr (h.ph.trans (awaiting_eq_some.1 ha).1) hl] at hcycle
    cases hcycle
    exact h.waitCycle hr hreg ha

end

/-- Settles O58: by kind of position; the frame offered is the position's, since a buffered page is the
image's. -/
theorem signalLevelRefinesStep : Obligations.SignalLevelRefinesStep := by
  unfold Obligations.SignalLevelRefinesStep
  refine ⟨fun i σ σ' s hreg h hport hcycle => ?_, fun σ s f hreg h =>
    ⟨h.frameAt_of_sigFrame hreg, fun hframe => ?_, fun hf _ => tx_data_eq hf⟩⟩
  · cases hr : i.rst
    · exact h.cycle hr hreg hport hcycle
    · rw [cycle, if_pos hr] at hcycle
      cases hcycle
      exact refines_reset hr σ s
  · have hs := h.sends_iff.2 (sends_of_frameAt hframe)
    refine (sigFrame_or_readingPage hs).imp_left fun ⟨g, hg⟩ => ?_
    rwa [← hframe, h.frameAt_of_sigFrame hreg hg]

end Sys2Proof.Machine
end

section
/-! PROOFS. Family 30 (encoding): the codec reads exactly the frames it writes, the fields of a
page frame, and that each position sends its own frame and nothing else. -/

namespace Sys2Proof.Machine

open Sys2Proof.Config

/-! ### The codec -/

/-- Settles O1: by the fields of each operation's frame. -/
theorem decodeEncodeAgree : Obligations.DecodeEncodeAgree := by
  unfold Obligations.DecodeEncodeAgree
  exact fun i d hw hd => decode_encode hw hd

/-- The opcode reader reads a byte as a command only where it is that command's opcode (R72). -/
theorem encode_of_decodeOpcode {b : Byte} {i : Instr} (h : decodeOpcode b = .ok i) :
    encode i = [b] ∧ i.direction = some .tx := by
  unfold decodeOpcode at h
  repeat' split at h
  all_goals cases h <;> subst_vars <;> exact ⟨rfl, rfl⟩

/-- A response is its byte, and every byte is a response (R75, R81). -/
theorem encode_decodeRx (b : Byte) :
    encode (decodeRx b) = [b] ∧ (decodeRx b).direction = some .rx := by
  unfold decodeRx
  repeat' split
  all_goals
    subst_vars
    exact ⟨rfl, rfl⟩

/-- The TX reader drops no bit of a frame it accepts (R80). -/
theorem encode_of_decodeTx {bs : List Byte} {i : Instr} (h : decodeTx bs = .ok i) :
    encode i = bs ∧ i.direction = some .tx := by
  unfold decodeTx at h
  split at h
  · cases h
  · exact encode_of_decodeOpcode h
  · cases h
    exact ⟨be32_ofBe32 .., rfl⟩
  · split at h
    · obtain ⟨rfl, -⟩ := decodePage_eq_ok.1 h
      subst_vars
      exact ⟨by simp [encode, be32_ofBe32], rfl⟩
    · cases h
  · cases h

/-- Settles O2: by direction; a TX frame keeps its bytes in the operation's fields, an RX frame is one
byte. -/
theorem encodeDecodeAgree : Obligations.EncodeDecodeAgree := by
  unfold Obligations.EncodeDecodeAgree
  intro d bs i h
  cases d with
  | tx =>
    obtain ⟨hbytes, hdir⟩ := encode_of_decodeTx h
    exact ⟨hbytes, hdir, decodeTx_wellFormed h⟩
  | rx =>
    rcases bs with _ | ⟨b, _ | ⟨c, bs⟩⟩ <;> cases h
    obtain ⟨hbytes, hdir⟩ := encode_decodeRx b
    exact ⟨hbytes, hdir, decodeRx_wellFormed b⟩

/-- Settles O3: eight closed words. -/
theorem tableWordsDecode : Obligations.TableWordsDecode := by
  unfold Obligations.TableWordsDecode
  decide

/-! ### The fields of a page frame -/

/-- Settles O6: the product does not wrap, so its upper and lower bits are quotient and remainder by 128. -/
theorem pageAddressField : Obligations.PageAddressField := by
  unfold Obligations.PageAddressField
  intro i payload
  have haddr := pageAddress_toNat i
  have hi := i.isLt
  refine ⟨haddr, ?_, ?_, rfl⟩ <;> apply BitVec.eq_of_toNat_eq <;>
    rw [BitVec.extractLsb'_toNat, haddr, Nat.shiftRight_eq_div_pow]
  · omega
  · show i.toNat * 128 / 2 ^ 0 % 2 ^ 7 = 0
    omega

/-- A padded page: the bytes given, then the pad byte (R77). -/
theorem padPage_getElem? {bs : List Byte} {j : Nat} (hj : j < 128) :
    (padPage bs)[j]? = if j < bs.length then bs[j]? else some 0xFF := by
  split
  · exact List.getElem?_append_left ‹_›
  · rw [padPage, List.getElem?_append_right (by omega), List.getElem?_replicate,
      if_pos (by rw [cfg_pageSize]; omega), cfg_padByte]

/-- Settles O7: the payload is the padded image bytes. -/
theorem payloadField : Obligations.PayloadField := by
  unfold Obligations.PayloadField
  intro m len i
  refine ⟨pagePayload_none, fun h => ⟨_, pagePayload_eq h, padPage_length (by simp), fun j hj => ?_⟩⟩
  rw [padPage_getElem? hj, imgBytes_length, imgBytes_getElem?]
  split <;> rfl

/-! ### What is sent, and where -/

/-- An accepted start leaves no write in the trace. -/
theorem write_notMem_acceptStart (bytes : List Byte) (a : Bool) (s : State) :
    Event.write bytes a ∉ (acceptStart s).trace := by
  rcases acceptStart_cases s with ⟨-, e⟩ | ⟨-, -, e⟩ | ⟨-, -, e⟩ <;> simp [e]

/-- Settles O26: by the kinds of step, of which only an answered write call notes a write. -/
theorem frameSentIsThePositions : Obligations.FrameSentIsThePositions := by
  unfold Obligations.FrameSentIsThePositions
  refine ⟨fun s t h => ?_, fun s bytes a rest hr hf hn hi hw =>
    ⟨_, step_write hr hf hn hi hw, rfl, rfl⟩⟩
  cases step_inv h with
  | reset _ => exact .inl fun _ _ => List.not_mem_nil
  | start _ _ _ _ => exact .inl fun bytes a => write_notMem_acceptStart bytes a s
  | quiet _ _ _ _ | pending _ _ _ _ => exact .inr ⟨[], by simp⟩
  | slept _ ms _ _ => exact .inr ⟨[.sleep ms], rfl, by simp⟩
  | read _ T _ => exact .inr ⟨[.read T (nextRead s)], rfl, by simp⟩
  | wrote _ bytes a rest hf _ =>
    refine .inr ⟨[.write bytes a], rfl, fun bytes' a' hmem => ?_⟩
    cases List.mem_singleton.1 hmem
    exact ⟨hf, rfl⟩

/-- Settles O27: where the guard of a sending operation holds, its frame is the position's; WRITE_PAGE
faults inside its guard where the page has no payload. -/
theorem sendingOutOfSequenceStops : Obligations.SendingOutOfSequenceStops := by
  unfold Obligations.SendingOutOfSequenceStops
  intro i s hd hne
  have guarded : ∀ {p : Prop} [Decidable p] {sent : Result}, (p → frameAt s = some (encode i)) →
      (if p then sent else .refused .outOfSequence) = .refused .outOfSequence :=
    fun hp => if_neg fun h => hne (hp h)
  cases i with
  | enter => exact .inl (guarded fun ⟨hst, hph⟩ => by simp [frameAt, hst, hph, encode])
  | erase => exact .inl (guarded fun ⟨hst, hph⟩ => by simp [frameAt, hst, hph, encode])
  | verify => exact .inl (guarded fun ⟨hst, hph⟩ => by simp [frameAt, hst, hph, encode])
  | exit => exact .inl (guarded fun ⟨hst, hph⟩ => by simp [frameAt, hst, hph, encode])
  | checksum c => exact .inl (guarded fun ⟨hst, hph, hc⟩ => by simp [frameAt, hst, hph, hc, encode])
  | writePage addr payload =>
    by_cases hpos : s.st = .writingPages ∧ s.ph = .send ∧ inPages s.toRegs = true
    · rw [exec, execWritePage, if_pos hpos]
      obtain ⟨hst, hph, -⟩ := hpos
      rcases hp : pagePayload s.img s.len s.idx with _ | bytes
      · refine .inr ⟨rfl, ⟨addr, payload, rfl⟩, hst, hph, Nat.le_of_not_lt fun hlt => ?_⟩
        simp [pagePayload_eq hlt] at hp
      · refine .inl (guarded fun ⟨haddr, hpayload⟩ => ?_)
        simp [frameAt, hst, hph, procFrame_eq hp, pageFrame, encode, haddr, hpayload]
    · exact .inl (if_neg hpos)
  | ack | nack | malformed _ | awaitAck _ | sleep _ | upload => cases hd

end Sys2Proof.Machine
end

section
/-! PROOFS. Family 40 (handshake waiter): the class of a byte, where a handshake is performed, and what
each answer of the channel does there. -/

namespace Sys2Proof.Machine

open Sys2Proof.Config

/-! ### The class of a byte -/

/-- The RX reader and the classification tell the bytes apart alike (R75, R81, R101). -/
theorem classify_decodeRx_cases (b : Byte) :
    (classify b = .ok ∧ decodeRx b = .ack) ∨ (classify b = .nack ∧ decodeRx b = .nack) ∨
      (classify b = .malformed ∧ decodeRx b = .malformed b) := by
  rcases classify_cases b with hc | hc | hc
  · obtain rfl := classify_ok.1 hc
    exact .inl ⟨hc, rfl⟩
  · obtain rfl := classify_nack.1 hc
    exact .inr (.inl ⟨hc, rfl⟩)
  · exact .inr (.inr ⟨hc, decodeRx_foreign (classify_malformed.1 hc)⟩)

theorem isForeign_iff {b : Byte} : isForeign b = true ↔ b ≠ 0x79 ∧ b ≠ 0x1F := by simp [isForeign]

/-- A handshake that obtained a byte latches the byte and its class, wherever it leads (R100). -/
theorem afterRead_some_latches (b : Byte) (sum : Word) (r : Regs) :
    (afterRead (some b) sum r).rxb = b ∧ (afterRead (some b) sum r).hs = classify b := by
  rcases classify_cases b with hc | hc | hc <;> simp [afterRead, hc]

/-- Settles O4: by the class of the byte; with no byte the handshake latches `Timeout`. -/
theorem responseClassification : Obligations.ResponseClassification := by
  unfold Obligations.ResponseClassification
  refine ⟨fun b => ⟨classify_ok, classify_nack, classify_malformed.trans isForeign_iff, ?_⟩,
    fun s t ha hn => ⟨_, execAwaitAck_eq ha, by simp [readState, hn, afterRead]⟩⟩
  rcases classify_decodeRx_cases b with ⟨hc, hd⟩ | ⟨hc, hd⟩ | ⟨hc, hd⟩ <;> simp [decode, hc, hd]

/-! ### Where a handshake is performed, and on which answer -/

theorem waitTimeout_eq_some {st : SessionState} {t : Ms} :
    waitTimeout st = some t ↔
      (st = .enteringBootloader ∧ t = 2000) ∨ (st = .erasing ∧ t = 5000) ∨
        (st = .writingPages ∧ t = 1000) ∨ (st = .verifying ∧ t = 3000) := by
  cases st <;> simp [waitTimeout, eq_comm]

/-- A handshake is awaited in the `Wait` phase of a state that has one; a page's, while the page exists. -/
theorem awaiting_of_wait {r : Regs} {t : Ms} (hp : r.ph = .wait) (hw : waitTimeout r.st = some t)
    (hi : r.st = .writingPages → r.idx.toNat < r.npages.toNat) : awaiting r = some t :=
  awaiting_eq_some.2 ⟨hp, hw, fun hst => decide_eq_true (hi hst)⟩

theorem nextRead_cons {s : State} {a : Option Byte} {rest : List (Option Byte)}
    (h : s.rdAns = a :: rest) : nextRead s = a := by rw [nextRead, h, List.headD_cons]

/-- AWAIT_ACK goes on exactly where a handshake with its timeout is awaited. -/
theorem execAwaitAck_next_iff {s : State} {t : Ms} :
    (∃ u, execAwaitAck t s = .next u) ↔ awaiting s.toRegs = some t :=
  ⟨fun ⟨_, h⟩ => (execAwaitAck_next h).1, fun ha => ⟨_, execAwaitAck_eq ha⟩⟩

/-- Settles O21: AWAIT_ACK goes on where its handshake is awaited, state by state. -/
theorem handshakeTimeoutsFixed : Obligations.HandshakeTimeoutsFixed := by
  unfold Obligations.HandshakeTimeoutsFixed
  intro s t
  refine execAwaitAck_next_iff.trans (awaiting_eq_some.trans (and_congr_right fun _ => ?_))
  rw [waitTimeout_eq_some, inPages, decide_eq_true_eq]
  cases hst : s.st <;> simp

/-- Settles O20: what AWAIT_ACK answers is the state after the handshake. -/
theorem awaitAckPerformsTheResponse : Obligations.AwaitAckPerformsTheResponse := by
  unfold Obligations.AwaitAckPerformsTheResponse
  intro s t b rest hp hw hi hrd
  have ha := awaiting_of_wait hp hw hi
  have hn := nextRead_cons hrd
  obtain ⟨hrxb, hhs⟩ := afterRead_some_latches b (checksumOf s.img s.len.toNat) s.toRegs
  refine ⟨execAwaitAck_eq_response ha hn, readState t s, execAwaitAck_eq ha, ?_⟩
  simp [readState, hn, hrd, hrxb, hhs]

/-- Settles O19: with no byte the handshake latches `Timeout` and raises it. -/
theorem awaitAckTimesOut : Obligations.AwaitAckTimesOut := by
  unfold Obligations.AwaitAckTimesOut
  intro s t rest hp hw hi hrd
  refine (execAwaitAck_eq (awaiting_of_wait hp hw hi)).trans ?_
  rw [readState, nextRead_cons hrd, hrd]
  rfl

/-! ### What a received byte does -/

/-- The byte at the front of the channel's answers is received where a handshake is awaited, and leaves
the registers `r`. -/
theorem receive_front {s : State} {t : Ms} {b : Byte} {h : HsResult} {f : Regs → Regs} {r : Regs}
    {rest : List (Option Byte)} (ha : awaiting s.toRegs = some t) (hrd : s.rdAns = some b :: rest)
    (hr : f (latchByte b h s.toRegs) = r) :
    receive b h f s = .next { s with
      toRegs := r, rdAns := rest, trace := s.trace ++ [.read t (some b)] } := by
  rw [receive_eq ha (nextRead_cons hrd), hr, hrd, List.tail_cons]

/-- Settles O18: the byte and its class are latched, then the failure is raised. -/
theorem nackAndMalformedFail : Obligations.NackAndMalformedFail := by
  unfold Obligations.NackAndMalformedFail
  intro s t b rest hp hw hi hrd
  have ha := awaiting_of_wait hp hw hi
  constructor
  · rintro rfl
    exact receive_front ha hrd rfl
  · intro hack hnack
    have hc : classify b = .malformed := classify_malformed.2 (isForeign_iff.2 ⟨hack, hnack⟩)
    rw [exec, execMalformed, if_pos hc]
    exact receive_front ha hrd rfl

/-! ### Where an acknowledged handshake leads -/

section

variable {r : Regs} (sum : Word)

theorem advance_enteringBootloader (h : r.st = .enteringBootloader) :
    advance sum r = moveTo .erasing .send r := by simp only [advance, h]

theorem advance_erasing (h : r.st = .erasing) :
    advance sum r = moveTo .writingPages .send { r with idx := 0 } := by simp only [advance, h]

/-- While pages follow, the sequencer stays in its state (R189). -/
theorem advance_morePages (h : r.st = .writingPages) (hlt : r.idx.toNat + 1 < r.npages.toNat) :
    advance sum r = moveTo r.st .send { r with idx := r.idx + 1 } := by
  simp only [advance, h]
  exact if_pos ((morePages_iff r).2 hlt)

theorem advance_lastPage (h : r.st = .writingPages) (hlast : ¬ r.idx.toNat + 1 < r.npages.toNat) :
    advance sum r = moveTo .verifying .send { r with csum := sum } := by
  simp only [advance, h]
  exact if_neg (mt (morePages_iff r).1 hlast)

theorem advance_verifying (h : r.st = .verifying) :
    advance sum r = moveTo .exitingBootloader .send r := by simp only [advance, h]

end

/-- Below the largest page count the page index does not wrap (R13, R143). -/
theorem idx_add_one_toNat {i : PageIdx} {n : PageCount} (hn : n.toNat ≤ 2 ^ 25)
    (hi : i.toNat + 1 < n.toNat) : (i + 1).toNat = i.toNat + 1 := by
  rw [BitVec.toNat_add, show (1 : PageIdx).toNat = 1 from rfl]
  omega

/-- Settles O17: ACK is received at each `Wait` position, and the sequencer advances from there. -/
theorem ackAdvances : Obligations.AckAdvances := by
  unfold Obligations.AckAdvances
  intro s rest hp hrd
  have await : ∀ {st t}, s.st = st → waitTimeout st = some t →
      (st = .writingPages → s.idx.toNat < s.npages.toNat) → awaiting s.toRegs = some t := by
    rintro _ _ rfl hw hi
    exact awaiting_of_wait hp hw hi
  refine ⟨fun hst => ?_, fun hst => ?_, fun hst hn hlt => ⟨?_, idx_add_one_toNat hn hlt⟩,
    fun hst hlast => ?_, fun hst => ?_⟩
  · exact receive_front (await hst rfl nofun) hrd (advance_enteringBootloader _ hst)
  · exact receive_front (await hst rfl nofun) hrd (advance_erasing _ hst)
  · exact receive_front (await hst rfl fun _ => by omega) hrd (advance_morePages _ hst hlt)
  · exact receive_front (await hst rfl fun _ => by omega) hrd
      (advance_lastPage _ hst (Nat.not_lt.2 hlast.ge))
  · exact receive_front (await hst rfl nofun) hrd (advance_verifying _ hst)

end Sys2Proof.Machine
end

section
/-! PROOFS. Family 41 (single-opcode commands): a `Done` state's run was verified and sent EXIT once, and the
EXIT position leads to `Done` on either answer. -/

namespace Sys2Proof.Machine

open Sys2Proof.Config

/-! ### What stands in the trace of a successful run -/

/-- The verify handshake was acknowledged within its timeout (R126, R194). -/
theorem verifyAck_mem_verifiedTrace (m : Memory) (len : Word) (n : Nat) :
    Event.read 3000 (some 0x79) ∈ verifiedTrace m len n := by
  rw [verifiedTrace]
  exact List.mem_append_right _ (List.mem_cons_of_mem _ (List.mem_cons_of_mem _ List.mem_cons_self))

/-- No page is sent as a single byte: a page's frame has 133. -/
theorem write_single_notMem_pagesTrace (m : Memory) (len : Word) (n : Nat) (op : Byte) (b : Bool) :
    Event.write [op] b ∉ pagesTrace m len n := by
  intro h
  rcases mem_pagesTrace h with ⟨i, e⟩ | e
  · injection e with hbytes _
    simpa [← hbytes] using procFrame_length m len i
  · cases e

/-- EXIT is not sent before the verify handshake's `Ok` (R126). -/
theorem exitWrite_notMem_verifiedTrace (m : Memory) (len : Word) (n : Nat) (b : Bool) :
    Event.write [0xF0] b ∉ verifiedTrace m len n := by
  simpa [verifiedTrace, erasedTrace, acked, be32] using
    write_single_notMem_pagesTrace m len n 0xF0 b

/-- The trace invariant in `Done`: the verified run, then the EXIT write and the sleep (R198). -/
theorem TraceInv.at_done {s : State} (h : TraceInv s) (hst : s.st = .done) :
    ∃ a, s.trace = verifiedTrace s.img s.len s.npages.toNat ++ [.write [0xF0] a, .sleep 100] := by
  simp only [TraceInv, hst] at h
  exact h

/-! ### From the EXIT position to `Done` -/

/-- The EXIT write leads to the settle phase whatever it answered (R124, R195). -/
theorem step_exit_send {s : State} {a : Bool} {rest : List Bool} (h : RegInv s.toRegs)
    (hr : s.rst = false) (hst : s.st = .exitingBootloader) (hph : s.ph = .send)
    (hw : s.wrAns = a :: rest) :
    ∃ u, step s = .next u ∧ u.rst = false ∧ u.st = .exitingBootloader ∧ u.ph = .settle ∧
      u.trace = s.trace ++ [.write [0xF0] a] := by
  have hf : frameAt s = some [0xF0] := by
    simp only [frameAt, hst, hph]
    rfl
  have hregs : afterWrite a s.toRegs = moveTo .exitingBootloader .settle s.toRegs := by
    simp only [afterWrite, hst, hph]
  exact ⟨wroteState [0xF0] a rest s, step_write hr hf h.pages h.page_lt hw, hr,
    congrArg Regs.st hregs, congrArg Regs.ph hregs, rfl⟩

/-- The sleep after EXIT ends in `Done` (R196). -/
theorem step_exit_settle {s : State} (hr : s.rst = false) (hst : s.st = .exitingBootloader)
    (hph : s.ph = .settle) :
    ∃ t, step s = .next t ∧ t.st = .done ∧ t.trace = s.trace ++ [.sleep 100] := by
  have hd : settleDelay s.st = some 100 := by
    rw [hst]
    rfl
  have hregs : afterSleep s.toRegs = moveTo .done .send s.toRegs := by
    simp only [afterSleep, hst]
  exact ⟨sleptState 100 s, step_sleep hr hph hd, congrArg Regs.st hregs, rfl⟩

/-! ### A state at the EXIT position -/

/-- The registers at the EXIT position of a run whose image is the one byte `01`. -/
def exitRegs : Regs :=
  { Regs.reset with
    st := .exitingBootloader, len := 1, npages := 1, csum := 1, hs := .ok, rxb := 0x79 }

/-- The EXIT position of that run, with a write call that will answer `a`. -/
def exitReady (a : Bool) : State :=
  { State.reset with
    toRegs := exitRegs, imgLen := 1, chOpen := true, img := [(0, 1)], wrAns := [a]
    trace := verifiedTrace [(0, 1)] 1 1 }

theorem regInv_exitRegs : RegInv exitRegs := by
  constructor <;> decide

theorem sumInv_exitReady (a : Bool) : SumInv (exitReady a) :=
  sumInv_of_late (.inr (.inl rfl)) (show exitRegs.csum = checksumOf [(0, 1)] 1 by decide)

/-- Settles O48: a `Done` trace is the verified one with EXIT and the sleep after it, and the two steps from
the EXIT position, either answer, add these two events. -/
theorem doneMeansVerified : Obligations.DoneMeansVerified := by
  unfold Obligations.DoneMeansVerified
  refine ⟨fun s htr hst => ?_, fun s a rest hreg hsum htr hr hst hph hw => ?_, fun a =>
    ⟨exitReady a, regInv_exitRegs, sumInv_exitReady a, .inl ⟨rfl, rfl⟩, rfl, rfl, rfl, rfl⟩⟩
  · obtain ⟨a, htrace⟩ := htr.at_done hst
    rw [htrace]
    exact ⟨List.mem_append_left _ (verifyAck_mem_verifiedTrace ..), _, a, rfl,
      exitWrite_notMem_verifiedTrace _ _ _⟩
  · obtain ⟨u, hexit, hur, hust, huph, hutrace⟩ := step_exit_send hreg hr hst hph hw
    obtain ⟨t, hsleep, hdone, httrace⟩ := step_exit_settle hur hust huph
    have hinv : TraceInv t := (htr.stepped hreg hsum hexit).stepped (hreg.stepped hexit)
      (hsum.stepped hreg hexit) hsleep
    refine ⟨t, ?_, hdone, hinv, ?_⟩
    · rw [run_next hexit, run_next hsleep, run]
    · rw [httrace, hutrace, List.append_assoc, List.singleton_append]

end Sys2Proof.Machine
end

section
/-! PROOFS. Family 42 (page writer): the bounds of the page count. -/

namespace Sys2Proof.Machine

/-- The largest image ends inside the page at `0xFFFFFF80`, so a page index of 25 bits is wide enough (R13,
R143). -/
theorem pageCount_le (len : Word) : (pageCount len).toNat ≤ 2 ^ 25 := by
  have h := len.isLt
  rw [pageCount_toNat]
  omega

/-- A non-empty image has its page 0: that page begins at the image's first byte. -/
theorem pageCount_pos {len : Word} (h : len ≠ 0) : 0 < (pageCount len).toNat := by
  have hlen : 0 < len.toNat := Nat.pos_of_ne_zero (BitVec.toNat_ne_iff_ne.2 h)
  rwa [lt_pageCount_iff, Nat.zero_mul]

/-- Settles O8: the count as a quotient, its two bounds, and the pages it counts. -/
theorem pageCountIsCeiling : Obligations.PageCountIsCeiling := by
  unfold Obligations.PageCountIsCeiling
  exact fun len =>
    ⟨pageCount_toNat len, pageCount_le len, pageCount_pos, fun i => lt_pageCount_iff len i.toNat⟩

end Sys2Proof.Machine
end

section
/-! PROOFS. Family 43 (checksum verifier): the checksum in unbounded arithmetic. -/

namespace Sys2Proof.Machine

/-- One more byte adds its unsigned value mod `2^32`; that of a byte fits the word, so zero-extending it
loses nothing (R161). -/
theorem checksumOf_succ_toNat (m : Memory) (k : Nat) :
    (checksumOf m (k + 1)).toNat = ((checksumOf m k).toNat + (imgByte m k).toNat) % 2 ^ 32 := by
  rw [checksumOf, BitVec.toNat_add, BitVec.toNat_setWidth_of_le (by decide)]

/-- Settles O9, by induction on the number of bytes: the sums reduced at each byte and the sum reduced once
at the end agree mod `2^32`. -/
theorem checksumIsTheByteSum : Obligations.ChecksumIsTheByteSum := by
  unfold Obligations.ChecksumIsTheByteSum
  intro m n
  induction n with
  | zero => rfl
  | succ k ih =>
    rw [checksumOf_succ_toNat, ih, Nat.mod_add_mod, List.range_succ, List.map_append, List.sum_append,
      List.map_singleton, List.sum_singleton]

end Sys2Proof.Machine
end

section
/-! PROOFS. Family 44 (orchestrator): what each operation of a run does at its own position, the start and
the quiescent states. -/

namespace Sys2Proof.Machine

open Sys2Proof.Config

/-! ### The trace invariant -/

/-- Settles O44: every move a step can make adds to the trace exactly what the next position's trace adds. -/
theorem stepKeepsTraceInv : Obligations.StepKeepsTraceInv := by
  unfold Obligations.StepKeepsTraceInv
  exact fun _ _ h hsum htr hstep => htr.stepped h hsum hstep

/-! ### A sending operation at its position -/

section

variable {s : State} {st : SessionState} {rest : List Bool}

/-- A frame that was accepted, in the state the move stays in: the answer is consumed, the write noted and
the phase entered; nothing else but `timer` changes. -/
theorem sendFrame_accepted (bytes : List Byte) (ph : Phase) (hst : s.st = st)
    (hw : s.wrAns = true :: rest) :
    sendFrame bytes (moveTo st ph) s = { s with
      ph := ph, timer := interval st ph, wrAns := rest, trace := s.trace ++ [.write bytes true] } := by
  subst hst
  simp [sendFrame, chWrite, hw, onRegs, record, moveTo]

/-- The same with either answer, for the frame whose answer is discarded (R124). -/
theorem sendUnchecked_answered {a : Bool} (bytes : List Byte) (ph : Phase) (hst : s.st = st)
    (hw : s.wrAns = a :: rest) :
    sendUnchecked bytes (moveTo st ph) s = { s with
      ph := ph, timer := interval st ph, wrAns := rest, trace := s.trace ++ [.write bytes a] } := by
  subst hst
  simp [sendUnchecked, chWrite, hw, onRegs, record, moveTo]

end

/-- Settles O10: the guard of ENTER holds, and its frame is accepted. -/
theorem enterCompletes : Obligations.EnterCompletes := by
  unfold Obligations.EnterCompletes
  intro s rest hst hph hw
  rw [exec, execEnter, if_pos ⟨hst, hph⟩, sendFrame_accepted _ _ hst hw]
  exact ⟨_, rfl⟩

/-- Settles O11: the guard of ERASE holds, and its frame is accepted. -/
theorem eraseCompletes : Obligations.EraseCompletes := by
  unfold Obligations.EraseCompletes
  intro s rest hst hph hw
  rw [exec, execErase, if_pos ⟨hst, hph⟩, sendFrame_accepted _ _ hst hw]
  exact ⟨_, rfl⟩

/-- WRITE_PAGE at its position with the page's own operands sends the page's frame (R79, R140). -/
theorem execWritePage_eq {s : State} {p : List Byte} (hst : s.st = .writingPages) (hph : s.ph = .send)
    (hi : s.idx.toNat < s.npages.toNat) (hp : pagePayload s.img s.len s.idx = some p) :
    execWritePage (pageAddress s.idx) p s =
      .next (sendFrame (pageFrame (pageAddress s.idx) p) (moveTo .writingPages .wait) s) := by
  rw [execWritePage, if_pos ⟨hst, hph, decide_eq_true hi⟩]
  simp only [hp, and_self, if_true]

/-- Settles O12: the page lies inside the image, so it has a payload of 128 bytes, and its frame is
accepted. -/
theorem writePageCompletes : Obligations.WritePageCompletes := by
  unfold Obligations.WritePageCompletes
  intro s rest hst hph hi hin hw
  have hp := pagePayload_eq (m := s.img) hin
  refine ⟨_, interval .writingPages .wait, hp, ?_, ?_⟩
  · rw [List.length_cons, List.length_append, be32_length, padPage_length (by simp)]
  · rw [exec, execWritePage_eq hst hph hi hp, sendFrame_accepted _ _ hst hw]
    rfl

/-- Settles O13: the guard of VERIFY holds, and its frame is accepted. -/
theorem verifyCompletes : Obligations.VerifyCompletes := by
  unfold Obligations.VerifyCompletes
  intro s rest hst hph hw
  rw [exec, execVerify, if_pos ⟨hst, hph⟩, sendFrame_accepted _ _ hst hw]
  exact ⟨_, rfl⟩

/-- Settles O14: the guard of CHECKSUM holds of the register's own value, and its frame is accepted. -/
theorem checksumCompletes : Obligations.ChecksumCompletes := by
  unfold Obligations.ChecksumCompletes
  intro s rest hst hph hw
  rw [exec, execChecksum, if_pos ⟨hst, hph, rfl⟩, sendFrame_accepted _ _ hst hw]
  exact ⟨_, rfl⟩

/-- Settles O15: the guard of EXIT holds, and the answer of its write call is discarded (R124). -/
theorem exitCompletesWhateverTheAnswer : Obligations.ExitCompletesWhateverTheAnswer := by
  unfold Obligations.ExitCompletesWhateverTheAnswer
  intro s a rest hst hph hw
  rw [exec, execExit, if_pos ⟨hst, hph⟩, sendUnchecked_answered _ _ hst hw]
  exact ⟨_, rfl⟩

/-- Settles O16: both settle delays are 100 ms, and each has its one arc. -/
theorem sleepCompletes : Obligations.SleepCompletes := by
  unfold Obligations.SleepCompletes
  intro s hph
  have slept : ∀ {st : SessionState}, s.st = st → settleDelay st = some 100 →
      exec (.sleep 100) s = .next (sleptState 100 s) := by
    rintro _ rfl hd
    exact if_pos ⟨hph, hd⟩
  refine ⟨fun hst => ?_, fun hst => ?_⟩ <;> rw [slept hst rfl] <;>
    simp only [sleptState, afterSleep, hst]
  · exact ⟨_, by rw [moveTo, ← hst]⟩
  · exact ⟨_, rfl⟩

/-- Settles O25: a write call without an answer changes nothing. -/
theorem pendingWriteWaits : Obligations.PendingWriteWaits := by
  unfold Obligations.PendingWriteWaits
  exact fun _ _ hr hf hn hi hw => step_pending hr hf hn hi hw

/-! ### The start, and the quiescent states -/

/-- Settles O31: a busy UPLOAD is the identity, and an accepted start touches only the registers and the
trace, in each of its three cases. -/
theorem uploadFrame : Obligations.UploadFrame := by
  unfold Obligations.UploadFrame
  intro s t h
  rcases execUpload_next h with ⟨hb, rfl⟩ | ⟨-, -, rfl⟩
  · exact ⟨rfl, fun _ => rfl, fun hq => by simp [hq] at hb⟩
  · rcases acceptStart_cases s with ⟨-, e⟩ | ⟨-, hc, e⟩ | ⟨-, hc, e⟩ <;> rw [e]
    · simp
    · simp [hc]
    · simp [hc]

/-- Nothing is sent in a quiescent state. -/
theorem offering_quiescent {σ : SigState} (hq : quiescent σ.st = true) : offering σ = false := by
  refine Bool.eq_false_iff.2 fun ho => ?_
  obtain ⟨f, hf⟩ := sigFrame_of_offering ho
  simp [sigFrame_busy hf] at hq

/-- Settles O36: at both levels the quiescent position without a start does nothing, and only a frame or a
`Wait` phase raises an output. -/
theorem quiescentStatesHold : Obligations.QuiescentStatesHold := by
  unfold Obligations.QuiescentStatesHold
  refine ⟨fun s hq hp ⟨hr, hs⟩ => step_quiet hr hq hp hs, fun i σ hq hp hr hs => ?_,
    fun σ hq hp => ⟨offering_quiescent hq, by simp [outputs, hp], by rw [hp]; rfl⟩⟩
  have hl : legalPosition σ.toRegs = true := by
    cases hst : σ.st <;> simp [hst, quiescent] at hq <;> simp [legalPosition, hst, hp]
  rw [cycle_quiescent hr hl hq]
  simp [startCycle, hs]

end Sys2Proof.Machine
end

section
/-! PROOFS. Family 44 (orchestrator): the laws of the sequence. The rows of the transition table position by
position, the one row a step takes, and the order of the states. -/

namespace Sys2Proof.Machine

open Sys2Proof.Config

/-! ### Where a step of a run leads -/

/-- What a step of a run can do to the position and the page index: stay in the state, not at a handshake;
fail, but not at EXIT; end the run; or advance past an acknowledged handshake. -/
inductive BusyMove (s t : State) : Prop where
  | stayed (hp : s.ph ≠ .wait) (hst : t.st = s.st) (hidx : t.idx = s.idx)
  | failed (he : s.st ≠ .exitingBootloader) (hst : t.st = .failed) (hidx : t.idx = s.idx)
  | ended (he : s.st = .exitingBootloader) (hst : t.st = .done) (hidx : t.idx = s.idx)
  | advanced (T : Ms) (ha : awaiting s.toRegs = some T) (hregs : t.toRegs =
      advance (checksumOf s.img s.len.toNat) (latchByte cfg.rspAck .ok s.toRegs))

theorem Sends.ph_ne_wait {r : Regs} (h : Sends r) : r.ph ≠ .wait := by
  rcases h with ⟨-, h⟩ | ⟨-, h⟩ | ⟨-, h⟩ | ⟨-, h⟩ | ⟨-, h⟩ | ⟨-, h⟩ <;> simp [h]

theorem busy_step {s t : State} (hr : s.rst = false) (hb : quiescent s.st = false)
    (hstep : step s = .next t) : BusyMove s t := by
  cases step_inv hstep with
  | reset h => simp [hr] at h
  | quiet _ hq _ _ | start _ hq _ _ => simp [hb] at hq
  | pending _ _ hf _ => exact .stayed (sends_of_frameAt hf).ph_ne_wait rfl rfl
  | wrote _ _ a _ hf _ =>
    have hs := sends_of_frameAt hf
    rcases afterWrite_cases hs a with ⟨-, he, e⟩ | ⟨-, ph, e, -⟩
    · exact .failed he (congrArg Regs.st e :) (congrArg Regs.idx e :)
    · exact .stayed hs.ph_ne_wait (congrArg Regs.st e :) (congrArg Regs.idx e :)
  | slept _ _ hp hd =>
    rcases afterSleep_cases hd with ⟨hs, e⟩ | ⟨hs, e⟩
    · exact .stayed (by simp [hp]) ((congrArg Regs.st e :).trans hs.symm) (congrArg Regs.idx e :)
    · exact .ended hs (congrArg Regs.st e :) (congrArg Regs.idx e :)
  | read _ T ha =>
    rcases afterRead_cases (nextRead s) (checksumOf s.img s.len.toNat) s.toRegs with
      ⟨-, e⟩ | ⟨-, e⟩ | ⟨_, -, -, e⟩ | ⟨-, e⟩
    iterate 3 exact .failed (awaiting_busy ha).2 (congrArg Regs.st e :) (congrArg Regs.idx e :)
    exact .advanced T ha e

/-- Settles O46: by the moves of a run; an acknowledged handshake leads to the next page or the next state. -/
theorem strictlyLinear : Obligations.StrictlyLinear := by
  unfold Obligations.StrictlyLinear
  intro s t h hr hb hstep
  cases busy_step hr hb hstep with
  | stayed _ hst hidx => exact ⟨.inl hst, fun he => by simp [hst, he], .inl hidx⟩
  | failed he hst hidx => exact ⟨.inr (.inl hst), fun he' => absurd he' he, .inl hidx⟩
  | ended he hst hidx => exact ⟨.inr (.inr (by rw [hst, he]; rfl)), fun _ => by simp [hst], .inl hidx⟩
  | advanced T ha hregs =>
    have hne := (awaiting_busy ha).2
    rcases advance_cases (r := latchByte cfg.rspAck .ok s.toRegs) (awaiting_eq_some.1 ha).2.1
      (checksumOf s.img s.len.toNat) with ⟨hs, e⟩ | ⟨hs, e⟩ | ⟨hs, hlt, e⟩ | ⟨hs, -, e⟩ | ⟨hs, e⟩ <;>
      rw [e] at hregs <;> rw [latchByte_st] at hs <;> rw [hregs, hs]
    · exact ⟨.inr (.inr rfl), nofun, .inl rfl⟩
    · exact ⟨.inr (.inr rfl), nofun, .inl (h.beforePages (.inr hs)).symm⟩
    · exact ⟨.inl rfl, nofun, .inr ⟨rfl, rfl, h.next_idx hlt⟩⟩
    · exact ⟨.inr (.inr rfl), nofun, .inl rfl⟩
    · exact ⟨.inr (.inr rfl), nofun, .inl rfl⟩

/-! ### The rows of a position -/

/-- The rows of the table with the given source. -/
def arcsFrom (st : SessionState) (ph : Phase) : List Arc :=
  arcs.filter fun a => decide (a.fromSt = st ∧ a.fromPh = ph)

theorem mem_arcsFrom {a : Arc} {st : SessionState} {ph : Phase} :
    a ∈ arcsFrom st ph ↔ a ∈ arcs ∧ a.fromSt = st ∧ a.fromPh = ph := by simp [arcsFrom]

/-- The rows of an acknowledged handshake (R184, R186, R189, R194). -/
def ackArcs : SessionState → List Arc
  | .enteringBootloader => [⟨.enteringBootloader, .wait, .answered .ok, .erasing, .send, .none⟩]
  | .erasing => [⟨.erasing, .wait, .answered .ok, .writingPages, .send, .none⟩]
  | .writingPages =>
    [⟨.writingPages, .wait, .answeredMorePages, .writingPages, .send, .none⟩,
      ⟨.writingPages, .wait, .answeredLastPage, .verifying, .send, .none⟩]
  | .verifying => [⟨.verifying, .wait, .answered .ok, .exitingBootloader, .send, .none⟩]
  | .idle | .exitingBootloader | .done | .failed => []

theorem arcsFrom_quiescent {st : SessionState} (hq : quiescent st = true) :
    arcsFrom st .send = startArcs st := by
  cases st <;> simp [quiescent] at hq <;> rfl

/-- The rows of a frame that can fail: where an accepted one leads, and the failure. -/
theorem arcsFrom_sends {r : Regs} (hs : Sends r) (he : r.st ≠ .exitingBootloader) :
    ∃ ph, arcsFrom r.st r.ph = writeArcs r.st r.ph ph ∧ afterWrite true r = moveTo r.st ph r := by
  rcases hs with ⟨h1, h2⟩ | ⟨h1, h2⟩ | ⟨h1, h2⟩ | ⟨h1, h2⟩ | ⟨h1, h2⟩ | ⟨h1, h2⟩
  case inr.inr.inr.inr.inr => exact absurd h1 he
  all_goals
    simp only [afterWrite, h1, h2]
    exact ⟨_, rfl, rfl⟩

theorem arcsFrom_exit : arcsFrom .exitingBootloader .send =
    [⟨.exitingBootloader, .send, .written true, .exitingBootloader, .settle, .none⟩,
      ⟨.exitingBootloader, .send, .written false, .exitingBootloader, .settle, .none⟩] := rfl

theorem arcsFrom_wait {st : SessionState} {t : Ms} (hw : waitTimeout st = some t) :
    arcsFrom st .wait = ackArcs st ++ refusedArcs st := by
  cases st <;> simp [waitTimeout] at hw <;> rfl

/-- The result of a handshake, by what the channel answered (R100). -/
def handshakeResult : Option Byte → HsResult
  | none => .timeout
  | some b => classify b

/-- The conditions on a handshake's result exclude each other. -/
theorem holds_answered {h : HsResult} {s : State} :
    (ArcCondition.answered h).holds s ↔ handshakeResult (nextRead s) = h := by
  rcases hn : nextRead s with _ | b
  · cases h <;> simp [ArcCondition.holds, handshakeResult, hn]
  · cases h <;> simp [ArcCondition.holds, handshakeResult, hn]
    case none | timeout => rcases classify_cases b with hc | hc | hc <;> simp [hc]

theorem ackArcs_holds {st : SessionState} {s : State} {a : Arc} (ha : a ∈ ackArcs st)
    (hc : a.condition.holds s) : handshakeResult (nextRead s) = .ok := by
  rw [← holds_answered]
  cases st <;> simp only [ackArcs, List.mem_cons, List.not_mem_nil, or_false] at ha
  case writingPages => rcases ha with rfl | rfl <;> exact hc.1
  all_goals
    subst ha
    exact hc

/-- The cause that a handshake result records (R210). -/
def refusalCause : HsResult → Cause
  | .nack => .nack
  | .timeout => .timeout
  | .malformed => .malformed
  | .none | .ok => .none

/-- The row of a handshake that returned `h`, not `Ok`. -/
def refusedArc (st : SessionState) (h : HsResult) : Arc :=
  ⟨st, .wait, .answered h, .failed, .send, refusalCause h⟩

theorem mem_refusedArcs {st : SessionState} {a : Arc} : a ∈ refusedArcs st ↔
    a = refusedArc st .nack ∨ a = refusedArc st .timeout ∨ a = refusedArc st .malformed := by
  simp [refusedArcs, refusedArc, refusalCause]

/-- A refused row whose condition holds is the row of the handshake's result. -/
theorem refusedArcs_holds {st : SessionState} {s : State} {a : Arc} (ha : a ∈ refusedArcs st)
    (hc : a.condition.holds s) :
    a = refusedArc st (handshakeResult (nextRead s)) ∧ handshakeResult (nextRead s) ≠ .ok := by
  rcases mem_refusedArcs.1 ha with rfl | rfl | rfl <;> rw [holds_answered.1 hc] <;> simp

/-! ### The row a step takes -/

/-- The step takes a row whose condition holds, and no other row of the position has its condition hold. -/
def TakesOneRow (s t : State) : Prop :=
  ∃ a ∈ arcs, a.taken s t ∧
    ∀ b ∈ arcs, b.fromSt = s.st → b.fromPh = s.ph → b.condition.holds s → b = a

/-- It is enough to look at the rows of the position. -/
theorem takesOneRow_of {s t : State} {l : List Arc} (a : Arc) (hl : arcsFrom s.st s.ph = l) (ha : a ∈ l)
    (hc : a.condition.holds s) (hto : a.toSt = t.st ∧ a.toPh = t.ph ∧ a.cause = t.cause)
    (hu : ∀ b ∈ l, b.condition.holds s → b = a) : TakesOneRow s t := by
  subst hl
  obtain ⟨hmem, hst, hph⟩ := mem_arcsFrom.1 ha
  exact ⟨a, hmem, ⟨hst, hph, hc, hto⟩,
    fun b hb hbst hbph => hu b (mem_arcsFrom.2 ⟨hb, hbst, hbph⟩)⟩

theorem takesOneRow_start {s : State} (hq : quiescent s.st = true) (hp : s.ph = .send)
    (hs : s.start = true) : TakesOneRow s (acceptStart s) := by
  have hl : arcsFrom s.st s.ph = startArcs s.st := by rw [hp, arcsFrom_quiescent hq]
  rcases acceptStart_cases s with ⟨h0, e⟩ | ⟨h0, hc, e⟩ | ⟨h0, hc, e⟩ <;> rw [e]
  · exact takesOneRow_of ⟨s.st, .send, .imageEmpty, .failed, .send, .emptyImage⟩ hl (by simp [startArcs])
      ⟨hs, h0⟩ ⟨rfl, rfl, rfl⟩ (by simp [startArcs, ArcCondition.holds, h0])
  · exact takesOneRow_of ⟨s.st, .send, .channelClosed, .failed, .send, .channelClosed⟩ hl
      (by simp [startArcs]) ⟨hs, h0, hc⟩ ⟨rfl, rfl, rfl⟩
      (by simpa [startArcs, ArcCondition.holds, hc] using fun _ => h0)
  · exact takesOneRow_of ⟨s.st, .send, .channelOpen, .enteringBootloader, .send, .none⟩ hl
      (by simp [startArcs]) ⟨hs, h0, hc⟩ ⟨rfl, rfl, rfl⟩
      (by simpa [startArcs, ArcCondition.holds, hc] using fun _ => h0)

/-- In a busy state no failure is recorded (R21, R181). -/
theorem RegInv.cause_busy {r : Regs} (h : RegInv r) (hb : quiescent r.st = false) : r.cause = .none :=
  (h.noRecord fun hf => by simp [hf, quiescent] at hb).1

theorem takesOneRow_wrote {s : State} {bytes : List Byte} {a : Bool} {rest : List Bool}
    (h : RegInv s.toRegs) (hf : frameAt s = some bytes) (hw : s.wrAns = a :: rest) :
    TakesOneRow s (wroteState bytes a rest s) := by
  have hs := sends_of_frameAt hf
  have hcause := h.cause_busy hs.busy
  have hc : (ArcCondition.written a).holds s := by simp [ArcCondition.holds, hw]
  by_cases he : s.st = .exitingBootloader
  · obtain hp : s.ph = .send := by simpa [Sends, he] using hs
    have hregs : afterWrite a s.toRegs = moveTo .exitingBootloader .settle s.toRegs := by
      simp only [afterWrite, he, hp]
    refine takesOneRow_of ⟨.exitingBootloader, .send, .written a, .exitingBootloader, .settle, .none⟩
      (by rw [he, hp, arcsFrom_exit]) ?_ hc ?_ ?_
    · cases a <;> simp
    · simp [wroteState, hregs, hcause]
    · cases a <;> simp [ArcCondition.holds, hw]
  obtain ⟨ph, hl, htrue⟩ := arcsFrom_sends hs he
  cases a with
  | true =>
    exact takesOneRow_of ⟨s.st, s.ph, .written true, s.st, ph, .none⟩ hl (by simp [writeArcs]) hc
      (by simp [wroteState, htrue, hcause]) (by simp [writeArcs, ArcCondition.holds, hw])
  | false =>
    rcases afterWrite_cases hs false with ⟨-, -, hfalse⟩ | ⟨hex, -⟩
    · exact takesOneRow_of ⟨s.st, s.ph, .written false, .failed, .send, .shortWrite⟩ hl
        (by simp [writeArcs]) hc (by simp [wroteState, hfalse])
        (by simp [writeArcs, ArcCondition.holds, hw])
    · simp [he] at hex

theorem takesOneRow_slept {s : State} {ms : Ms} (h : RegInv s.toRegs) (hp : s.ph = .settle)
    (hd : settleDelay s.st = some ms) : TakesOneRow s (sleptState ms s) := by
  have hcause := h.cause_busy (settleDelay_busy hd)
  rcases afterSleep_cases hd with ⟨hs, e⟩ | ⟨hs, e⟩
  · exact takesOneRow_of ⟨.enteringBootloader, .settle, .slept, .enteringBootloader, .wait, .none⟩
      (by rw [hs, hp]; rfl) (List.mem_singleton_self _) trivial (by simp [sleptState, e, hcause])
      (by simp)
  · exact takesOneRow_of ⟨.exitingBootloader, .settle, .slept, .done, .send, .none⟩
      (by rw [hs, hp]; rfl) (List.mem_singleton_self _) trivial (by simp [sleptState, e, hcause])
      (by simp)

/-- A handshake that fails takes the row of its result. -/
theorem takesOneRow_refused {s t : State} {T : Ms} {h : HsResult} (ha : awaiting s.toRegs = some T)
    (hres : handshakeResult (nextRead s) = h) (hrow : refusedArc s.st h ∈ refusedArcs s.st)
    (hto : t.st = .failed ∧ t.ph = .send ∧ t.cause = refusalCause h) : TakesOneRow s t := by
  subst hres
  obtain ⟨hp, hw, -⟩ := awaiting_eq_some.1 ha
  obtain ⟨hst, hph, hcause⟩ := hto
  have hc := holds_answered (s := s).2 rfl
  refine takesOneRow_of _ (by rw [hp, arcsFrom_wait hw]) (List.mem_append_right _ hrow) hc
    ⟨hst.symm, hph.symm, hcause.symm⟩ fun b hb hbc => ?_
  rcases List.mem_append.1 hb with hb | hb
  · exact absurd (ackArcs_holds hb hbc) (refusedArcs_holds hrow hc).2
  · exact (refusedArcs_holds hb hbc).1

/-- A handshake that was acknowledged takes the one row of those of an ACK whose condition holds. -/
theorem takesOneRow_acked {s t : State} {T : Ms} (a : Arc) (ha : awaiting s.toRegs = some T)
    (hmem : a ∈ ackArcs s.st) (hc : a.condition.holds s)
    (hto : a.toSt = t.st ∧ a.toPh = t.ph ∧ a.cause = t.cause)
    (hu : ∀ b ∈ ackArcs s.st, b.condition.holds s → b = a) : TakesOneRow s t := by
  obtain ⟨hp, hw, -⟩ := awaiting_eq_some.1 ha
  refine takesOneRow_of a (by rw [hp, arcsFrom_wait hw]) (List.mem_append_left _ hmem) hc hto
    fun b hb hbc => ?_
  rcases List.mem_append.1 hb with hb | hb
  · exact hu b hb hbc
  · exact absurd (ackArcs_holds hmem hc) (refusedArcs_holds hb hbc).2

theorem takesOneRow_advanced {s t : State} {T : Ms} (h : RegInv s.toRegs)
    (ha : awaiting s.toRegs = some T) (hn : nextRead s = some cfg.rspAck) (sum : Word)
    (ht : t.toRegs = advance sum (latchByte cfg.rspAck .ok s.toRegs)) : TakesOneRow s t := by
  have hcause : t.cause = .none := by
    rw [ht, advance_cause, latchByte_cause, h.cause_busy (awaiting_busy ha).1]
  have hok : (ArcCondition.answered .ok).holds s := holds_answered.2 (by rw [hn]; rfl)
  rcases advance_cases (r := latchByte cfg.rspAck .ok s.toRegs) (awaiting_eq_some.1 ha).2.1 sum with
    ⟨hs, e⟩ | ⟨hs, e⟩ | ⟨hs, hlt, e⟩ | ⟨hs, hge, e⟩ | ⟨hs, e⟩ <;>
    rw [e] at ht <;> rw [latchByte_st] at hs
  · exact takesOneRow_acked ⟨.enteringBootloader, .wait, .answered .ok, .erasing, .send, .none⟩ ha
      (by simp [hs, ackArcs]) hok (by simp [ht, ← hcause]) (by simp [hs, ackArcs])
  · exact takesOneRow_acked ⟨.erasing, .wait, .answered .ok, .writingPages, .send, .none⟩ ha
      (by simp [hs, ackArcs]) hok (by simp [ht, ← hcause]) (by simp [hs, ackArcs])
  · refine takesOneRow_acked ⟨.writingPages, .wait, .answeredMorePages, .writingPages, .send, .none⟩ ha
      (by simp [hs, ackArcs]) ⟨hok, hlt⟩ (by simp [ht, ← hcause]) ?_
    rw [hs, ackArcs, List.forall_mem_cons, List.forall_mem_singleton]
    exact ⟨fun _ => rfl, fun hc => absurd hc.2 (Nat.ne_of_lt hlt)⟩
  · have hlast : s.idx.toNat + 1 = s.npages.toNat :=
      Nat.le_antisymm (h.page_lt hs) (Nat.le_of_not_lt hge)
    refine takesOneRow_acked ⟨.writingPages, .wait, .answeredLastPage, .verifying, .send, .none⟩ ha
      (by simp [hs, ackArcs]) ⟨hok, hlast⟩ (by simp [ht, ← hcause]) ?_
    rw [hs, ackArcs, List.forall_mem_cons, List.forall_mem_singleton]
    exact ⟨fun hc => absurd hlast (Nat.ne_of_lt hc.2), fun _ => rfl⟩
  · exact takesOneRow_acked ⟨.verifying, .wait, .answered .ok, .exitingBootloader, .send, .none⟩ ha
      (by simp [hs, ackArcs]) hok (by simp [ht, ← hcause]) (by simp [hs, ackArcs])

theorem takesOneRow_read {s : State} {T : Ms} (h : RegInv s.toRegs) (ha : awaiting s.toRegs = some T) :
    TakesOneRow s (readState T s) := by
  rcases afterRead_cases (nextRead s) (checksumOf s.img s.len.toNat) s.toRegs with
    ⟨hn, e⟩ | ⟨hn, e⟩ | ⟨b, hn, hb, e⟩ | ⟨hn, e⟩
  · exact takesOneRow_refused ha (h := .timeout) (by rw [hn]; rfl) (mem_refusedArcs.2 (by simp))
      (by simp [readState, e, refusalCause])
  · exact takesOneRow_refused ha (h := .nack) (by rw [hn]; rfl) (mem_refusedArcs.2 (by simp))
      (by simp [readState, e, refusalCause])
  · exact takesOneRow_refused ha (h := .malformed) (by rw [hn]; exact classify_malformed.2 hb)
      (mem_refusedArcs.2 (by simp)) (by simp [readState, e, refusalCause])
  · exact takesOneRow_advanced h ha hn _ e

/-- Settles O45: by what a step can do, each with its row; `idx` and `csum` by where an acknowledged handshake
leads. -/
theorem stepFollowsTheTransitionTable : Obligations.StepFollowsTheTransitionTable := by
  unfold Obligations.StepFollowsTheTransitionTable
  intro s t h hr hstep hne
  refine ⟨?_, ?_⟩
  · cases step_inv hstep with
    | reset h => simp [hr] at h
    | quiet _ _ _ _ | pending _ _ _ _ => exact absurd rfl hne
    | start _ hq hp hs => exact takesOneRow_start hq hp hs
    | wrote _ _ _ _ hf hw => exact takesOneRow_wrote h hf hw
    | slept _ _ hp hd => exact takesOneRow_slept h hp hd
    | read _ _ ha => exact takesOneRow_read h ha
  by_cases hb : quiescent s.st = false
  swap
  · refine ⟨fun hs => ?_, fun hs => ?_, fun hs => ?_⟩ <;> simp [hs, quiescent] at hb
  cases busy_step hr hb hstep with
  | stayed hp hst _ =>
    rw [hst]
    exact ⟨fun h1 h2 => by simp [h1] at h2, fun _ h2 => absurd h2 hp, fun h1 h2 => by simp [h1] at h2⟩
  | failed _ hst _ | ended _ hst _ => simp [hst]
  | advanced T ha hregs =>
    rcases advance_cases (r := latchByte cfg.rspAck .ok s.toRegs) (awaiting_eq_some.1 ha).2.1
      (checksumOf s.img s.len.toNat) with ⟨hs, e⟩ | ⟨hs, e⟩ | ⟨hs, -, e⟩ | ⟨hs, -, e⟩ | ⟨hs, e⟩ <;>
      rw [e] at hregs <;> rw [latchByte_st] at hs <;> simp [hregs, hs]

end Sys2Proof.Machine
end

section
/-! PROOFS. Family 44 (orchestrator): what stands in the trace of a failed run and what does not, and the
counts of a successful one. -/

namespace Sys2Proof.Machine

open Sys2Proof.Config

/-! ### A failed run -/

/-- What stands in a position's trace stands in the verified run's, or is of the pages up to the one being
written. -/
theorem mem_traceAt {m : Memory} {len : Word} {n i : Nat} {st : SessionState} {ph : Phase} {e : Event}
    (h : e ∈ traceAt m len n i st ph) : e ∈ verifiedTrace m len n ∨ e ∈ pagesTrace m len (i + 1) := by
  have herased : e ∈ erasedTrace → e ∈ verifiedTrace m len n := fun h => by simp [verifiedTrace, h]
  unfold traceAt at h
  split at h
  iterate 5 exact .inl (herased (List.mem_of_mem_take h))
  all_goals simp only [verifiedTrace, pagesTrace, List.mem_append, List.mem_cons] at h ⊢; tauto

/-- No position is reached with EXIT sent. -/
theorem exitWrite_notMem_traceAt (m : Memory) (len : Word) (n i : Nat) (st : SessionState) (ph : Phase)
    (a : Bool) : Event.write [0xF0] a ∉ traceAt m len n i st ph := fun h =>
  (mem_traceAt h).elim (exitWrite_notMem_verifiedTrace m len n a)
    (write_single_notMem_pagesTrace m len (i + 1) 0xF0 a)

/-- The frames up to the erase handshake are single opcodes, neither of them a page's. -/
theorem head_ne_opWrite_of_mem_erasedTrace {bytes : List Byte} {a : Bool}
    (h : Event.write bytes a ∈ erasedTrace) : bytes.head? ≠ some 0xD0 := by
  simp only [erasedTrace, acked, List.mem_cons, Event.write.injEq, reduceCtorEq, List.not_mem_nil, or_false,
    false_or] at h
  rcases h with ⟨rfl, -⟩ | ⟨rfl, -⟩ <;> simp

/-- Up to the erase handshake a position is reached with a part of the trace to that handshake. -/
theorem mem_erasedTrace_of_mem_traceAt {m : Memory} {len : Word} {n i : Nat} {st : SessionState} {ph : Phase}
    {e : Event} (hst : st = .idle ∨ st = .enteringBootloader ∨ st = .erasing)
    (h : e ∈ traceAt m len n i st ph) : e ∈ erasedTrace := by
  rcases hst with rfl | rfl | rfl <;> cases ph <;> simp only [traceAt, List.not_mem_nil] at h <;>
    exact List.mem_of_mem_take h

/-- A failed run's writes are those of the failing position's trace, and the failing write, if a write it is
that failed. -/
theorem mem_trace_of_failed {s : State} {bytes : List Byte} {a : Bool} (htr : TraceInv s)
    (hst : s.st = .failed) (h : Event.write bytes a ∈ s.trace) :
    ∃ ph, Event.write bytes a ∈ traceAt s.img s.len s.npages.toNat s.fidx.toNat s.fstate ph ∨
      frameAt { s with st := s.fstate, ph := ph, idx := s.fidx } = some bytes := by
  simp only [TraceInv, hst] at htr
  rcases htr with ⟨-, e⟩ | ⟨-, e⟩ | ⟨ph, ev, e, hev⟩ <;> rw [e] at h
  · simp at h
  · simp at h
  · refine ⟨ph, (List.mem_append.1 h).imp_right fun h => ?_⟩
    obtain rfl := List.mem_singleton.1 h
    exact hev.2.2

/-- EXIT is the frame of its own state alone (R79). -/
theorem frameAt_ne_exit {s : State} (h : s.st ≠ .exitingBootloader) : frameAt s ≠ some [0xF0] := by
  intro hf
  rcases sends_of_frameAt hf with ⟨h1, h2⟩ | ⟨h1, h2⟩ | ⟨h1, h2⟩ | ⟨h1, h2⟩ | ⟨h1, h2⟩ | ⟨h1, h2⟩ <;>
    simp [frameAt, h1, h2, be32] at hf
  case inr.inr.inl => simpa [hf] using procFrame_length s.img s.len s.idx.toNat
  case inr.inr.inr.inr.inr => exact h h1

/-- Up to the erase handshake no position sends a page. -/
theorem head_frameAt_ne_opWrite {s : State} {bytes : List Byte}
    (hst : s.st = .idle ∨ s.st = .enteringBootloader ∨ s.st = .erasing) (hf : frameAt s = some bytes) :
    bytes.head? ≠ some 0xD0 := by
  rcases hst with h | h | h <;> cases hp : s.ph <;> simp [frameAt, h, hp] at hf <;> simp [← hf]

/-- Settles O47: every write of a failed run is one before the failing position or the failing one. -/
theorem nothingSentPastAFailure : Obligations.NothingSentPastAFailure := by
  unfold Obligations.NothingSentPastAFailure
  intro s h htr hst
  refine ⟨fun a hmem => ?_, fun hearly bytes a hmem => ?_⟩ <;>
    obtain ⟨ph, hmem | hf⟩ := mem_trace_of_failed htr hst hmem
  · exact exitWrite_notMem_traceAt _ _ _ _ _ _ _ hmem
  · exact frameAt_ne_exit (h.recordState hst).1 hf
  · exact head_ne_opWrite_of_mem_erasedTrace (mem_erasedTrace_of_mem_traceAt hearly hmem)
  · exact head_frameAt_ne_opWrite hearly hf

/-! ### A successful run -/

/-- Up to the verify handshake: `2n + 9` primitives, the bytes of all frames but EXIT, all intervals but the
last (R198, R270). -/
theorem verifiedTrace_count (m : Memory) (len : Word) (n : Nat) :
    (verifiedTrace m len n).length = 2 * n + 9 ∧ bytesWritten (verifiedTrace m len n) = 133 * n + 7 ∧
      waitingTime (verifiedTrace m len n) = 10100 + 1000 * n := by
  obtain ⟨hlength, hbytes, htime⟩ := pagesTrace_count m len n
  simp only [verifiedTrace, bytesWritten_append, waitingTime_append, List.length_append, hlength, hbytes,
    htime]
  simp [erasedTrace, acked, bytesWritten, waitingTime]
  omega

/-- Settles O49: the counts of the verified run, and of the EXIT write and the sleep after it. -/
theorem successfulRunIsCounted : Obligations.SuccessfulRunIsCounted := by
  unfold Obligations.SuccessfulRunIsCounted
  intro s htr hst
  obtain ⟨a, htrace⟩ := htr.at_done hst
  obtain ⟨hlength, hbytes, htime⟩ := verifiedTrace_count s.img s.len s.npages.toNat
  refine ⟨?_, ⟨_, a, htrace, ?_⟩, ?_⟩ <;> rw [htrace]
  · simp [hlength]
  · cases a <;> simp [bytesWritten_append, hbytes, bytesWritten]
  · simp [waitingTime_append, htime, waitingTime]
    omega

end Sys2Proof.Machine
end

section
/-! PROOFS. Family 44 (orchestrator): what a run still has to do, counted. The write calls, handshakes and
sleeps ahead of a position go down by one with each primitive, so every run ends. -/

namespace Sys2Proof.Machine

open Sys2Proof.Config

/-! ### The primitives ahead -/

/-- How many primitives of each kind a run that does not fail still performs. -/
structure Ahead where
  writes : Nat
  reads : Nat
  sleeps : Nat

def Ahead.total (a : Ahead) : Nat := a.writes + a.reads + a.sleeps

/-- The primitives ahead of a position in R198's procedure. -/
def ahead (r : Regs) : Ahead :=
  match r.st, r.ph with
  | .enteringBootloader, .send => ⟨r.npages.toNat + 5, r.npages.toNat + 3, 2⟩
  | .enteringBootloader, .settle => ⟨r.npages.toNat + 4, r.npages.toNat + 3, 2⟩
  | .enteringBootloader, .wait => ⟨r.npages.toNat + 4, r.npages.toNat + 3, 1⟩
  | .erasing, .send => ⟨r.npages.toNat + 4, r.npages.toNat + 2, 1⟩
  | .erasing, .wait => ⟨r.npages.toNat + 3, r.npages.toNat + 2, 1⟩
  | .writingPages, .send => ⟨r.npages.toNat - r.idx.toNat + 3, r.npages.toNat - r.idx.toNat + 1, 1⟩
  | .writingPages, .wait => ⟨r.npages.toNat - r.idx.toNat + 2, r.npages.toNat - r.idx.toNat + 1, 1⟩
  | .verifying, .send => ⟨3, 1, 1⟩
  | .verifying, .send2 => ⟨2, 1, 1⟩
  | .verifying, .wait => ⟨1, 1, 1⟩
  | .exitingBootloader, .send => ⟨1, 0, 1⟩
  | .exitingBootloader, .settle => ⟨0, 0, 1⟩
  | _, _ => ⟨0, 0, 0⟩

theorem ahead_quiescent {r : Regs} (hq : quiescent r.st = true) : ahead r = ⟨0, 0, 0⟩ := by
  cases hs : r.st <;> simp [hs, quiescent] at hq <;> simp [ahead, hs]

/-- Nowhere is more ahead than at the first position. -/
theorem ahead_le (r : Regs) :
    (ahead r).writes ≤ r.npages.toNat + 5 ∧ (ahead r).total ≤ 2 * r.npages.toNat + 10 := by
  unfold ahead
  split <;> simp only [Ahead.total] <;> omega

/-- A write call that lets the run go on was one of those ahead. -/
theorem ahead_afterWrite {r : Regs} {a : Bool} (hs : Sends r) (ha : a = true ∨ r.st = .exitingBootloader) :
    ahead r = { ahead (afterWrite a r) with writes := (ahead (afterWrite a r)).writes + 1 } := by
  rcases hs with ⟨h1, h2⟩ | ⟨h1, h2⟩ | ⟨h1, h2⟩ | ⟨h1, h2⟩ | ⟨h1, h2⟩ | ⟨h1, h2⟩
  case inr.inr.inr.inr.inr => simp [ahead, afterWrite, h1, h2]
  all_goals
    obtain rfl : a = true := by simpa [h1] using ha
    simp [ahead, afterWrite, h1, h2]

theorem ahead_afterSleep {r : Regs} {ms : Ms} (hp : r.ph = .settle) (hd : settleDelay r.st = some ms) :
    ahead r = { ahead (afterSleep r) with sleeps := (ahead (afterSleep r)).sleeps + 1 } := by
  rcases afterSleep_cases hd with ⟨hs, e⟩ | ⟨hs, e⟩ <;> simp [ahead, hs, hp, e]

theorem ahead_advance {r : Regs} {t : Ms} (h : RegInv r) (ha : awaiting r = some t) (sum : Word) :
    ahead r = { ahead (advance sum (latchByte cfg.rspAck .ok r)) with
      reads := (ahead (advance sum (latchByte cfg.rspAck .ok r))).reads + 1 } := by
  obtain ⟨hp, hw, -⟩ := awaiting_eq_some.1 ha
  rcases advance_cases (r := latchByte cfg.rspAck .ok r) hw sum with
    ⟨hs, e⟩ | ⟨hs, e⟩ | ⟨hs, hlt, e⟩ | ⟨hs, hge, e⟩ | ⟨hs, e⟩ <;> rw [e] <;> rw [latchByte_st] at hs
  · simp [ahead, hs, hp]
  · simp [ahead, hs, hp]
  · have hidx : (r.idx + 1).toNat = r.idx.toNat + 1 := h.next_idx hlt
    have hlt : r.idx.toNat < r.npages.toNat := h.page_lt hs
    simp [ahead, hs, hp]
    omega
  · have hlt : r.idx.toNat < r.npages.toNat := h.page_lt hs
    have hge : ¬ r.idx.toNat + 1 < r.npages.toNat := hge
    simp [ahead, hs, hp]
    omega
  · simp [ahead, hs, hp]

/-! ### Every step of a run -/

/-- A step that uses up primitives ahead, and no more answers of write calls than were ahead. -/
def Spends (s t : State) : Prop :=
  (ahead t.toRegs).total < (ahead s.toRegs).total ∧
    (ahead t.toRegs).writes + s.wrAns.length ≤ (ahead s.toRegs).writes + t.wrAns.length

/-- A step of a run waits for a write call to return, or spends. -/
theorem RegInv.pending_or_spends {s t : State} (h : RegInv s.toRegs) (hr : s.rst = false)
    (hb : quiescent s.st = false) (hstep : step s = .next t) :
    (∃ bytes, frameAt s = some bytes ∧ s.wrAns = [] ∧ t = s) ∨ Spends s t := by
  cases step_inv hstep with
  | reset h => simp [hr] at h
  | quiet _ hq _ _ | start _ hq _ _ => simp [hb] at hq
  | pending _ bytes hf hw => exact .inl ⟨bytes, hf, hw, rfl⟩
  | wrote _ bytes a rest hf hw =>
    right
    have hs := sends_of_frameAt hf
    simp only [Spends, wroteState, hw, List.length_cons]
    rcases afterWrite_cases hs a with ⟨-, -, e⟩ | ⟨ha, -⟩
    · rw [e, ahead_quiescent rfl, ahead_afterWrite (a := true) hs (.inl rfl)]
      simp only [Ahead.total]
      omega
    · rw [ahead_afterWrite hs ha]
      simp only [Ahead.total]
      omega
  | slept _ ms hp hd =>
    right
    simp only [Spends, sleptState]
    rw [ahead_afterSleep hp hd]
    simp only [Ahead.total]
    omega
  | read _ T ha =>
    right
    have hacked := ahead_advance h ha (checksumOf s.img s.len.toNat)
    simp only [Spends, readState]
    rcases afterRead_cases (nextRead s) (checksumOf s.img s.len.toNat) s.toRegs with
      ⟨-, e⟩ | ⟨-, e⟩ | ⟨_, -, -, e⟩ | ⟨-, e⟩ <;> rw [e, hacked]
    case inr.inr.inr =>
      simp only [Ahead.total]
      omega
    all_goals
      rw [ahead_quiescent rfl]
      simp only [Ahead.total]
      omega

/-- A step keeps that neither a reset nor a start is asserted. -/
theorem undisturbed_step {s t : State} (hu : undisturbed s) (hstep : step s = .next t) : undisturbed t := by
  obtain ⟨-, -, hrst, hstart, -⟩ := step_env hstep
  exact ⟨hrst.trans hu.1, hstart.trans hu.2⟩

/-- No step of a run leads to `Idle`. -/
theorem busy_step_ne_idle {s t : State} (h : RegInv s.toRegs) (hr : s.rst = false)
    (hb : quiescent s.st = false) (hstep : step s = .next t) : t.st ≠ .idle := by
  intro hi
  obtain ⟨hst | hst | hst, -⟩ := strictlyLinear s t h hr hb hstep
  · simp [← hst, hi, quiescent] at hb
  · simp [hi] at hst
  · simp [hi, SessionState.code] at hst

/-- A run with answers to all write calls ahead is not kept waiting. -/
theorem RegInv.spends {s t : State} (h : RegInv s.toRegs) (hr : s.rst = false)
    (hb : quiescent s.st = false) (hw : (ahead s.toRegs).writes ≤ s.wrAns.length)
    (hstep : step s = .next t) : Spends s t := by
  rcases h.pending_or_spends hr hb hstep with ⟨bytes, hf, hnil, -⟩ | hsp
  · rw [hnil, ahead_afterWrite (a := true) (sends_of_frameAt hf) (.inl rfl)] at hw
    simp at hw
  · exact hsp

/-- With answers to all write calls ahead a run ends within the primitives ahead. -/
theorem run_ends {s : State} (h : RegInv s.toRegs) (hu : undisturbed s) (hi : s.st ≠ .idle)
    (hw : (ahead s.toRegs).writes ≤ s.wrAns.length) :
    ∃ j t, j ≤ (ahead s.toRegs).total ∧ run j s = .next t ∧ (t.st = .done ∨ t.st = .failed) := by
  induction hn : (ahead s.toRegs).total using Nat.strong_induction_on generalizing s with
  | _ n ih =>
  subst hn
  cases hb : quiescent s.st with
  | true =>
    refine ⟨0, s, Nat.zero_le _, rfl, ?_⟩
    cases hs : s.st <;> simp [hs, quiescent] at hb hi ⊢
  | false =>
    obtain ⟨u, hstep⟩ := h.step_goes_on
    obtain ⟨hlt, hwrites⟩ := h.spends hu.1 hb hw hstep
    obtain ⟨j, t, hj, hrun, ht⟩ := ih _ hlt (h.stepped hstep) (undisturbed_step hu hstep)
      (busy_step_ne_idle h hu.1 hb hstep) (by omega) rfl
    exact ⟨j + 1, t, by omega, by rw [run_next hstep, hrun], ht⟩

/-- Settles O51: at most `2n + 10` primitives, `n + 5` of them write calls, are ahead of any position. -/
theorem everyRunEnds : Obligations.EveryRunEnds := by
  unfold Obligations.EveryRunEnds
  intro s h hu hb hw
  obtain ⟨hwrites, htotal⟩ := ahead_le s.toRegs
  obtain ⟨j, t, hj, hrun, ht⟩ :=
    run_ends h hu (fun hi => by simp [hi, quiescent] at hb) (hwrites.trans hw)
  exact ⟨j, t, hj.trans htotal, hrun, ht⟩

end Sys2Proof.Machine
end

section
/-! PROOFS. Family 44 (orchestrator): the run of the machine is R198's procedure. What the procedure still
does from a position is a function of the registers; every step performs its next primitive. -/

namespace Sys2Proof.Machine

open Sys2Proof.Config

/-! ### The rest of the procedure -/

/-- R198's procedure from the erase handshake on, for `n` pages. -/
def procErased (m : Memory) (len : Word) (n : Nat) (wr : List Bool) (rd : List (Option Byte)) : Report :=
  doAwait cfg.tErase rd fun rd => procPages m len n 0 wr rd (procVerify m len)

/-- From ERASE on. -/
def procErase (m : Memory) (len : Word) (n : Nat) (wr : List Bool) (rd : List (Option Byte)) : Report :=
  doWrite [cfg.opErase] wr fun wr => procErased m len n wr rd

/-- From the handshake of ENTER on. -/
def procEntered (m : Memory) (len : Word) (n : Nat) (wr : List Bool) (rd : List (Option Byte)) : Report :=
  doAwait cfg.tEnter rd fun rd => procErase m len n wr rd

/-- What the procedure still does from a position, by the image and the answers to come. In a quiescent state
it has ended, with the verdict the state shows. -/
def remaining (r : Regs) (m : Memory) (wr : List Bool) (rd : List (Option Byte)) : Report :=
  let n := r.npages.toNat
  let i := r.idx.toNat
  match r.st, r.ph with
  | .enteringBootloader, .send =>
    doWrite [cfg.opEnter] wr fun wr => (procEntered m r.len n wr rd).after (.sleep cfg.dEnter)
  | .enteringBootloader, .settle => (procEntered m r.len n wr rd).after (.sleep cfg.dEnter)
  | .enteringBootloader, .wait => procEntered m r.len n wr rd
  | .erasing, .send => procErase m r.len n wr rd
  | .erasing, .wait => procErased m r.len n wr rd
  | .writingPages, .send => procPages m r.len (n - i) i wr rd (procVerify m r.len)
  | .writingPages, .wait =>
    doAwait cfg.tWrite rd fun rd => procPages m r.len (n - (i + 1)) (i + 1) wr rd (procVerify m r.len)
  | .verifying, .send => procVerify m r.len wr rd
  | .verifying, .send2 =>
    doWrite (be32 (checksumOf m r.len.toNat)) wr fun wr => doAwait cfg.tVerify rd fun _ => procExit wr
  | .verifying, .wait => doAwait cfg.tVerify rd fun _ => procExit wr
  | .exitingBootloader, .send => procExit wr
  | .exitingBootloader, .settle => ⟨[.sleep cfg.dExit], some .done⟩
  | _, _ => ⟨[], verdict r⟩

theorem remaining_quiescent {r : Regs} (hq : quiescent r.st = true) (m : Memory) (wr : List Bool)
    (rd : List (Option Byte)) : remaining r m wr rd = ⟨[], verdict r⟩ := by
  cases hs : r.st <;> simp [hs, quiescent] at hq <;> simp [remaining, hs]

/-- A busy state shows no verdict. -/
theorem verdict_busy {r : Regs} (hb : quiescent r.st = false) : verdict r = none := by
  cases hs : r.st <;> simp [hs, quiescent] at hb <;> simp [verdict, hs]

/-- One page of the pages to write. -/
theorem procPages_of_lt {m : Memory} {len : Word} {n i : Nat} (h : i < n) (wr : List Bool)
    (rd : List (Option Byte)) (rest : List Bool → List (Option Byte) → Report) :
    procPages m len (n - i) i wr rd rest = doWrite (procFrame m len i) wr fun wr =>
      doAwait cfg.tWrite rd fun rd => procPages m len (n - (i + 1)) (i + 1) wr rd rest := by
  rw [show n - i = n - (i + 1) + 1 by omega, procPages]

/-! ### The next primitive -/

/-- At a sending position but EXIT's the procedure sends the position's frame, and goes on from the next
phase. -/
theorem remaining_sends {s : State} {bytes : List Byte} (h : RegInv s.toRegs) (hsum : SumInv s)
    (hf : frameAt s = some bytes) (he : s.st ≠ .exitingBootloader) (wr : List Bool)
    (rd : List (Option Byte)) :
    remaining s.toRegs s.img wr rd =
      doWrite bytes wr fun wr => remaining (afterWrite true s.toRegs) s.img wr rd := by
  have hcsum : s.st = .verifying → s.csum = checksumOf s.img s.len.toNat :=
    fun hv => hsum.verified (.inl hv)
  rcases sends_of_frameAt hf with ⟨h1, h2⟩ | ⟨h1, h2⟩ | ⟨h1, h2⟩ | ⟨h1, h2⟩ | ⟨h1, h2⟩ | ⟨h1, h2⟩ <;>
    simp only [frameAt, h1, h2, Option.some.injEq] at hf <;> subst hf <;>
    simp only [remaining, afterWrite, h1, h2]
  case inr.inr.inl => exact procPages_of_lt (h.page_lt h1) ..
  case inr.inr.inr.inr.inl =>
    rw [hcsum h1]
    rfl
  case inr.inr.inr.inr.inr => exact absurd h1 he
  all_goals rfl

/-- A write call that returned was the next primitive of the procedure, whatever it answered. -/
theorem remaining_wrote {s : State} {bytes : List Byte} (h : RegInv s.toRegs) (hsum : SumInv s)
    (hf : frameAt s = some bytes) (a : Bool) (rest : List Bool) (rd : List (Option Byte)) :
    remaining s.toRegs s.img (a :: rest) rd =
      (remaining (afterWrite a s.toRegs) s.img rest rd).after (.write bytes a) := by
  by_cases he : s.st = .exitingBootloader
  · have hp : s.ph = .send := by simpa [Sends, he] using sends_of_frameAt hf
    simp only [frameAt, he, hp, Option.some.injEq] at hf
    subst hf
    simp only [remaining, afterWrite, he, hp]
    rfl
  rw [remaining_sends h hsum hf he]
  cases a with
  | true => rfl
  | false =>
    rcases afterWrite_cases (sends_of_frameAt hf) false with ⟨-, -, e⟩ | ⟨hex, -⟩
    · rw [e, remaining_quiescent rfl]
      rfl
    · simp [he] at hex

/-- A write call that has not returned leaves the procedure there, with no verdict (R262). -/
theorem remaining_pending {s : State} {bytes : List Byte} (h : RegInv s.toRegs) (hsum : SumInv s)
    (hf : frameAt s = some bytes) (rd : List (Option Byte)) :
    remaining s.toRegs s.img [] rd = ⟨[], none⟩ := by
  by_cases he : s.st = .exitingBootloader
  · have hp : s.ph = .send := by simpa [Sends, he] using sends_of_frameAt hf
    simp only [remaining, he, hp]
    rfl
  · rw [remaining_sends h hsum hf he]
    rfl

theorem remaining_slept {r : Regs} {ms : Ms} (hp : r.ph = .settle) (hd : settleDelay r.st = some ms)
    (m : Memory) (wr : List Bool) (rd : List (Option Byte)) :
    remaining r m wr rd = (remaining (afterSleep r) m wr rd).after (.sleep ms) := by
  obtain ⟨-, rfl⟩ := settleDelay_some hd
  rcases afterSleep_cases hd with ⟨hs, e⟩ | ⟨hs, e⟩ <;> rw [e] <;> simp only [remaining, hs, hp] <;> rfl

/-- At a handshake the procedure awaits an ACK, and goes on from where an ACK leads. -/
theorem remaining_awaiting {r : Regs} {t : Ms} (h : RegInv r) (ha : awaiting r = some t) (sum : Word)
    (m : Memory) (wr : List Bool) (rd : List (Option Byte)) :
    remaining r m wr rd = doAwait t rd fun rd =>
      remaining (advance sum (latchByte cfg.rspAck .ok r)) m wr rd := by
  obtain ⟨hp, hw, -⟩ := awaiting_eq_some.1 ha
  rcases advance_cases (r := latchByte cfg.rspAck .ok r) hw sum with
    ⟨hs, e⟩ | ⟨hs, e⟩ | ⟨hs, hlt, e⟩ | ⟨hs, hge, e⟩ | ⟨hs, e⟩ <;> rw [e] <;> rw [latchByte_st] at hs <;>
    simp only [hs, waitTimeout, Option.some.injEq] at hw <;> subst hw <;> simp only [remaining, hs, hp]
  · rfl
  · rfl
  · have hidx : (r.idx + 1).toNat = r.idx.toNat + 1 := h.next_idx hlt
    simp only [moveTo_st, moveTo_ph, moveTo_idx, latchByte_idx, hidx]
    rfl
  · have hlast : r.npages.toNat - (r.idx.toNat + 1) = 0 := Nat.sub_eq_zero_of_le (Nat.le_of_not_lt hge)
    rw [hlast]
    rfl
  · rfl

section

variable {t : Ms} {rd : List (Option Byte)} {rest : List (Option Byte) → Report}

theorem doAwait_timeout (h : rd.headD none = none) :
    doAwait t rd rest = ⟨[.read t none], some (.failed .timeout)⟩ := by rw [doAwait, h]

theorem doAwait_ack (h : rd.headD none = some cfg.rspAck) :
    doAwait t rd rest = (rest rd.tail).after (.read t (some cfg.rspAck)) := by
  rw [doAwait, h]
  exact if_pos rfl

theorem doAwait_nack (h : rd.headD none = some cfg.rspNack) :
    doAwait t rd rest = ⟨[.read t (some cfg.rspNack)], some (.failed .nack)⟩ := by
  rw [doAwait, h]
  rfl

theorem doAwait_foreign {b : Byte} (h : rd.headD none = some b) (hb : isForeign b = true) :
    doAwait t rd rest = ⟨[.read t (some b)], some (.failed .malformed)⟩ := by
  obtain ⟨hack, hnack⟩ := isForeign_iff.1 hb
  rw [doAwait, h]
  exact (if_neg hack).trans (if_neg hnack)

end

/-- A handshake that ended was the next primitive of the procedure, whatever the channel answered. -/
theorem remaining_read {s : State} {t : Ms} (h : RegInv s.toRegs) (ha : awaiting s.toRegs = some t)
    (sum : Word) (m : Memory) (wr : List Bool) :
    remaining s.toRegs m wr s.rdAns =
      (remaining (afterRead (nextRead s) sum s.toRegs) m wr s.rdAns.tail).after (.read t (nextRead s)) := by
  rw [remaining_awaiting h ha sum]
  rcases afterRead_cases (nextRead s) sum s.toRegs with ⟨hn, e⟩ | ⟨hn, e⟩ | ⟨b, hn, hb, e⟩ | ⟨hn, e⟩ <;>
    rw [e, hn]
  · rw [doAwait_timeout hn, remaining_quiescent rfl]
    rfl
  · rw [doAwait_nack hn, remaining_quiescent rfl]
    rfl
  · rw [doAwait_foreign hn hb, remaining_quiescent rfl]
    rfl
  · exact doAwait_ack hn

/-! ### Every step performs it -/

/-- The whole report of a run: what was performed, and what the procedure still does. -/
def report (s : State) : Report :=
  { remaining s.toRegs s.img s.wrAns s.rdAns with
    trace := s.trace ++ (remaining s.toRegs s.img s.wrAns s.rdAns).trace }

theorem report_of_after {s t : State} {e : Event} (htrace : t.trace = s.trace ++ [e])
    (h : remaining s.toRegs s.img s.wrAns s.rdAns =
      (remaining t.toRegs t.img t.wrAns t.rdAns).after e) : report t = report s := by
  simp [report, htrace, h, Report.after]

/-- The simulation: a step of a run keeps the whole report. -/
theorem report_stepped {s t : State} (h : RegInv s.toRegs) (hsum : SumInv s) (hr : s.rst = false)
    (hb : quiescent s.st = false) (hstep : step s = .next t) : report t = report s := by
  cases step_inv hstep with
  | reset h => simp [hr] at h
  | quiet _ hq _ _ | start _ hq _ _ => simp [hb] at hq
  | pending _ _ _ _ => rfl
  | wrote _ bytes a rest hf hw =>
    exact report_of_after rfl (by rw [hw]; exact remaining_wrote h hsum hf a rest s.rdAns)
  | slept _ ms hp hd => exact report_of_after rfl (remaining_slept hp hd ..)
  | read _ T ha => exact report_of_after rfl (remaining_read h ha ..)

/-- Where nothing remains, because the run has ended or is kept waiting, the state shows the whole report. -/
theorem report_of_nothing_remaining {s : State}
    (h : remaining s.toRegs s.img s.wrAns s.rdAns = ⟨[], verdict s.toRegs⟩) :
    report s = ⟨s.trace, verdict s.toRegs⟩ := by
  rw [report, h, List.append_nil]

theorem RegInv.ph_quiescent {r : Regs} (h : RegInv r) (hq : quiescent r.st = true) : r.ph = .send := by
  have := h.position
  cases hs : r.st <;> simp [hs, quiescent] at hq <;> cases hp : r.ph <;>
    simp [legalPosition, hs, hp] at this ⊢

/-- After as many steps as primitives are ahead, the machine shows the report it had from the beginning. -/
theorem run_shows_report {k : Nat} {s : State} (h : RegInv s.toRegs) (hsum : SumInv s) (hu : undisturbed s)
    (hk : (ahead s.toRegs).total ≤ k) :
    ∃ t, run k s = .next t ∧ report s = ⟨t.trace, verdict t.toRegs⟩ := by
  induction hn : (ahead s.toRegs).total using Nat.strong_induction_on generalizing s k with
  | _ n ih =>
  subst hn
  cases hb : quiescent s.st with
  | true =>
    exact ⟨s, run_fixed (step_quiet hu.1 hb (h.ph_quiescent hb) hu.2) k,
      report_of_nothing_remaining (remaining_quiescent hb ..)⟩
  | false =>
    obtain ⟨u, hstep⟩ := h.step_goes_on
    rcases h.pending_or_spends hu.1 hb hstep with ⟨bytes, hf, hw, rfl⟩ | ⟨hlt, -⟩
    · refine ⟨_, run_fixed hstep k, report_of_nothing_remaining ?_⟩
      rw [hw, remaining_pending h hsum hf, verdict_busy hb]
    · obtain ⟨k, rfl⟩ : ∃ j, k = j + 1 := ⟨k - 1, by omega⟩
      rw [run_next hstep, ← report_stepped h hsum hu.1 hb hstep]
      exact ih _ hlt (h.stepped hstep) (hsum.stepped h hstep) (undisturbed_step hu hstep) (by omega) rfl

/-! ### From an accepted start -/

/-- The state after an accepted start, the input `start` released. -/
def started (s : State) : State := { acceptStart s with start := false }

theorem regInv_started (s : State) : RegInv (started s).toRegs := regInv_acceptStart s

theorem sumInv_started (s : State) : SumInv (started s) :=
  ⟨(sumInv_acceptStart s).verified, (sumInv_acceptStart s).failed⟩

theorem started_npages (s : State) : (started s).npages = pageCount s.imgLen := by
  simp only [started]
  rcases acceptStart_cases s with ⟨-, e⟩ | ⟨-, -, e⟩ | ⟨-, -, e⟩ <;> rw [e] <;> rfl

theorem undisturbed_started {s : State} (hr : s.rst = false) : undisturbed (started s) := by
  refine ⟨?_, rfl⟩
  simp only [started]
  rcases acceptStart_cases s with ⟨-, e⟩ | ⟨-, -, e⟩ | ⟨-, -, e⟩ <;> rw [e] <;> exact hr

/-- After an accepted start the whole report is the procedure's. -/
theorem report_started (s : State) :
    report (started s) = uploadFirmware s.img s.imgLen s.chOpen s.wrAns s.rdAns := by
  rw [uploadFirmware, started]
  rcases acceptStart_cases s with ⟨h0, e⟩ | ⟨h0, hc, e⟩ | ⟨h0, hc, e⟩ <;> rw [e]
  · rw [if_pos h0]
    rfl
  · rw [if_neg h0, if_pos hc]
    rfl
  · rw [if_neg h0, if_neg (by simp [hc]), procBody, cfg_pageSize, ← pageCount_toNat]
    rfl

/-- Settles O50: the start leads to the procedure's report, and the run keeps it and then shows it. -/
theorem runIsTheProcedure : Obligations.RunIsTheProcedure := by
  unfold Obligations.RunIsTheProcedure
  intro s u k hq hp hr hup hk
  rw [exec, execUpload_quiescent hq hp] at hup
  cases hup
  have hk : (ahead (started s).toRegs).total ≤ k :=
    ((ahead_le _).2.trans_eq (by rw [started_npages])).trans hk
  obtain ⟨t, hrun, hreport⟩ :=
    run_shows_report (regInv_started s) (sumInv_started s) (undisturbed_started hr) hk
  rw [← report_started, hreport]
  exact ⟨t, hrun, rfl, rfl⟩

end Sys2Proof.Machine
end

section
/-! PROOFS. Family 44 (orchestrator): a run over a good channel. With every write accepted and every response
ACK each step uses up exactly one primitive ahead, and the run ends in `Done`. -/

namespace Sys2Proof.Machine

open Sys2Proof.Config

/-- A run of the image `m` of `len` bytes with a good channel: the answers at hand are an acceptance for each
write call ahead and an ACK for each handshake ahead, and every write so far was accepted. -/
structure GoodRun (m : Memory) (len : Word) (s : State) : Prop where
  regs : RegInv s.toRegs
  sum : SumInv s
  traceInv : TraceInv s
  undisturbed : undisturbed s
  image : s.img = m ∧ s.len = len
  nonempty : len ≠ 0
  noFailure : s.cause = .none
  writes : s.wrAns = List.replicate (ahead s.toRegs).writes true
  reads : s.rdAns = List.replicate (ahead s.toRegs).reads (some cfg.rspAck)
  accepted : ∀ bytes a, Event.write bytes a ∈ s.trace → a = true

/-- A good run is under way or succeeded: only a failure records a cause, and only a reset machine, without an
image, is `Idle`. -/
theorem GoodRun.busy_or_done {m : Memory} {len : Word} {s : State} (g : GoodRun m len s) :
    quiescent s.st = false ∨ s.st = .done := by
  cases hs : s.st
  case idle => exact absurd (g.image.2.symm.trans (by rw [g.regs.idleIsReset hs]; rfl)) g.nonempty
  case failed => exact absurd g.noFailure (g.regs.record hs).1
  case done => exact .inr rfl
  all_goals exact .inl rfl

/-- A step that performs the next primitive with a good answer keeps the run good. -/
theorem GoodRun.of_step {m : Memory} {len : Word} {s t : State} {e : Event} (g : GoodRun m len s)
    (hstep : step s = .next t) (hlen : t.len = s.len) (hcause : t.cause = s.cause)
    (hw : t.wrAns = List.replicate (ahead t.toRegs).writes true)
    (hrd : t.rdAns = List.replicate (ahead t.toRegs).reads (some cfg.rspAck))
    (htrace : t.trace = s.trace ++ [e]) (he : ∀ bytes a, e = .write bytes a → a = true) :
    GoodRun m len t where
  regs := g.regs.stepped hstep
  sum := g.sum.stepped g.regs hstep
  traceInv := g.traceInv.stepped g.regs g.sum hstep
  undisturbed := undisturbed_step g.undisturbed hstep
  image := ⟨(step_env hstep).1.trans g.image.1, hlen.trans g.image.2⟩
  nonempty := g.nonempty
  noFailure := hcause.trans g.noFailure
  writes := hw
  reads := hrd
  accepted bytes a hmem := by
    rw [htrace] at hmem
    rcases List.mem_append.1 hmem with hmem | hmem
    · exact g.accepted bytes a hmem
    · exact he bytes a (List.mem_singleton.1 hmem).symm

/-- The next step keeps the run good and uses up one primitive ahead. -/
def GoesOn (m : Memory) (len : Word) (s : State) : Prop :=
  ∃ t, step s = .next t ∧ GoodRun m len t ∧ (ahead s.toRegs).total = (ahead t.toRegs).total + 1

theorem afterWrite_true_cause {r : Regs} (hs : Sends r) : (afterWrite true r).cause = r.cause := by
  rcases afterWrite_cases hs true with ⟨hf, -⟩ | ⟨-, ph, e, -⟩
  · cases hf
  · rw [e, moveTo_cause]

section

variable {m : Memory} {len : Word} {s : State} (g : GoodRun m len s)

include g

theorem GoodRun.wrote (hs : Sends s.toRegs) : GoesOn m len s := by
  obtain ⟨bytes, hf⟩ := hs.exists_frame
  have hahead := ahead_afterWrite (a := true) hs (.inl rfl)
  have hwr := g.writes
  rw [hahead, List.replicate_succ] at hwr
  have hstep := step_write g.undisturbed.1 hf g.regs.pages g.regs.page_lt hwr
  refine ⟨_, hstep, g.of_step hstep (afterWrite_len hs true) (afterWrite_true_cause hs) rfl ?_ rfl
    (by simp), ?_⟩
  · exact g.reads.trans (by rw [hahead]; rfl)
  · rw [hahead]
    simp only [Ahead.total, wroteState]
    omega

theorem GoodRun.slept {ms : Ms} (hp : s.ph = .settle) (hd : settleDelay s.st = some ms) :
    GoesOn m len s := by
  have hahead := ahead_afterSleep hp hd
  have hstep := step_sleep g.undisturbed.1 hp hd
  refine ⟨_, hstep, g.of_step hstep (afterSleep_len _) (afterSleep_cause _) ?_ ?_ rfl (by simp), ?_⟩
  · exact g.writes.trans (by rw [hahead]; rfl)
  · exact g.reads.trans (by rw [hahead]; rfl)
  · rw [hahead]
    simp only [Ahead.total, sleptState]
    omega

theorem GoodRun.acknowledged {t : Ms} (ha : awaiting s.toRegs = some t) : GoesOn m len s := by
  have hahead := ahead_advance g.regs ha (checksumOf s.img s.len.toNat)
  have hrd := g.reads
  rw [hahead, List.replicate_succ] at hrd
  have hregs : (readState t s).toRegs =
      advance (checksumOf s.img s.len.toNat) (latchByte cfg.rspAck .ok s.toRegs) := by
    simp only [readState, nextRead_cons hrd]
    rfl
  have hstep := step_read g.undisturbed.1 ha
  refine ⟨_, hstep, g.of_step hstep (afterRead_len ..) ?_ ?_ ?_ rfl (by simp), ?_⟩
  · rw [hregs, advance_cause, latchByte_cause]
  · rw [hregs]
    exact g.writes.trans (by rw [hahead])
  · rw [hregs, readState, hrd, List.tail_cons]
  · rw [hregs, hahead]
    simp only [Ahead.total]
    omega

/-- A good run that is under way goes on, at each kind of position. -/
theorem GoodRun.goes_on (hb : quiescent s.st = false) : GoesOn m len s := by
  rcases legalPosition_cases g.regs.position with ⟨hq, -⟩ | hs | ⟨hp, ms, hd⟩ | ⟨t, ha⟩
  · simp [hb] at hq
  · exact g.wrote hs
  · exact g.slept hp hd
  · exact g.acknowledged ha

end

/-- A good run takes exactly as many steps as primitives are ahead, and ends in `Done`. -/
theorem GoodRun.run {m : Memory} {len : Word} {k : Nat} {s : State} (g : GoodRun m len s)
    (hk : (ahead s.toRegs).total = k) :
    ∃ t, Machine.run k s = .next t ∧ GoodRun m len t ∧ t.st = .done := by
  induction k generalizing s with
  | zero =>
    refine ⟨s, rfl, g, g.busy_or_done.resolve_left fun hb => ?_⟩
    obtain ⟨t, -, -, htotal⟩ := g.goes_on hb
    omega
  | succ k ih =>
    rcases g.busy_or_done with hb | hd
    · obtain ⟨t, hstep, gt, htotal⟩ := g.goes_on hb
      rw [run_next hstep]
      exact ih gt (by omega)
    · rw [ahead_quiescent (by rw [hd]; rfl)] at hk
      cases hk

/-- A good run that ended has used up the answers, and its trace is R198's with EXIT accepted. -/
theorem GoodRun.at_done {m : Memory} {len : Word} {s : State} (g : GoodRun m len s) (hd : s.st = .done) :
    s.wrAns = [] ∧ s.rdAns = [] ∧ s.trace = doneTrace m len (pageCount len).toNat true := by
  have hahead : ahead s.toRegs = ⟨0, 0, 0⟩ := ahead_quiescent (by rw [hd]; rfl)
  obtain ⟨rfl, rfl⟩ := g.image
  obtain ⟨a, htrace⟩ := g.traceInv.at_done hd
  obtain rfl : a = true := g.accepted [0xF0] a (by rw [htrace]; simp)
  refine ⟨by rw [g.writes, hahead]; rfl, by rw [g.reads, hahead]; rfl, ?_⟩
  rw [htrace, g.regs.pages]
  rfl

/-- An accepted start of a non-empty image, with the channel open and good answers to all that is ahead,
begins a good run. -/
theorem goodRun_started {s : State} (h0 : s.imgLen ≠ 0) (hc : s.chOpen = true) (hr : s.rst = false)
    (hw : s.wrAns = List.replicate ((pageCount s.imgLen).toNat + 5) true)
    (hrd : s.rdAns = List.replicate ((pageCount s.imgLen).toNat + 3) (some 0x79)) :
    GoodRun s.img s.imgLen (started s) ∧
      (ahead (started s).toRegs).total = 2 * (pageCount s.imgLen).toNat + 10 := by
  have hregs := regInv_started s
  have hsum := sumInv_started s
  rw [started] at hregs hsum ⊢
  rcases acceptStart_cases s with ⟨h, -⟩ | ⟨-, h, -⟩ | ⟨-, -, e⟩
  · exact absurd h h0
  · simp [hc] at h
  rw [e] at hregs hsum ⊢
  refine ⟨⟨hregs, hsum, rfl, ⟨hr, rfl⟩, ⟨rfl, rfl⟩, h0, rfl, hw, hrd, by simp⟩, ?_⟩
  simp only [Ahead.total, ahead, moveTo_st, moveTo_ph, moveTo_npages, latchStart_npages]
  omega

/-- Settles O52: an accepted start begins a good run with `2n + 10` primitives ahead. -/
theorem goodChannelSucceeds : Obligations.GoodChannelSucceeds := by
  unfold Obligations.GoodChannelSucceeds
  intro s u hq hp hr h0 hc hup hw hrd
  rw [exec, execUpload_quiescent hq hp] at hup
  cases hup
  obtain ⟨g, htotal⟩ := goodRun_started h0 hc hr hw hrd
  obtain ⟨t, hrun, gt, hd⟩ := g.run htotal
  obtain ⟨hwr, hrd, htrace⟩ := gt.at_done hd
  exact ⟨t, hrun, hd, hwr, hrd, htrace⟩

end Sys2Proof.Machine
end

section
/-! PROOFS. Family 60 (exceptions): a write call that answered `false`. -/

namespace Sys2Proof.Machine

/-- Of the sending positions EXIT's alone discards a `false` (R124); every other one raises `ShortWrite`. -/
theorem afterWrite_false {r : Regs} (h : Sends r) (he : r.st ≠ .exitingBootloader) :
    afterWrite false r = raiseFail .shortWrite r := by
  rcases afterWrite_cases h false with ⟨-, -, e⟩ | ⟨hok | hex, -⟩
  · exact e
  · cases hok
  · exact absurd hex he

/-- Settles O24: the step is the write call's, after which a `false` raises `ShortWrite`. -/
theorem shortWriteFails : Obligations.ShortWriteFails := by
  unfold Obligations.ShortWriteFails
  intro s bytes rest hr hf he hn hi hw
  rw [step_write hr hf hn hi hw, wroteState, afterWrite_false (sends_of_frameAt hf) he]
  rfl

end Sys2Proof.Machine
end

section
/-! PROOFS. Family 70 (reset and hazards): `rst` at both levels, and the outputs of `Idle`. -/

namespace Sys2Proof.Machine

/-- `rst` is looked at before the position and before `start`. -/
theorem step_rst {s : State} (hr : s.rst = true) : step s = .next (resetRegisters s) := if_pos hr

theorem cycle_rst {i : SigIn} (hr : i.rst = true) (σ : SigState) :
    cycle i σ = .next SigState.reset := if_pos hr

/-- An image byte is requested in `WritingPages` alone. -/
theorem requesting_quiescent {σ : SigState} (hq : quiescent σ.st = true) : requesting σ = false := by
  rw [Bool.eq_false_iff]
  intro h
  obtain ⟨⟨hst, -⟩, -⟩ := readingPage_iff.1 (requesting_iff.1 h).1
  rw [hst] at hq
  cases hq

/-- In `Idle` nothing is offered, requested or awaited, and the two buses are 0 (log entry 20). -/
theorem outputs_idle {σ : SigState} (hs : σ.st = .idle) (hp : σ.ph = .send) :
    outputs σ = {
      tx_valid := false, tx_last := false, tx_data := some 0, rx_ready := false,
      img_req := false, img_addr := some 0 } := by
  have hq : quiescent σ.st = true := by rw [hs]; rfl
  have hoffer := offering_quiescent hq
  have hreq := requesting_quiescent hq
  simp [outputs, hoffer, hreq, hs, hp]

/-- Settles O37: both levels test `rst` first, and the reset state is an `Idle` one. -/
theorem resetWins : Obligations.ResetWins := by
  unfold Obligations.ResetWins
  refine ⟨?step, ?cycle, rfl, outputs_idle rfl rfl, ?status⟩
  case step => exact fun s hr => ⟨[], step_rst hr⟩
  case cycle => exact fun i σ hr => cycle_rst hr σ
  case status => exact ⟨rfl, rfl, rfl⟩

end Sys2Proof.Machine
end
